-- ==== Sys2Proof/Word.lean ====
section
/-! DEFINITION. The word types of the HCC (spec/00_scope.md R7, R9, R12). -/

namespace Sys2Proof

/-- A 32-bit register, command word or host-bus word (10_state.md R32). -/
abbrev Word := BitVec 32

/-- One byte of a buffer (20_memory.md R104). -/
abbrev Byte := BitVec 8

/-- A symbol of the fixed 256-symbol alphabet (00_scope.md R7). -/
abbrev Symbol := BitVec 8

/-- A byte offset into the 16 MiB register window (20_memory.md R100, R101). -/
abbrev Offset := BitVec 24

/-- A bit string, its first bit first (00_scope.md R12). -/
abbrev BitStr := List Bool

end Sys2Proof
end

