-- ==== Sys2Proof/Config.lean ====
section
/-! DEFINITION. What an implementation fixes: the buffer sizes (parameters), the two OPEN platform values, and
the free value of a read while busy (spec/00_scope.md R8, 20_memory.md R111, 60_exceptions.md R291). -/

namespace Sys2Proof

/-- The size parameters of 00_scope.md R8. They are fixed for one machine; State carries them so that every
statement holds for every legal pair of sizes. -/
structure Params where
  /-- IBUF_BYTES: bytes in the input buffer. -/
  ibufBytes : Nat
  /-- OBUF_BYTES: bytes in the output buffer. -/
  obufBytes : Nat
  deriving DecidableEq, Repr

/-- The defaults of 00_scope.md R8. -/
def Params.default : Params := ⟨65536, 131072⟩

/-- BASE is 2^24 times this number (00_scope.md R8: "a multiple of 2^24", OPEN). Log entry 4. -/
opaque Config.baseIndex : Nat

/-- BASE, the host-bus base address of the register window (00_scope.md R8). -/
def Config.base : Nat := Config.baseIndex * 2 ^ 24

/-- IRQ_LINE, the platform's interrupt line (60_exceptions.md R291, OPEN). Log entry 4. -/
opaque Config.irqLine : Nat

/-- The free value a host read returns while BUSY = 1 outside the nine exempt registers (20_memory.md R111:
"a model draws it freely"), applied to the number of draws so far. Log entry 3. -/
opaque Config.busyRead : Nat → Word

end Sys2Proof
end

