-- ==== Sys2Proof/Syntax.lean ====
section
/-! DEFINITION. The commands: one constructor per row of spec/opcode_table.json (30_encoding.md R133, R147).
No command carries an operand in its word (R132); the L field is the difference between a command and its .L form. -/

namespace Sys2Proof

/-- The container format the L bit selects (30_encoding.md R131, R141, R142). -/
inductive Format where
  /-- L = 0: with the payload bit-count line (R141). -/
  | extended
  /-- L = 1: the source's form, no bit-count line (R142). -/
  | legacy
  deriving DecidableEq, Repr

/-- A legal command of the HCC (30_encoding.md R133). -/
inductive Instr where
  /-- NOP, 40_control.md R163. -/
  | nop
  /-- CLEAR, 40_control.md R162. -/
  | clear
  /-- FREQ, 41_frequency.md R171. -/
  | freq
  /-- BUILD, 42_tree_builder.md R184. -/
  | build
  /-- ASSIGN, 43_code_assigner.md R201. -/
  | assign
  /-- ENCODE, 44_bit_encoder.md R212. -/
  | encode
  /-- DECODE, 45_bit_decoder.md R227. -/
  | decode
  /-- HDRW (L = 0), 46_container_codec.md R244. -/
  | hdrw
  /-- HDRW.L (L = 1), 46_container_codec.md R244. -/
  | hdrwL
  /-- HDRP (L = 0), 46_container_codec.md R252. -/
  | hdrp
  /-- HDRP.L (L = 1), 46_container_codec.md R252. -/
  | hdrpL
  /-- COMPRESS (L = 0), 47_composite.md R270. -/
  | compress
  /-- COMPRESS.L (L = 1), 47_composite.md R270. -/
  | compressL
  /-- DECOMPRESS (L = 0), 47_composite.md R271. -/
  | decompress
  /-- DECOMPRESS.L (L = 1), 47_composite.md R271. -/
  | decompressL
  deriving DecidableEq, Repr

end Sys2Proof
end

