-- ==== Sys2Proof/WellFormed.lean ====
section
/-! DEFINITION. What is checked before a value is used: the size parameters (spec/00_scope.md R8) and the fields of
a command word (30_encoding.md R131, R134). An Instr has no operand, so there is nothing to check in it (R132). -/

namespace Sys2Proof

/-- The constraint of 00_scope.md R8 on IBUF_BYTES. -/
abbrev Params.ibufOk (p : Params) : Prop := 1 ≤ p.ibufBytes ∧ p.ibufBytes ≤ 2 ^ 20

/-- The constraint of 00_scope.md R8 on OBUF_BYTES. -/
abbrev Params.obufOk (p : Params) : Prop := 1 ≤ p.obufBytes ∧ p.obufBytes ≤ 2 ^ 20

/-- Legal parameters (00_scope.md R8). -/
abbrev Params.wf (p : Params) : Prop := p.ibufOk ∧ p.obufOk

/-- Every command of the inductive is well formed: 30_encoding.md R132, "no command has a register, immediate or
address operand in its word". -/
def Instr.wf : Instr → Bool
  | .nop | .clear | .freq | .build | .assign | .encode | .decode => true
  | .hdrw | .hdrwL | .hdrp | .hdrpL => true
  | .compress | .compressL | .decompress | .decompressL => true

/-- OP values of format C and of format CL (30_encoding.md R133). -/
def formatCOps : List Byte := [0x00#8, 0x01#8, 0x10#8, 0x20#8, 0x21#8, 0x30#8, 0x31#8]
def formatCLOps : List Byte := [0x40#8, 0x41#8, 0x50#8, 0x51#8]

/-- Bits 31:9 are 0 (30_encoding.md R131). -/
def reservedClear (w : Word) : Bool := w.extractLsb' 9 23 == 0#23

/-- The OP value is listed (30_encoding.md R133). -/
def opListed (w : Word) : Bool := (formatCOps ++ formatCLOps).contains (w.extractLsb' 0 8)

/-- L is 0 on a format-C command (30_encoding.md R131). -/
def formatBitOk (w : Word) : Bool := !(w.getLsbD 8) || formatCLOps.contains (w.extractLsb' 0 8)

/-- A word that names a command: the negation of 30_encoding.md R134's three cases. -/
def wordWellFormed (w : Word) : Bool := reservedClear w && opListed w && formatBitOk w

end Sys2Proof
end

