-- ==== Sys2Proof/Decode.lean ====
section
/-! DEFINITION. The command decoder, total on 32-bit words and rejecting by name, and the encoder
(spec/30_encoding.md R130 to R134, 40_control.md R165). -/

namespace Sys2Proof

/-- Why a word is no command (30_encoding.md R134). -/
inductive DecodeError where
  /-- A reserved bit 31:9 is set. -/
  | reservedBitSet
  /-- The OP value is not in the table. -/
  | unlistedOp
  /-- L = 1 with an OP of format C. -/
  | formatBitOnFormatC
  deriving DecidableEq, Repr

/-- One row of the opcode map (30_encoding.md R133). -/
structure OpRow where
  /-- `match`. -/
  pattern : Word
  /-- `mask`. -/
  mask : Word
  /-- The command with L = 0. -/
  ext : Instr
  /-- The command with L = 1 (the same one on a format-C row, whose mask fixes L to 0). -/
  leg : Instr
  deriving DecidableEq, Repr

/-- The opcode map of 30_encoding.md R133, in its order. -/
def opcodeMap : List OpRow := [
  ⟨0x00000000#32, 0xFFFFFFFF#32, .nop, .nop⟩,
  ⟨0x00000001#32, 0xFFFFFFFF#32, .clear, .clear⟩,
  ⟨0x00000010#32, 0xFFFFFFFF#32, .freq, .freq⟩,
  ⟨0x00000020#32, 0xFFFFFFFF#32, .build, .build⟩,
  ⟨0x00000021#32, 0xFFFFFFFF#32, .assign, .assign⟩,
  ⟨0x00000030#32, 0xFFFFFFFF#32, .encode, .encode⟩,
  ⟨0x00000031#32, 0xFFFFFFFF#32, .decode, .decode⟩,
  ⟨0x00000040#32, 0xFFFFFEFF#32, .hdrw, .hdrwL⟩,
  ⟨0x00000041#32, 0xFFFFFEFF#32, .hdrp, .hdrpL⟩,
  ⟨0x00000050#32, 0xFFFFFEFF#32, .compress, .compressL⟩,
  ⟨0x00000051#32, 0xFFFFFEFF#32, .decompress, .decompressL⟩]

/-- A word is a row's command when `w & mask = match` (30_encoding.md R133). -/
def OpRow.hits (r : OpRow) (w : Word) : Bool := w &&& r.mask == r.pattern

/-- The name of the first reason for which a word is illegal (30_encoding.md R134). -/
def rejectReason (w : Word) : DecodeError :=
  if !reservedClear w then .reservedBitSet
  else if !opListed w then .unlistedOp
  else .formatBitOnFormatC

/-- `dispatch`'s choice of a command: the first row that matches, with fmtL = w[8] (40_control.md R165). -/
def decode (w : Word) : Except DecodeError Instr :=
  match opcodeMap.find? (fun r => r.hits w) with
  | some r => .ok (if w.getLsbD 8 then r.leg else r.ext)
  | none => .error (rejectReason w)

/-- The OP field of a command (30_encoding.md R133). -/
def opField : Instr → Byte
  | .nop => 0x00#8
  | .clear => 0x01#8
  | .freq => 0x10#8
  | .build => 0x20#8
  | .assign => 0x21#8
  | .encode => 0x30#8
  | .decode => 0x31#8
  | .hdrw | .hdrwL => 0x40#8
  | .hdrp | .hdrpL => 0x41#8
  | .compress | .compressL => 0x50#8
  | .decompress | .decompressL => 0x51#8

/-- The L field of a command (30_encoding.md R131, R147). -/
def lField : Instr → BitVec 1
  | .hdrwL | .hdrpL | .compressL | .decompressL => 1#1
  | .nop | .clear | .freq | .build | .assign | .encode | .decode => 0#1
  | .hdrw | .hdrp | .compress | .decompress => 0#1

/-- The one word of a command: reserved bits 0, L at bit 8, OP in bits 7:0 (30_encoding.md R130, R131). -/
def encode (i : Instr) : Word := (0#23 ++ lField i ++ opField i).cast (by decide)

/-- The instruction this decoder reads from the opcode table's bit number `w` of `nbits` bits. A command is one
32-bit word whose bit 0 is the table's bit 0 (30_encoding.md R130); bits above `nbits` are 0. -/
def decodeTableWord (nbits w : Nat) : Option Instr :=
  match decode (BitVec.ofNat 32 (w % 2 ^ nbits)) with
  | .ok i => some i
  | .error _ => none

end Sys2Proof
end

