-- ==== Sys2Proof/Machine/State.lean ====
section
/-! DEFINITION. The state of one HCC instance as plain data, its reset value, and the reasons a step stops
(spec/10_state.md R30 to R66, 70_reset_and_hazards.md R310). -/

namespace Sys2Proof.Machine

/-- A byte buffer: the bytes written since reset, by strictly rising index; an unlisted index is `uninit`
(10_state.md R66, 20_memory.md R104, R116). -/
abbrev Memory := List Host.Cell

/-- One entry of the code table (10_state.md R56). -/
structure CodeEntry where
  /-- The symbol has a code. -/
  valid : Bool
  /-- The code length L. -/
  len : BitVec 8
  /-- The code value in its low L bits. -/
  bits : BitVec 256
  deriving DecidableEq, Repr

/-- The entry of a symbol without a code: reset, CLEAR, and the start of ASSIGN and HDRP. -/
def CodeEntry.empty : CodeEntry := ⟨false, 0#8, 0#256⟩

/-- One entry of the node arena (10_state.md R60). -/
structure Node where
  /-- 1 for an internal node, 0 for a leaf. -/
  internal : Bool
  /-- The leaf's symbol; 0 in an internal node. -/
  symbol : BitVec 8
  /-- The weight. -/
  weight : BitVec 40
  /-- Index of the child extracted first; 0 in a leaf. -/
  left : BitVec 9
  /-- Index of the child extracted second; 0 in a leaf. -/
  right : BitVec 9
  deriving DecidableEq, Repr

/-- The arena entry at reset: its contents are unspecified and never observable (10_state.md R62).
DESIGN CHOICE (log entry 2). -/
def Node.zero : Node := ⟨false, 0#8, 0#40, 0#9, 0#9⟩

/-- One event of the outside world (20_memory.md R117, 70_reset_and_hazards.md R312). -/
inductive Event where
  /-- A host write of a word at a window offset. -/
  | write (offset : Offset) (value : Word)
  /-- A host read at a window offset. -/
  | read (offset : Offset)
  /-- The core's turn: it executes the pending command, if there is one. -/
  | core
  /-- The reset input. -/
  | reset
  deriving DecidableEq, Repr

/-- Which buffer an access names. -/
inductive Buffer where
  /-- The input buffer IBUF. -/
  | input
  /-- The output buffer OBUF. -/
  | output
  deriving DecidableEq, Repr

/-- The architectural state of 10_state.md R30 and R66, the size parameters, and the model's own `script`, `reads`
and `draws` (INVENTORY.md, State). -/
structure State where
  /-- IBUF_BYTES and OBUF_BYTES, read as IBUF_SIZE and OBUF_SIZE (R54). No event changes them. -/
  params : Params
  /-- CTRL.IE (R34). -/
  ctrlIE : Bool
  /-- STATUS.DONE (R35). -/
  done : Bool
  /-- STATUS.WERR (R35). -/
  werr : Bool
  /-- STATUS.TREE_BUILT (R52). -/
  treeBuilt : Bool
  /-- STATUS.ROOT_VALID (R52). -/
  rootValid : Bool
  /-- CMD (R36). -/
  cmd : Word
  /-- The core sequencer; STATUS.BUSY is `pending ≠ none` (R63). -/
  pending : Option Word
  /-- ERRCODE[7:0] (R37). -/
  errcode : Byte
  /-- ERR_INFO (R38). -/
  errInfo : Word
  /-- IN_LEN (R42). -/
  inLen : Word
  /-- OUT_LEN (R43). -/
  outLen : Word
  /-- PAY_OFF (R44). -/
  payOff : Word
  /-- PAY_BITS (R45). -/
  payBits : Word
  /-- DEC_CFG.BV (R46). -/
  decBV : Bool
  /-- ENC_BITS (R47). -/
  encBits : Word
  /-- HDR_LEN (R48). -/
  hdrLen : Word
  /-- NODE_CNT (R49). -/
  nodeCnt : BitVec 9
  /-- ROOT (R50). -/
  root : BitVec 9
  /-- ROOT_W (R51). -/
  rootW : BitVec 40
  /-- FREQ[0..255] (R55). -/
  freq : Vector Word 256
  /-- CODE[0..255] (R56). -/
  code : Vector CodeEntry 256
  /-- NODE[0..510] (R60). -/
  node : Vector Node 511
  /-- IBUF (20_memory.md R104). -/
  ibuf : Memory
  /-- OBUF (20_memory.md R104). -/
  obuf : Memory
  /-- The model's own: the events still to come, in order (log entry 1). -/
  script : List Event
  /-- The model's own: the values host reads returned, newest first (log entry 1). -/
  reads : List Word
  /-- The model's own: how many unspecified read values have been drawn (log entry 3). -/
  draws : Nat
  deriving DecidableEq, Repr

/-- Why a step stops. -/
inductive Fault where
  /-- Raised by a command or an idle host read that reads a buffer byte not written since reset (20_memory.md R116,
  60_exceptions.md R301). Safe: the hardware returns some byte and goes on. -/
  | uninitByte (buffer : Buffer) (index : Nat)
  /-- Raised by `step` when no event is left and no command is pending: no agent has an enabled step
  (40_control.md R160, 93_implementation_defined.md section 2, `stuck`). Safe: the idle hardware changes nothing
  (60_exceptions.md R300). -/
  | noEnabledStep
  deriving DecidableEq, Repr

/-- Why an instruction is refused. The spec refuses no command (60_exceptions.md R301). -/
inductive Refusal where
  /-- The instruction has no meaning in the model yet; raised by `exec`'s own arm alone. Safe: the model stops. -/
  | notModelled (mnemonic : String)
  deriving DecidableEq, Repr

/-- The reset state of a machine with the given sizes: every value is that of 70_reset_and_hazards.md R310; the node
arena's, `script`'s, `reads`'s and `draws`'s values are the model's (log entries 1, 2, 3). -/
def State.resetWith (p : Params) : State where
  params := p
  ctrlIE := false
  done := false
  werr := false
  treeBuilt := false
  rootValid := false
  cmd := 0#32
  pending := none
  errcode := 0#8
  errInfo := 0#32
  inLen := 0#32
  outLen := 0#32
  payOff := 0#32
  payBits := 0#32
  decBV := false
  encBits := 0#32
  hdrLen := 0#32
  nodeCnt := 0#9
  root := 0#9
  rootW := 0#40
  freq := Vector.replicate 256 0#32
  code := Vector.replicate 256 CodeEntry.empty
  node := Vector.replicate 511 Node.zero
  ibuf := []
  obuf := []
  script := []
  reads := []
  draws := 0

/-- The machine right after reset, with the default sizes of 00_scope.md R8. -/
def State.reset : State := State.resetWith Params.default

end Sys2Proof.Machine
end

