-- ==== Sys2Proof/Machine/Ops.lean ====
section
/-! DEFINITION. The named operations over buffers, tables and registers, and the three ways a command's execution
changes the completion state: acceptance, `complete()` and `raise` (spec/40_control.md R161, 60_exceptions.md R280 to
R292), with the host's acknowledgement beside them. -/

namespace Sys2Proof.Machine

/-! ## Buffers (20_memory.md R104, R116) -/

/-- The canonical form: indexes strictly rising. An unlisted byte is `uninit`, so no entry can equal it. -/
abbrev Memory.wf (m : Memory) : Prop := m.Pairwise (fun x y => x.1 < y.1)

/-- No listed byte lies at or beyond the buffer's size. -/
abbrev Memory.below (m : Memory) (size : Nat) : Prop := ∀ c ∈ m, c.1 < size

/-- `buf[i]`, or none where the byte is `uninit`. -/
def Memory.read : Memory → Nat → Option Byte
  | [], _ => none
  | (a, v) :: m, i => if a = i then some v else Memory.read m i

/-- `buf[i] <- v`. -/
def Memory.write : Memory → Nat → Byte → Memory
  | [], i, v => [(i, v)]
  | (a, w) :: m, i, v =>
    if i < a then (i, v) :: (a, w) :: m
    else if i = a then (i, v) :: m
    else (a, w) :: Memory.write m i v

/-- Bytes written one at a time from index `i` up. -/
def Memory.writeBytes : Memory → Nat → List Byte → Memory
  | m, _, [] => m
  | m, i, b :: bs => Memory.writeBytes (Memory.write m i b) (i + 1) bs

/-! ## Tables of 256 entries indexed by symbol -/

/-- The entry of a symbol. -/
def tableGet {α : Type} (t : Vector α 256) (s : Symbol) : α := t[s.toNat]'s.isLt

/-- The table with the entry of one symbol replaced. -/
def tableSet {α : Type} (t : Vector α 256) (s : Symbol) (x : α) : Vector α 256 := t.set s.toNat x s.isLt

/-- The symbols 0, 1, .., 255 in ascending order. -/
def allSymbols : List Symbol := (List.range 256).map (BitVec.ofNat 8)

/-- The entries in ascending order of symbol, each with its symbol. -/
def tableEntries {α : Type} (t : Vector α 256) : List (Symbol × α) := allSymbols.zip t.toList

/-- FREQ[s]. -/
def freqAt (s : State) (sym : Symbol) : Word := tableGet s.freq sym

/-- CODE[s]. -/
def codeAt (s : State) (sym : Symbol) : CodeEntry := tableGet s.code sym

/-- The table with every entry invalid: {valid: 0, len: 0, bits: 0} for every symbol. -/
def emptyCodeTable : Vector CodeEntry 256 := Vector.replicate 256 CodeEntry.empty

/-! ## The node arena (10_state.md R60) -/

/-- NODE[n]; beyond the arena, the reset entry (no command reaches there: 10_state.md R62). -/
def arenaGet (arena : Vector Node 511) (n : Nat) : Node := arena.toList.getD n Node.zero

/-- The nodes written one at a time from index n up. -/
def arenaWrite : Vector Node 511 → Nat → List Node → Vector Node 511
  | arena, _, [] => arena
  | arena, n, nd :: nds => arenaWrite (arena.setIfInBounds n nd) (n + 1) nds

/-! ## Error codes (60_exceptions.md R280) -/

/-- The errors a command can raise. -/
inductive ErrCode where
  | illegalCmd | range | seq | noCode | obufOvf
  | hdrTrunc | hdrStart | hdrCount | hdrLine | hdrNlines | hdrDup | hdrBits | hdrEnd | payloadLen
  | incomplete
  deriving DecidableEq, Repr

/-- The code ERRCODE records (60_exceptions.md R280). -/
def ErrCode.code : ErrCode → Byte
  | .illegalCmd => 0x01#8
  | .range => 0x02#8
  | .seq => 0x03#8
  | .noCode => 0x04#8
  | .obufOvf => 0x05#8
  | .hdrTrunc => 0x10#8
  | .hdrStart => 0x11#8
  | .hdrCount => 0x12#8
  | .hdrLine => 0x13#8
  | .hdrNlines => 0x14#8
  | .hdrDup => 0x15#8
  | .hdrBits => 0x16#8
  | .hdrEnd => 0x17#8
  | .payloadLen => 0x18#8
  | .incomplete => 0x20#8

/-! ## Acceptance, completion, acknowledgement -/

/-- STATUS.BUSY (10_state.md R35, R63). -/
def State.busy (s : State) : Bool := s.pending.isSome

/-- Acceptance of a command word (40_control.md R161). -/
def accept (v : Word) (s : State) : State :=
  { s with cmd := v, pending := some v, done := false, errcode := 0#8, errInfo := 0#32 }

/-- `complete()` (60_exceptions.md R282). -/
def complete (s : State) : State :=
  { s with errcode := 0#8, errInfo := 0#32, pending := none, done := true }

/-- Taking an error: `raise E_X(info)` (60_exceptions.md R283). The command's own failure effects are already in `s`. -/
def raiseError (e : ErrCode) (info : Nat) (s : State) : State :=
  { s with errcode := e.code, errInfo := BitVec.ofNat 32 info, pending := none, done := true }

/-- Leaving an error or a completion: the host's write of STATUS clears DONE and WERR where the written bit is 1 and
restores nothing (10_state.md R35, 60_exceptions.md R292). -/
def acknowledge (v : Word) (s : State) : State :=
  { s with done := s.done && !v.getLsbD 1, werr := s.werr && !v.getLsbD 3 }

/-! ## Results of a command's body -/

/-- How the pseudocode of a command ends: at its `complete()`, at a `raise` (with the state after the command's own
failure effects), or in the model fault of an `uninit` byte. -/
inductive CmdResult where
  | done (s : State)
  | raise (s : State) (e : ErrCode) (info : Nat)
  | fault (f : Fault)
  deriving DecidableEq, Repr

/-- Why a scan of a buffer ends before its last byte. -/
inductive Stop where
  | raise (e : ErrCode) (info : Nat)
  | fault (f : Fault)
  deriving DecidableEq, Repr

/-- A scan that stopped ends the command; an error finds the state `s`. -/
def Stop.result (s : State) : Stop → CmdResult
  | .raise e info => .raise s e info
  | .fault f => .fault f

/-- "body of X" followed by the next step; a `raise` ends the whole command at once (47_composite.md R270). -/
def CmdResult.andThen (r : CmdResult) (next : State → CmdResult) : CmdResult :=
  match r with
  | .done s => next s
  | .raise s e info => .raise s e info
  | .fault f => .fault f

/-- The end of a command's step (60_exceptions.md R282, R283). -/
def CmdResult.finish : CmdResult → Host.Outcome State Fault Refusal
  | .done s => .next (complete s)
  | .raise s e info => .next (raiseError e info s)
  | .fault f => .fault f

end Sys2Proof.Machine
end

