-- ==== Sys2Proof/Machine/Flags.lean ====
section
/-! DEFINITION. STATUS, CTRL and DEC_CFG as words, the derived bits, and the interrupt output
(spec/10_state.md R34, R35, R40, R46, R53, 60_exceptions.md R290). -/

namespace Sys2Proof.Machine

/-- A bit placed at position `i` of a register word. -/
def bitAt (i : Nat) (b : Bool) : Word := if b then 1#32 <<< i else 0#32

/-- STATUS.ERR reads ERRCODE ≠ 0 (10_state.md R35). -/
def State.err (s : State) : Bool := s.errcode != 0#8

/-- STATUS as read (10_state.md R35). -/
def statusWord (s : State) : Word :=
  bitAt 0 s.busy ||| bitAt 1 s.done ||| bitAt 2 s.err ||| bitAt 3 s.werr ||| bitAt 4 s.treeBuilt |||
    bitAt 5 s.rootValid

/-- CTRL as read (10_state.md R34). -/
def ctrlWord (s : State) : Word := bitAt 0 s.ctrlIE

/-- DEC_CFG as read (10_state.md R46). -/
def decCfgWord (s : State) : Word := bitAt 0 s.decBV

/-- NSYM, the number of valid code entries (10_state.md R53). -/
def nsym (code : Vector CodeEntry 256) : Nat := code.toList.countP (fun e => e.valid)

/-- The interrupt output (10_state.md R40, 60_exceptions.md R290). -/
def State.irq (s : State) : Bool := s.done && s.ctrlIE

/-- The interrupt as the platform sees it: the line `irq` is delivered on, while it is raised (60_exceptions.md R291). -/
def interruptLine (s : State) : Option Nat := if s.irq then some Config.irqLine else none

end Sys2Proof.Machine
end

