-- ==== Sys2Proof/Machine/Operands.lean ====
section
/-! DEFINITION. The implicit operands of the commands: bit strings and code entries, the forward and the reverse view
of the code table, buffer bytes, payload bits, decimal text (spec/00_scope.md R10 to R16, 10_state.md R56,
20_memory.md R104, R108, 45_bit_decoder.md R228). -/

namespace Sys2Proof.Machine

/-! ## Bit strings (00_scope.md R12) -/

/-- A bit appended on the right of a value. -/
def pushBit (v : Nat) (b : Bool) : Nat := 2 * v + b.toNat

/-- `val(c)`: the first bit is the most significant. -/
def bitsVal (c : BitStr) : Nat := c.foldl pushBit 0

/-- The bit string of length `len` whose value is `v mod 2^len`. -/
def bitsOf (len v : Nat) : BitStr := (List.range len).map (fun i => v.testBit (len - 1 - i))

/-- `ceil8(b)` (00_scope.md R13). -/
def ceil8 (b : Nat) : Nat := (b + 7) / 8

/-! ## Code entries (10_state.md R56) -/

/-- The effective code of an entry. -/
def CodeEntry.effective (e : CodeEntry) : BitStr := bitsOf e.len.toNat e.bits.toNat

/-- The valid entry whose code is `c`: {valid: 1, len: |c|, bits: zext_256(val(c))}. -/
def CodeEntry.ofBits (c : BitStr) : CodeEntry := ⟨true, BitVec.ofNat 8 c.length, BitVec.ofNat 256 (bitsVal c)⟩

/-- An entry's code is exactly `acc`: valid, of `acc`'s length and value (45_bit_decoder.md R228). -/
def CodeEntry.hits (e : CodeEntry) (acc : BitStr) : Bool :=
  e.valid && e.len.toNat == acc.length && e.bits.toNat % 2 ^ e.len.toNat == bitsVal acc

/-- `lookup(acc)`: the least symbol whose code is `acc` (45_bit_decoder.md R228), the reverse view of 00_scope.md R15. -/
def lookup (code : Vector CodeEntry 256) (acc : BitStr) : Option Symbol :=
  ((tableEntries code).find? (fun x => x.2.hits acc)).map Prod.fst

/-! ## Buffer bytes -/

/-- IBUF[i], or the model fault of an `uninit` byte (20_memory.md R116). -/
def inputByte (s : State) (i : Nat) : Except Stop Byte :=
  match s.ibuf.read i with
  | some b => .ok b
  | none => .error (.fault (.uninitByte .input i))

/-- Bytes `i .. i + n − 1` of IBUF, read in order. -/
def inputBytes (s : State) : Nat → Nat → Except Stop (List Byte)
  | 0, _ => .ok []
  | n + 1, i => do
    let b ← inputByte s i
    let bs ← inputBytes s n (i + 1)
    .ok (b :: bs)

/-- Bit `k` of a payload whose byte `k div 8` is `b`: most significant bit first (20_memory.md R108). -/
def payloadBit (b : Byte) (k : Nat) : Bool := b.getLsbD (7 - k % 8)

/-- Payload byte `j` of the bit sequence `S`: bit `8j + t` in byte bit `7 − t`, 0 beyond `|S|` (30_encoding.md R146,
44_bit_encoder.md R212). -/
def packByte (S : BitStr) (j : Nat) : Byte :=
  (List.range 8).foldl
    (fun byte t => byte ||| ((if S.getD (8 * j + t) false then 1#8 else 0#8) <<< (7 - t))) 0#8

/-- The payload of a bit sequence (30_encoding.md R146). -/
def pack (S : BitStr) : List Byte := (List.range (ceil8 S.length)).map (packByte S)

/-! ## ASCII and decimal text (00_scope.md R10, R16) -/

def chLF : Byte := 0x0A#8
def chComma : Byte := 0x2C#8
def chZero : Byte := 0x30#8
def chOne : Byte := 0x31#8
def chE : Byte := 0x45#8
def chH : Byte := 0x48#8
def chS : Byte := 0x53#8

/-- A byte in '0'..'9'. -/
def isDigit (b : Byte) : Bool := chZero.toNat ≤ b.toNat && b.toNat ≤ 0x39

/-- The number a digit byte stands for. -/
def digitVal (b : Byte) : Nat := b.toNat - chZero.toNat

/-- The digit byte of a number below 10. -/
def digitChar (n : Nat) : Byte := BitVec.ofNat 8 (chZero.toNat + n)

/-- The digits of n in front of `tail`; `fuel` bounds their number. -/
def decDigits : Nat → Nat → List Byte → List Byte
  | 0, _, tail => tail
  | fuel + 1, n, tail =>
    if n < 10 then digitChar n :: tail
    else decDigits fuel (n / 10) (digitChar (n % 10) :: tail)

/-- `dec(n)`: the canonical decimal byte string (00_scope.md R16). -/
def dec (n : Nat) : List Byte := decDigits (n + 1) n []

end Sys2Proof.Machine
end

