-- ==== Sys2Proof/Machine/BitDecoder.lean ====
section
/-! DEFINITION. The Bit Decoder: DECODE (spec/45_bit_decoder.md R226 to R232). -/

namespace Sys2Proof.Machine

/-- A decoded symbol appended to OBUF: `OBUF[OUT_LEN] <- m; OUT_LEN <- OUT_LEN + 1`. -/
def emitSymbol (m : Symbol) (s : State) : State :=
  { s with obuf := s.obuf.write s.outLen.toNat m, outLen := BitVec.ofNat 32 (s.outLen.toNat + 1) }

/-- The bit loop: `n` bits from payload bit `k` on, with the accumulator `acc` (45_bit_decoder.md R227). -/
def decodeLoop : Nat → Nat → BitStr → State → CmdResult
  | 0, _, acc, s => if acc = [] then .done s else .raise s .incomplete acc.length
  | n + 1, k, acc, s =>
    if acc.length = 255 then .raise s .incomplete 255
    else
      match inputByte s (s.payOff.toNat + k / 8) with
      | .error stop => stop.result s
      | .ok b =>
        match lookup s.code (acc ++ [payloadBit b k]) with
        | none => decodeLoop n (k + 1) (acc ++ [payloadBit b k]) s
        | some m =>
          if s.outLen.toNat = s.params.obufBytes then .raise s .obufOvf (s.params.obufBytes + 1)
          else decodeLoop n (k + 1) [] (emitSymbol m s)

/-- `avail`: the bits of the payload bytes IBUF[PAY_OFF..IN_LEN−1] (45_bit_decoder.md R227). -/
def payloadAvail (s : State) : Nat := 8 * (s.inLen.toNat - s.payOff.toNat)

/-- `total`: PAY_BITS where BV = 1, else every bit of every byte (45_bit_decoder.md R227). -/
def payloadTotal (s : State) : Nat := if s.decBV then s.payBits.toNat else payloadAvail s

/-- The body of DECODE (45_bit_decoder.md R227). -/
def decodeBody (s : State) : CmdResult :=
  if s.params.ibufBytes < s.inLen.toNat then .raise s .range s.inLen.toNat
  else if s.inLen.toNat < s.payOff.toNat then .raise s .range s.payOff.toNat
  else if s.decBV && payloadAvail s < s.payBits.toNat then .raise s .range s.payBits.toNat
  else decodeLoop (payloadTotal s) 0 [] { s with outLen := 0#32 }

/-- DECODE. -/
def execDecode (s : State) : Host.Outcome State Fault Refusal := (decodeBody s).finish

end Sys2Proof.Machine
end

