-- ==== Sys2Proof/Machine/BitEncoder.lean ====
section
/-! DEFINITION. The Bit Encoder: ENCODE (spec/44_bit_encoder.md R211 to R216). -/

namespace Sys2Proof.Machine

/-- Pass 1 over `n` bytes from index `i`: each byte is read and must have a code; the answer is the bit sequence
`code(IBUF[i]) ++ ..` (44_bit_encoder.md R212). E_NOCODE's info is `(index << 8) | symbol`. -/
def encodeScan (s : State) : Nat → Nat → Except Stop BitStr
  | 0, _ => .ok []
  | n + 1, i => do
    let b ← inputByte s i
    if (codeAt s b).valid then
      let S ← encodeScan s n (i + 1)
      .ok ((codeAt s b).effective ++ S)
    else .error (.raise .noCode (i <<< 8 ||| b.toNat))

/-- The body of ENCODE (44_bit_encoder.md R212). -/
def encodeBody (s : State) : CmdResult :=
  if s.params.ibufBytes < s.inLen.toNat then .raise s .range s.inLen.toNat
  else if s.params.obufBytes < s.outLen.toNat then .raise s .range s.outLen.toNat
  else
    match encodeScan s s.inLen.toNat 0 with
    | .error stop => stop.result s
    | .ok S =>
      if s.params.obufBytes < s.outLen.toNat + ceil8 S.length then
        .raise s .obufOvf (s.outLen.toNat + ceil8 S.length)
      else
        .done { s with
          obuf := s.obuf.writeBytes s.outLen.toNat (pack S)
          outLen := BitVec.ofNat 32 (s.outLen.toNat + ceil8 S.length)
          encBits := BitVec.ofNat 32 S.length }

/-- ENCODE. -/
def execEncode (s : State) : Host.Outcome State Fault Refusal := (encodeBody s).finish

end Sys2Proof.Machine
end

