-- ==== Sys2Proof/Machine/CodeAssigner.lean ====
section
/-! DEFINITION. The Code Assigner: ASSIGN (spec/43_code_assigner.md R200 to R203). -/

namespace Sys2Proof.Machine

/-- The leaves of the subtree at node `m`, each with its symbol and its path, where `c` is the path to `m` (43_code_assigner.md
R200, the visit order of the source: left child with '0', right child with '1'). A path has at most 255 steps (00_scope.md
R9), so 256 bounds the depth; where an arena that no BUILD made is deeper, the walk stops (log entry 6). -/
def leafPaths (arena : Vector Node 511) : Nat → Nat → BitStr → List (Symbol × BitStr)
  | 0, _, _ => []
  | depth + 1, m, c =>
    if (arenaGet arena m).internal then
      leafPaths arena depth (arenaGet arena m).left.toNat (c ++ [false]) ++
        leafPaths arena depth (arenaGet arena m).right.toNat (c ++ [true])
    else [((arenaGet arena m).symbol, c)]

/-- `CODE[symbol] <- code`, for each listed pair. -/
def writeCodes (table : Vector CodeEntry 256) (codes : List (Symbol × BitStr)) : Vector CodeEntry 256 :=
  codes.foldl (fun t x => tableSet t x.1 (CodeEntry.ofBits x.2)) table

/-- The codes of the tree rooted at `root`: a root leaf gets the code "0", otherwise each leaf its path
(43_code_assigner.md R201, R202). -/
def treeCodes (arena : Vector Node 511) (root : Nat) : List (Symbol × BitStr) :=
  if (arenaGet arena root).internal then leafPaths arena 256 root []
  else [((arenaGet arena root).symbol, [false])]

/-- The body of ASSIGN (43_code_assigner.md R201). -/
def assignBody (s : State) : CmdResult :=
  if !s.treeBuilt then .raise s .seq 0
  else if !s.rootValid then .done { s with code := emptyCodeTable }
  else .done { s with code := writeCodes emptyCodeTable (treeCodes s.node s.root.toNat) }

/-- ASSIGN. -/
def execAssign (s : State) : Host.Outcome State Fault Refusal := (assignBody s).finish

end Sys2Proof.Machine
end

