-- ==== Sys2Proof/Machine/ContainerCodec.lean ====
section
/-! DEFINITION. The Container Codec: the header serialiser HDRW and the header deserialiser HDRP
(spec/30_encoding.md R135 to R144, 46_container_codec.md R240 to R258). -/

namespace Sys2Proof.Machine

/-! ## Serialiser -/

/-- A bit as its ASCII character. -/
def bitChar (b : Bool) : Byte := if b then chOne else chZero

/-- A table line: `code "," symbol LF` (30_encoding.md R138, R139). -/
def tableLine (c : BitStr) (sym : Symbol) : List Byte := c.map bitChar ++ [chComma, sym, chLF]

/-- A header: "HS", the count, the lines, the bit count where there is one, "HE" (30_encoding.md R141, R142). -/
def renderHeader (count : Nat) (lines : List (BitStr × Symbol)) (bitLine : List Byte) : List Byte :=
  [chH, chS, chLF] ++ dec count ++ [chLF] ++ lines.flatMap (fun x => tableLine x.1 x.2) ++ bitLine ++
    [chH, chE, chLF]

/-- The bit-count line of the extended format (30_encoding.md R141). -/
def bitCountLine (bits : Nat) : List Byte := dec bits ++ [chLF]

/-- The table lines of CODE in serialiser order, ascending symbol (46_container_codec.md R241). -/
def codeLines (code : Vector CodeEntry 256) : List (BitStr × Symbol) :=
  ((tableEntries code).filter (fun x => x.2.valid)).map (fun x => (x.2.effective, x.1))

/-- The symbols in ascending order, each with FREQ[s] and CODE[s]. -/
def countedCodes (s : State) : List ((Symbol × Word) × CodeEntry) := (tableEntries s.freq).zip s.code.toList

/-- The loop over the symbols that sums the bit count; a present symbol without a code ends it
(46_container_codec.md R242, R244). -/
def sumBitCount : List ((Symbol × Word) × CodeEntry) → Except Stop Nat
  | [] => .ok 0
  | ((sym, count), entry) :: rest =>
    if count = 0#32 then sumBitCount rest
    else if entry.valid then do
      let B ← sumBitCount rest
      .ok (count.toNat * entry.len.toNat + B)
    else .error (.raise .noCode sym.toNat)

/-- The bit-count line of a header in either format, with HDRW's checks (46_container_codec.md R243, R244). -/
def headerBitLine (s : State) : Format → Except Stop (List Byte)
  | .legacy => .ok []
  | .extended => do
    let B ← sumBitCount (countedCodes s)
    if 2 ^ 32 - 1 < B then .error (.raise .range 0) else .ok (bitCountLine B)

/-- The body of HDRW (46_container_codec.md R244). -/
def hdrwBody (f : Format) (s : State) : CmdResult :=
  match headerBitLine s f with
  | .error stop => stop.result s
  | .ok line =>
    let H := renderHeader (nsym s.code) (codeLines s.code) line
    if s.params.obufBytes < H.length then .raise s .obufOvf H.length
    else
      .done { s with
        obuf := s.obuf.writeBytes 0 H
        outLen := BitVec.ofNat 32 H.length
        hdrLen := BitVec.ofNat 32 H.length }

/-- HDRW, the extended format. -/
def execHdrw (s : State) : Host.Outcome State Fault Refusal := (hdrwBody .extended s).finish

/-- HDRW.L, the legacy format. -/
def execHdrwL (s : State) : Host.Outcome State Fault Refusal := (hdrwBody .legacy s).finish

/-! ## Parser primitives (46_container_codec.md R248) -/

/-- `peek()` at position `p`. -/
def peekByte (s : State) (p : Nat) : Except Stop Byte :=
  if s.inLen.toNat ≤ p then .error (.raise .hdrTrunc s.inLen.toNat) else inputByte s p

/-- `expect(ch, err)` at position `p`: the position after it. -/
def expectByte (s : State) (ch : Byte) (err : ErrCode) (p : Nat) : Except Stop Nat := do
  let b ← peekByte s p
  if b = ch then .ok (p + 1) else .error (.raise err p)

/-- The loop of `decfield`: `left` more digits are allowed, `n` have been read with value `v`; the next byte is at `p`.
The answer is the value and the position after the LF. -/
def decLoop (s : State) (err : ErrCode) (start : Nat) (first : Byte) :
    Nat → Nat → Nat → Nat → Except Stop (Nat × Nat)
  | left, n, v, p => do
    let d ← peekByte s p
    if d = chLF then
      if 1 < n ∧ first = chZero then .error (.raise err start) else .ok (v, p + 1)
    else if !isDigit d then .error (.raise err p)
    else
      match left with
      | 0 => .error (.raise err p)
      | left + 1 => decLoop s err start first left (n + 1) (10 * v + digitVal d) (p + 1)

/-- `decfield(err, maxdigits)` at position `p` (46_container_codec.md R248). -/
def decField (s : State) (err : ErrCode) (maxDigits p : Nat) : Except Stop (Nat × Nat) := do
  let d ← peekByte s p
  if !isDigit d then .error (.raise err p)
  else decLoop s err p d (maxDigits - 1) 1 (digitVal d) (p + 1)

/-! ## Table lines (46_container_codec.md R249) -/

/-- The code-field loop of `parseline`: `left` more characters are allowed; `len` characters of value `v` have been read.
The answer is the length, the value and the position after the ','. -/
def codeField (s : State) : Nat → Nat → Nat → Nat → Except Stop (Nat × Nat × Nat)
  | left, len, v, p => do
    let b ← peekByte s p
    if b = chComma ∧ 1 ≤ len then .ok (len, v, p + 1)
    else if b = chZero ∨ b = chOne then
      match left with
      | 0 => .error (.raise .hdrLine p)
      | left + 1 => codeField s left (len + 1) (pushBit v (b == chOne)) (p + 1)
    else .error (.raise .hdrLine p)

/-- One table line: its symbol, its code's length and value, and the position after it. -/
structure ParsedLine where
  sym : Symbol
  len : Nat
  value : Nat
  next : Nat
  deriving DecidableEq, Repr

/-- `parseline()` at position `q`. -/
def parseLine (s : State) (q : Nat) : Except Stop ParsedLine := do
  let h ← peekByte s q
  if h = chH then .error (.raise .hdrNlines q)
  else
    let (len, v, p) ← codeField s 255 0 0 q
    let sym ← peekByte s p
    let p' ← expectByte s chLF .hdrLine (p + 1)
    .ok ⟨sym, len, v, p'⟩

/-- The entry a line gives its symbol: {valid: 1, len: len, bits: zext_256(v)}. -/
def ParsedLine.entry (l : ParsedLine) : CodeEntry := ⟨true, BitVec.ofNat 8 l.len, BitVec.ofNat 256 l.value⟩

/-- The line repeats a symbol or a code of the table (46_container_codec.md R252, R255). -/
def ParsedLine.repeats (table : Vector CodeEntry 256) (l : ParsedLine) : Bool :=
  (tableGet table l.sym).valid || table.toList.contains l.entry

/-- The N table lines from position `q`, entered into `table`. -/
def parseLines (s : State) : Nat → Vector CodeEntry 256 → Nat → Except Stop (Vector CodeEntry 256 × Nat)
  | 0, table, q => .ok (table, q)
  | n + 1, table, q => do
    let l ← parseLine s q
    if l.repeats table then .error (.raise .hdrDup q)
    else parseLines s n (tableSet table l.sym l.entry) l.next

/-! ## Deserialiser -/

/-- What a parsed header gives: the table, the header length, and PAY_BITS with BV. -/
structure ParsedHeader where
  code : Vector CodeEntry 256
  length : Nat
  payBits : Nat
  deriving DecidableEq, Repr

/-- The bit-count line of the extended format at `p`: its value and the position after it; nothing in the legacy
format (46_container_codec.md R252). -/
def parseBitCount (s : State) (p : Nat) : Format → Except Stop (Nat × Nat)
  | .legacy => .ok (0, p)
  | .extended => do
    let (B, p') ← decField s .hdrBits 10 p
    if 2 ^ 32 - 1 < B then .error (.raise .hdrBits p) else .ok (B, p')

/-- The "HE" line at `q`: the position after it, the payload offset (46_container_codec.md R252). -/
def parseEnd (s : State) (f : Format) (q : Nat) : Except Stop Nat := do
  let b ← peekByte s q
  if b ≠ chH then
    if f = .legacy ∧ (b = chZero ∨ b = chOne) then .error (.raise .hdrNlines q)
    else .error (.raise .hdrEnd q)
  else
    let p ← expectByte s chE .hdrEnd (q + 1)
    expectByte s chLF .hdrEnd p

/-- PAY_BITS of a parsed header with bit count `B` and length `hl`, and the extended format's payload length check
(46_container_codec.md R252, R256). -/
def parsedPayBits (s : State) (B hl : Nat) : Format → Except Stop Nat
  | .extended =>
    if ceil8 B ≠ s.inLen.toNat - hl then .error (.raise .payloadLen (s.inLen.toNat - hl)) else .ok B
  | .legacy => .ok (8 * (s.inLen.toNat - hl))

/-- HDRP's parse, from its first check to its last (46_container_codec.md R250, R252). -/
def parseHeader (f : Format) (s : State) : Except Stop ParsedHeader :=
  if s.params.ibufBytes < s.inLen.toNat then .error (.raise .range s.inLen.toNat)
  else do
    let p1 ← expectByte s chH .hdrStart 0
    let p2 ← expectByte s chS .hdrStart p1
    let nstart ← expectByte s chLF .hdrStart p2
    let (N, p3) ← decField s .hdrCount 3 nstart
    if 256 < N then .error (.raise .hdrCount nstart)
    else
      let (table, p4) ← parseLines s N emptyCodeTable p3
      let (B, p5) ← parseBitCount s p4 f
      let hl ← parseEnd s f p5
      let bits ← parsedPayBits s B hl f
      .ok ⟨table, hl, bits⟩

/-- HDRP's failure rule: what any error leaves behind (46_container_codec.md R251). -/
def hdrpFailure (s : State) : State :=
  { s with code := emptyCodeTable, payOff := 0#32, payBits := 0#32, decBV := false, hdrLen := 0#32 }

/-- The registers a parsed header sets (46_container_codec.md R252). -/
def hdrpSuccess (f : Format) (h : ParsedHeader) (s : State) : State :=
  { s with
    code := h.code
    payBits := BitVec.ofNat 32 h.payBits
    decBV := f == .extended
    payOff := BitVec.ofNat 32 h.length
    hdrLen := BitVec.ofNat 32 h.length }

/-- The body of HDRP: every `raise` applies the failure rule first (46_container_codec.md R252). -/
def hdrpBody (f : Format) (s : State) : CmdResult :=
  match parseHeader f s with
  | .error stop => stop.result (hdrpFailure s)
  | .ok h => .done (hdrpSuccess f h s)

/-- HDRP, the extended format. -/
def execHdrp (s : State) : Host.Outcome State Fault Refusal := (hdrpBody .extended s).finish

/-- HDRP.L, the legacy format. -/
def execHdrpL (s : State) : Host.Outcome State Fault Refusal := (hdrpBody .legacy s).finish

end Sys2Proof.Machine
end

