-- ==== Sys2Proof/Machine/Frequency.lean ====
section
/-! DEFINITION. The Frequency Analyzer: FREQ (spec/41_frequency.md R170, R171). -/

namespace Sys2Proof.Machine

/-- `FREQ[s] <- FREQ[s] + 1`. -/
def countByte (t : Vector Word 256) (b : Byte) : Vector Word 256 :=
  tableSet t b (BitVec.ofNat 32 ((tableGet t b).toNat + 1))

/-- The counts of a byte string: every FREQ[s] starts at 0 (41_frequency.md R171). -/
def countBytes (bs : List Byte) : Vector Word 256 := bs.foldl countByte (Vector.replicate 256 0#32)

/-- The body of FREQ (41_frequency.md R171). -/
def freqBody (s : State) : CmdResult :=
  if s.params.ibufBytes < s.inLen.toNat then .raise s .range s.inLen.toNat
  else
    match inputBytes s s.inLen.toNat 0 with
    | .error stop => stop.result s
    | .ok bs => .done { s with freq := countBytes bs, treeBuilt := false }

/-- FREQ. -/
def execFreq (s : State) : Host.Outcome State Fault Refusal := (freqBody s).finish

end Sys2Proof.Machine
end

