-- ==== Sys2Proof/Machine/TreeBuilder.lean ====
section
/-! DEFINITION. The Huffman Tree Builder: the priority-queue arbiter and the node-merge FSM of BUILD
(spec/42_tree_builder.md R180 to R191). -/

namespace Sys2Proof.Machine

/-- An entry (w, n) of the arbiter (42_tree_builder.md R180). -/
structure PQEntry where
  weight : Nat
  index : Nat
  deriving DecidableEq, Repr

/-- The arbiter's order: weight, then node index (42_tree_builder.md R181). -/
def pqLess (a b : PQEntry) : Bool := a.weight < b.weight || (a.weight == b.weight && a.index < b.index)

/-- `extract_min()`: the least entry and the entries left (42_tree_builder.md R182). -/
def extractMin : List PQEntry → Option (PQEntry × List PQEntry)
  | [] => none
  | e :: es =>
    match extractMin es with
    | none => some (e, [])
    | some (m, rest) => if pqLess m e then some (m, e :: rest) else some (e, es)

/-- The leaf of a symbol and its count (42_tree_builder.md R184, SEED). -/
def leafNode (x : Symbol × Word) : Node := ⟨false, x.1, BitVec.ofNat 40 x.2.toNat, 0#9, 0#9⟩

/-- The present symbols with their counts, in ascending order of symbol (42_tree_builder.md R184, SEED). -/
def presentSymbols (freq : Vector Word 256) : List (Symbol × Word) :=
  (tableEntries freq).filter (fun x => x.2 != 0#32)

/-- The arbiter's entry of each leaf: its count and its index. -/
def seedQueue (leaves : List (Symbol × Word)) : List PQEntry :=
  leaves.zipIdx.map (fun x => ⟨x.1.2.toNat, x.2⟩)

/-- The internal node of a merge: A, extracted first, is the left child (42_tree_builder.md R184, MERGE). -/
def mergeNode (a b : PQEntry) : Node :=
  ⟨true, 0#8, BitVec.ofNat 40 (a.weight + b.weight), BitVec.ofNat 9 a.index, BitVec.ofNat 9 b.index⟩

/-- The MERGE loop: while more than one entry is live, merge the two least. `nodes` holds NODE[0..n−1]; the first
argument bounds the number of merges. -/
def mergeLoop : Nat → List PQEntry → List Node → List PQEntry × List Node
  | 0, pq, nodes => (pq, nodes)
  | fuel + 1, pq, nodes =>
    match extractMin pq with
    | none => (pq, nodes)
    | some (a, pq1) =>
      match extractMin pq1 with
      | none => (pq, nodes)
      | some (b, pq2) =>
        mergeLoop fuel (⟨a.weight + b.weight, nodes.length⟩ :: pq2) (nodes ++ [mergeNode a b])

/-- The tree BUILD makes from a frequency table: the entries left in the arbiter (the root's, or none) and the nodes
by index (42_tree_builder.md R184). A tree of k leaves takes k − 1 merges (R186), so k bounds the loop. -/
def buildTree (freq : Vector Word 256) : List PQEntry × List Node :=
  mergeLoop (presentSymbols freq).length (seedQueue (presentSymbols freq)) ((presentSymbols freq).map leafNode)

/-- FINISH's root: the single entry, or the zeros of "no tree" (42_tree_builder.md R184, R188). -/
def rootEntry (pq : List PQEntry) : PQEntry := pq.headD ⟨0, 0⟩

/-- The body of BUILD, which cannot fail (42_tree_builder.md R184). -/
def buildBody (s : State) : CmdResult :=
  match buildTree s.freq with
  | (pq, nodes) =>
    .done { s with
      node := arenaWrite s.node 0 nodes
      nodeCnt := BitVec.ofNat 9 nodes.length
      root := BitVec.ofNat 9 (rootEntry pq).index
      rootW := BitVec.ofNat 40 (rootEntry pq).weight
      rootValid := !pq.isEmpty
      treeBuilt := true }

/-- BUILD. -/
def execBuild (s : State) : Host.Outcome State Fault Refusal := (buildBody s).finish

end Sys2Proof.Machine
end

