-- ==== Sys2Proof/Machine/Composite.lean ====
section
/-! DEFINITION. The composite commands COMPRESS and DECOMPRESS (spec/47_composite.md R270 to R272). -/

namespace Sys2Proof.Machine

/-- FREQ, BUILD, ASSIGN, HDRW and ENCODE in one step (47_composite.md R270). -/
def compressBody (f : Format) (s : State) : CmdResult :=
  ((((freqBody s).andThen buildBody).andThen assignBody).andThen (hdrwBody f)).andThen encodeBody

/-- HDRP and DECODE in one step (47_composite.md R271). -/
def decompressBody (f : Format) (s : State) : CmdResult := (hdrpBody f s).andThen decodeBody

/-- COMPRESS, the extended format. -/
def execCompress (s : State) : Host.Outcome State Fault Refusal := (compressBody .extended s).finish

/-- COMPRESS.L, the legacy format. -/
def execCompressL (s : State) : Host.Outcome State Fault Refusal := (compressBody .legacy s).finish

/-- DECOMPRESS, the extended format. -/
def execDecompress (s : State) : Host.Outcome State Fault Refusal := (decompressBody .extended s).finish

/-- DECOMPRESS.L, the legacy format. -/
def execDecompressL (s : State) : Host.Outcome State Fault Refusal := (decompressBody .legacy s).finish

end Sys2Proof.Machine
end

