-- ==== Sys2Proof/Machine/Control.lean ====
section
/-! DEFINITION. NOP, CLEAR and the illegal command (spec/40_control.md R162, R163, R164). -/

namespace Sys2Proof.Machine

/-- NOP: `complete()` (40_control.md R163). -/
def execNop (s : State) : Host.Outcome State Fault Refusal := (CmdResult.done s).finish

/-- What CLEAR writes before it completes (40_control.md R162). -/
def clearWork (s : State) : State :=
  { s with
    freq := Vector.replicate 256 0#32
    code := emptyCodeTable
    nodeCnt := 0#9, root := 0#9, rootW := 0#40
    treeBuilt := false, rootValid := false
    outLen := 0#32, payOff := 0#32, payBits := 0#32, decBV := false
    encBits := 0#32, hdrLen := 0#32 }

/-- CLEAR (40_control.md R162). -/
def execClear (s : State) : Host.Outcome State Fault Refusal := (CmdResult.done (clearWork s)).finish

/-- An illegal word completes with E_ILLEGAL_CMD, ERR_INFO = the word (40_control.md R164). -/
def execIllegal (v : Word) (s : State) : Host.Outcome State Fault Refusal :=
  (CmdResult.raise s .illegalCmd v.toNat).finish

end Sys2Proof.Machine
end

