-- ==== Sys2Proof/Machine/Dispatch.lean ====
section
/-! DEFINITION. The dispatch of a command to its meaning (spec/40_control.md R165): one arm per constructor. -/

namespace Sys2Proof.Machine

def exec (i : Instr) (s : State) : Host.Outcome State Fault Refusal :=
  match i with
  | .nop => Sys2Proof.Machine.execNop s
  | .clear => Sys2Proof.Machine.execClear s
  | .freq => Sys2Proof.Machine.execFreq s
  | .build => Sys2Proof.Machine.execBuild s
  | .assign => Sys2Proof.Machine.execAssign s
  | .encode => Sys2Proof.Machine.execEncode s
  | .decode => Sys2Proof.Machine.execDecode s
  | .hdrw => Sys2Proof.Machine.execHdrw s
  | .hdrwL => Sys2Proof.Machine.execHdrwL s
  | .hdrp => Sys2Proof.Machine.execHdrp s
  | .hdrpL => Sys2Proof.Machine.execHdrpL s
  | .compress => Sys2Proof.Machine.execCompress s
  | .compressL => Sys2Proof.Machine.execCompressL s
  | .decompress => Sys2Proof.Machine.execDecompress s
  | .decompressL => Sys2Proof.Machine.execDecompressL s

end Sys2Proof.Machine
end

