-- ==== Sys2Proof/Machine/Window.lean ====
section
/-! DEFINITION. The host register window: offset decode, reads and writes, idle and busy
(spec/10_state.md R32 to R62, 20_memory.md R100 to R113). -/

namespace Sys2Proof.Machine

/-- The registers at offsets 0x000 to 0x050 (10_state.md R32). -/
inductive Reg where
  | id | version | ctrl | status | cmd | errcode | errInfo | inLen | outLen | payOff | payBits | decCfg
  | encBits | hdrLen | nsym | nodeCnt | root | rootWLo | rootWHi | ibufSize | obufSize
  deriving DecidableEq, Repr

/-- The registers in offset order, one word each from 0x000 (10_state.md R32). -/
def regOrder : List Reg :=
  [.id, .version, .ctrl, .status, .cmd, .errcode, .errInfo, .inLen, .outLen, .payOff, .payBits, .decCfg,
   .encBits, .hdrLen, .nsym, .nodeCnt, .root, .rootWLo, .rootWHi, .ibufSize, .obufSize]

/-- What a word of the window is (20_memory.md R102). -/
inductive Slot where
  | reg (r : Reg)
  | freq (s : Symbol)
  | code (s : Symbol) (w : Nat)
  | node (n w : Nat)
  | ibuf (i : Nat)
  | obuf (i : Nat)
  | unmapped
  deriving DecidableEq, Repr

/-- The word a byte offset names: bits 1:0 are ignored (20_memory.md R101). -/
def wordOffset (a : Offset) : Nat := 4 * (a.toNat / 4)

/-- The decode of a word offset, in the order of 20_memory.md R102. -/
def slotAt (p : Params) (a : Nat) : Slot :=
  if a < 0x054 then
    match regOrder[a / 4]? with
    | some r => .reg r
    | none => .unmapped
  else if 0x1000 ≤ a ∧ a < 0x1400 then .freq (BitVec.ofNat 8 ((a - 0x1000) / 4))
  else if 0x4000 ≤ a ∧ a < 0x8000 then .code (BitVec.ofNat 8 ((a - 0x4000) / 64)) (a % 64 / 4)
  else if 0x8000 ≤ a ∧ a < 0x8000 + 16 * 511 then .node ((a - 0x8000) / 16) (a % 16 / 4)
  else if 0x400000 ≤ a ∧ a < 0x400000 + 4 * p.ibufBytes then .ibuf ((a - 0x400000) / 4)
  else if 0x800000 ≤ a ∧ a < 0x800000 + 4 * p.obufBytes then .obuf ((a - 0x800000) / 4)
  else .unmapped

/-- The slot a host access at a byte offset reaches. -/
def slotOf (p : Params) (a : Offset) : Slot := slotAt p (wordOffset a)

/-- The offset a host-bus address has inside this HCC's window, if it lies in it (00_scope.md R8, 20_memory.md R100). -/
def busOffset (addr : Nat) : Option Offset :=
  if Config.base ≤ addr ∧ addr < Config.base + 2 ^ 24 then some (BitVec.ofNat 24 (addr - Config.base)) else none

/-! ## Reads -/

/-- ID and VERSION (10_state.md R33). -/
def idWord : Word := 0x48554646#32
def versionWord : Word := 0x00000001#32

/-- A register's value (10_state.md R33 to R54). -/
def regWord (s : State) : Reg → Word
  | .id => idWord
  | .version => versionWord
  | .ctrl => ctrlWord s
  | .status => statusWord s
  | .cmd => s.cmd
  | .errcode => s.errcode.zeroExtend 32
  | .errInfo => s.errInfo
  | .inLen => s.inLen
  | .outLen => s.outLen
  | .payOff => s.payOff
  | .payBits => s.payBits
  | .decCfg => decCfgWord s
  | .encBits => s.encBits
  | .hdrLen => s.hdrLen
  | .nsym => BitVec.ofNat 32 (nsym s.code)
  | .nodeCnt => s.nodeCnt.zeroExtend 32
  | .root => s.root.zeroExtend 32
  | .rootWLo => s.rootW.extractLsb' 0 32
  | .rootWHi => (s.rootW.extractLsb' 32 8).zeroExtend 32
  | .ibufSize => BitVec.ofNat 32 s.params.ibufBytes
  | .obufSize => BitVec.ofNat 32 s.params.obufBytes

/-- Word `w` of a code entry as read (10_state.md R57). -/
def codeWord (e : CodeEntry) (w : Nat) : Word :=
  if w = 0 then bitAt 31 e.valid ||| e.len.zeroExtend 32
  else if w ≤ 8 then e.bits.extractLsb' (32 * (w - 1)) 32
  else 0#32

/-- Word `w` of a node as laid out (10_state.md R61). -/
def nodeWord (nd : Node) (w : Nat) : Word :=
  if w = 0 then bitAt 31 nd.internal ||| nd.symbol.zeroExtend 32
  else if w = 1 then nd.weight.extractLsb' 0 32
  else if w = 2 then (nd.weight.extractLsb' 32 8).zeroExtend 32
  else nd.left.zeroExtend 32 ||| (nd.right.zeroExtend 32 <<< 16)

/-- A buffer byte as read by the host: `zext_32(byte)`, or the model fault of an `uninit` byte (20_memory.md R106, R116). -/
def bufferWord (m : Memory) (b : Buffer) (i : Nat) : Except Fault Word :=
  match m.read i with
  | some v => .ok (v.zeroExtend 32)
  | none => .error (.uninitByte b i)

/-- The value the state holds at a slot, what every idle read returns (20_memory.md R105, R111, 10_state.md R62). -/
def slotWord (s : State) : Slot → Except Fault Word
  | .reg r => .ok (regWord s r)
  | .freq sym => .ok (freqAt s sym)
  | .code sym w => .ok (codeWord (codeAt s sym) w)
  | .node n w => .ok (if n < s.nodeCnt.toNat then nodeWord (arenaGet s.node n) w else 0#32)
  | .ibuf i => bufferWord s.ibuf .input i
  | .obuf i => bufferWord s.obuf .output i
  | .unmapped => .ok 0#32

/-- The nine registers that read their value while busy (20_memory.md R111). -/
def busyReadable : Slot → Bool
  | .reg .id | .reg .version | .reg .ctrl | .reg .status | .reg .cmd | .reg .errcode | .reg .errInfo
  | .reg .ibufSize | .reg .obufSize => true
  | _ => false

/-- The value a read returned, recorded as the host's observation. -/
def recordRead (v : Word) (s : State) : State := { s with reads := v :: s.reads }

/-- The free value of a busy read (20_memory.md R111); the next draw is another one. -/
def drawRead (s : State) : State := recordRead (Config.busyRead s.draws) { s with draws := s.draws + 1 }

/-- A host read (20_memory.md R101, R111, R113): it changes no register, table or buffer. -/
def hostRead (a : Offset) (s : State) : Host.Outcome State Fault Refusal :=
  if s.busy && !busyReadable (slotOf s.params a) then .next (drawRead s)
  else
    match slotWord s (slotOf s.params a) with
    | .ok v => .next (recordRead v s)
    | .error f => .fault f

/-! ## Writes -/

/-- Word 0 of a code entry as written (10_state.md R58). -/
def writeCodeHead (v : Word) (e : CodeEntry) : CodeEntry :=
  { e with len := v.extractLsb' 0 8, valid := v.getLsbD 31 && v.extractLsb' 0 8 != 0#8 }

/-- Words 1..8 of a code entry as written: the 32 bits at `32·(w−1)` (10_state.md R57, R58). -/
def writeCodeBits (w : Nat) (v : Word) (e : CodeEntry) : CodeEntry :=
  { e with bits := (e.bits &&& ~~~((0xFFFFFFFF#32).zeroExtend 256 <<< (32 * (w - 1)))) |||
      (v.zeroExtend 256 <<< (32 * (w - 1))) }

/-- Word `w` of a code entry as written; words 9..15 are reserved (10_state.md R57). -/
def writeCodeWord (w : Nat) (v : Word) (e : CodeEntry) : CodeEntry :=
  if w = 0 then writeCodeHead v e else if w ≤ 8 then writeCodeBits w v e else e

/-- A write to FREQ[s] also clears TREE_BUILT (10_state.md R55). -/
def writeFreq (sym : Symbol) (v : Word) (s : State) : State :=
  { s with freq := tableSet s.freq sym v, treeBuilt := false }

/-- A write to a register (10_state.md R32 to R46); a read-only register ignores it. -/
def writeReg (r : Reg) (v : Word) (s : State) : State :=
  match r with
  | .ctrl => { s with ctrlIE := v.getLsbD 0 }
  | .status => acknowledge v s
  | .cmd => accept v s
  | .inLen => { s with inLen := v }
  | .outLen => { s with outLen := v }
  | .payOff => { s with payOff := v }
  | .payBits => { s with payBits := v }
  | .decCfg => { s with decBV := v.getLsbD 0 }
  | .id | .version | .errcode | .errInfo | .encBits | .hdrLen | .nsym | .nodeCnt | .root | .rootWLo | .rootWHi
  | .ibufSize | .obufSize => s

/-- A write to a slot (20_memory.md R105, R106, R113, 10_state.md R32). -/
def writeSlot (t : Slot) (v : Word) (s : State) : State :=
  match t with
  | .reg r => writeReg r v s
  | .freq sym => writeFreq sym v s
  | .code sym w => { s with code := tableSet s.code sym (writeCodeWord w v (codeAt s sym)) }
  | .node _ _ => s
  | .ibuf i => { s with ibuf := s.ibuf.write i (v.extractLsb' 0 8) }
  | .obuf i => { s with obuf := s.obuf.write i (v.extractLsb' 0 8) }
  | .unmapped => s

/-- The registers a write reaches while busy (20_memory.md R110). -/
def busyWritable : Slot → Bool
  | .reg .ctrl | .reg .status => true
  | _ => false

/-- A host write (20_memory.md R110): while busy, every write but those to CTRL and STATUS is dropped and sets WERR. -/
def hostWrite (a : Offset) (v : Word) (s : State) : State :=
  if s.busy && !busyWritable (slotOf s.params a) then { s with werr := true }
  else writeSlot (slotOf s.params a) v s

end Sys2Proof.Machine
end

