-- ==== Sys2Proof/Machine/Sequencer.lean ====
section
/-! DEFINITION. The three kinds of event, a core step, a host access and a reset, and their order
(spec/40_control.md R160, R165, 20_memory.md R117, 70_reset_and_hazards.md R312). -/

namespace Sys2Proof.Machine

/-- The core step for the command word `w`: the command it decodes to, or the illegal-command rule
(40_control.md R160, R165). -/
def coreStep (w : Word) (s : State) : Host.Outcome State Fault Refusal :=
  match decode w with
  | .ok i => exec i s
  | .error _ => execIllegal w s

/-- The core's turn in the script: it executes the pending command; with none pending it has no step and the turn
passes (40_control.md R160, log entry 1). -/
def coreTurn (s : State) : Host.Outcome State Fault Refusal :=
  match s.pending with
  | some w => coreStep w s
  | none => .next s

/-- The reset input replaces the whole state by the reset state (70_reset_and_hazards.md R312); the outside world's
remaining events, its observations and the draw counter are not the HCC's and stay. -/
def resetInput (s : State) : State :=
  { State.resetWith s.params with script := s.script, reads := s.reads, draws := s.draws }

/-- One event of the script (20_memory.md R117). -/
def runEvent (e : Event) (s : State) : Host.Outcome State Fault Refusal :=
  match e with
  | .write a v => .next (hostWrite a v s)
  | .read a => hostRead a s
  | .core => coreTurn s
  | .reset => .next (resetInput s)

/-- The step: the script's next event; at its end the core's step, if a command is pending (40_control.md R160). -/
def nextEvent (s : State) : Host.Outcome State Fault Refusal :=
  match s.script with
  | e :: rest => runEvent e { s with script := rest }
  | [] =>
    match s.pending with
    | some w => coreStep w s
    | none => .fault .noEnabledStep

/-- The script after which the core moves at once: nothing to add where it is empty. -/
def coreFirst : List Event → List Event
  | [] => []
  | e :: rest => .core :: e :: rest

/-- The event is an access of the host (20_memory.md R117). -/
def Event.isHostAccess : Event → Bool
  | .write _ _ => true
  | .read _ => true
  | .core => false
  | .reset => false

/-- The run of a host program is over: the host has performed its last access and BUSY = 0 (70_reset_and_hazards.md R332).
Turns of the core and resets may still stand in the script; the observation is the state before them. -/
def State.runEnded (s : State) : Bool := !s.script.any Event.isHostAccess && !s.busy

/-- The observation at the end of a run: the state as the host reads it back, offset by offset, and nothing before the
end (70_reset_and_hazards.md R332, 20_memory.md R111). -/
def State.observed (s : State) (a : Offset) : Option (Except Fault Word) :=
  if s.runEnded then some (slotWord s (slotOf s.params a)) else none

end Sys2Proof.Machine
end

