-- ==== Sys2Proof/Machine/Step.lean ====
section
/-! DEFINITION. The step, and where a command word stands for it (spec/40_control.md R160, 10_state.md R63). -/

namespace Sys2Proof.Machine

/-- One event of the HCC (20_memory.md R117). -/
def step (s : State) : Host.Outcome State Fault Refusal := nextEvent s

/-- The command word accepted (40_control.md R161) and the core's turn next: the HCC has no program counter and fetches
nothing, its next command is the word in `pending` (10_state.md R31, R63). Log entry 7. -/
def State.withFetchWord (s : State) (nbits w : Nat) : State :=
  accept (BitVec.ofNat 32 (w % 2 ^ nbits)) { s with script := coreFirst s.script }

end Sys2Proof.Machine
end

