-- ==== Sys2Proof/Machine/HostProgram.lean ====
section
/-! DEFINITION. The host-program notation of spec/30_encoding.md R147, R148: statements expanded into the script's
events. -/

namespace Sys2Proof.Machine

/-- The mnemonic of a command (30_encoding.md R147). -/
def mnemonicOf : Instr → String
  | .nop => "NOP"
  | .clear => "CLEAR"
  | .freq => "FREQ"
  | .build => "BUILD"
  | .assign => "ASSIGN"
  | .encode => "ENCODE"
  | .decode => "DECODE"
  | .hdrw => "HDRW"
  | .hdrwL => "HDRW.L"
  | .hdrp => "HDRP"
  | .hdrpL => "HDRP.L"
  | .compress => "COMPRESS"
  | .compressL => "COMPRESS.L"
  | .decompress => "DECOMPRESS"
  | .decompressL => "DECOMPRESS.L"

/-- A host statement (30_encoding.md R148). -/
inductive HostStmt where
  /-- `wr OFF, V`. -/
  | wr (off : Nat) (v : Word)
  /-- `rd OFF`. -/
  | rd (off : Nat)
  /-- `wait`: `polls` reads of STATUS that find BUSY = 1, then the core's step, then the read that finds BUSY = 0.
  How many polls find it busy is unspecified (70_reset_and_hazards.md R331), so it is an argument. -/
  | wait (polls : Nat)
  /-- `cmd M`, with the polls of its `wait`. -/
  | cmd (i : Instr) (polls : Nat)
  /-- `ack`. -/
  | ack
  /-- `ibuf "bytes"`. -/
  | ibuf (bytes : List Byte)
  /-- `freq s, v`. -/
  | freq (sym : Symbol) (v : Word)
  /-- `code s, "bits"`. -/
  | code (sym : Symbol) (bits : BitStr)
  /-- `copy n`, with the n bytes its reads return. -/
  | copy (bytes : List Byte)
  deriving DecidableEq, Repr

def writeAt (off : Nat) (v : Word) : Event := .write (BitVec.ofNat 24 off) v
def readAt (off : Nat) : Event := .read (BitVec.ofNat 24 off)

/-- `wait` (30_encoding.md R148). -/
def waitEvents (polls : Nat) : List Event := List.replicate polls (readAt 0x00C) ++ [.core, readAt 0x00C]

/-- The writes of `ibuf`, or the reads and writes of `copy`, for the bytes from index `i` on. -/
def loadEvents (copying : Bool) : Nat → List Byte → List Event
  | _, [] => []
  | i, b :: bs =>
    (if copying then [readAt (0x800000 + 4 * i)] else []) ++
      writeAt (0x400000 + 4 * i) (b.zeroExtend 32) :: loadEvents copying (i + 1) bs

/-- The number of value words `code` writes: word 1, and words 2..8 for codes over 32 bits (30_encoding.md R148). -/
def codeWordCount (len : Nat) : Nat := if len ≤ 32 then 1 else 8

/-- The writes of `code s, "bits"`: the value words, least significant first, then word 0. -/
def codeEvents (sym : Symbol) (bits : BitStr) : List Event :=
  (List.range (codeWordCount bits.length)).map (fun w =>
    writeAt (0x4000 + 64 * sym.toNat + 4 * (w + 1)) (BitVec.ofNat 32 (bitsVal bits >>> (32 * w)))) ++
  [writeAt (0x4000 + 64 * sym.toNat) (0x80000000#32 ||| BitVec.ofNat 32 bits.length)]

/-- The expansion of a statement (30_encoding.md R148). -/
def HostStmt.events : HostStmt → List Event
  | .wr off v => [writeAt off v]
  | .rd off => [readAt off]
  | .wait polls => waitEvents polls
  | .cmd i polls => writeAt 0x010 (encode i) :: waitEvents polls
  | .ack => [writeAt 0x00C 0x00000002#32]
  | .ibuf bytes => loadEvents false 0 bytes ++ [writeAt 0x01C (BitVec.ofNat 32 bytes.length)]
  | .freq sym v => [writeAt (0x1000 + 4 * sym.toNat) v]
  | .code sym bits => codeEvents sym bits
  | .copy bytes => loadEvents true 0 bytes ++ [writeAt 0x01C (BitVec.ofNat 32 bytes.length)]

/-- A host program as a script. -/
def programEvents (p : List HostStmt) : List Event := p.flatMap HostStmt.events

end Sys2Proof.Machine
end

