-- ==== Sys2Proof/Safety.lean ====
section
/-! DEFINITION. What counts as a safe run, the invariant of the machine, and the words the claims use: what a buffer
holds, what stays the same, a prefix-free table, a path in the tree, the container of a message. -/

namespace Sys2Proof.Machine

/-! ## Safe runs -/

/-- A run of `n` steps is safe when it reaches a next state: it reads no `uninit` byte and is never without an enabled
step (60_exceptions.md R301). -/
def SafeRun (n : Nat) (s : State) : Prop := ∃ t, Sys2Proof.core.run n s = .next t

/-- A state some script leads to from reset, for some legal sizes. -/
def Reachable (s : State) : Prop :=
  ∃ (p : Params) (script : List Event) (n : Nat),
    p.wf ∧ Sys2Proof.core.run n { State.resetWith p with script := script } = .next s

/-! ## The invariant -/

/-- The error codes ERRCODE can hold (60_exceptions.md R280). -/
def listedCodes : List Byte :=
  [0x00#8, 0x01#8, 0x02#8, 0x03#8, 0x04#8, 0x05#8, 0x10#8, 0x11#8, 0x12#8, 0x13#8, 0x14#8, 0x15#8, 0x16#8, 0x17#8,
   0x18#8, 0x20#8]

/-- The tree registers and the arena below NODE_CNT are those of the tree BUILD makes from `freq` (10_state.md R52). -/
abbrev TreeMatches (s : State) (freq : Vector Word 256) : Prop :=
  s.nodeCnt.toNat = (buildTree freq).2.length ∧
  (∀ n < (buildTree freq).2.length, (buildTree freq).2[n]? = some (arenaGet s.node n)) ∧
  s.root.toNat = (rootEntry (buildTree freq).1).index ∧
  s.rootW.toNat = (rootEntry (buildTree freq).1).weight ∧
  s.rootValid = !(buildTree freq).1.isEmpty

/-- The invariant every step keeps. -/
structure State.Inv (s : State) : Prop where
  /-- The sizes are legal (00_scope.md R8). -/
  sizes : s.params.wf
  /-- IBUF and OBUF are in canonical form and within their sizes (20_memory.md R104). -/
  ibufWf : s.ibuf.wf
  ibufBelow : s.ibuf.below s.params.ibufBytes
  obufWf : s.obuf.wf
  obufBelow : s.obuf.below s.params.obufBytes
  /-- BUSY and DONE are never both 1 (10_state.md R39). -/
  oneStatus : ¬(s.busy = true ∧ s.done = true)
  /-- While a command is pending, CMD holds it and no error is recorded (40_control.md R161). -/
  pendingClear : ∀ w, s.pending = some w → s.cmd = w ∧ s.errcode = 0#8 ∧ s.errInfo = 0#32
  /-- ERRCODE holds a listed code (60_exceptions.md R280). -/
  errListed : s.errcode ∈ listedCodes
  /-- ERR_INFO is 0 without an error (10_state.md R38). -/
  noErrInfo : s.errcode = 0#8 → s.errInfo = 0#32
  /-- No valid entry has an empty code (10_state.md R58, 30_encoding.md R138). -/
  codeNonEmpty : ∀ e ∈ s.code.toList, e.valid = true → e.len ≠ 0#8
  /-- TREE_BUILT means the arena holds the tree of the current FREQ (10_state.md R52). -/
  treeCurrent : s.treeBuilt = true → TreeMatches s s.freq
  /-- Without a root the tree registers are 0 (10_state.md R49 to R51). -/
  noRoot : s.rootValid = false → s.nodeCnt = 0#9 ∧ s.root = 0#9 ∧ s.rootW = 0#40
  /-- NODE_CNT and ROOT stay inside the arena (00_scope.md R9). -/
  nodeCntBound : s.nodeCnt.toNat ≤ 511
  rootBound : s.rootValid = true → s.root.toNat < s.nodeCnt.toNat

/-! ## Buffers -/

/-- IBUF[0..IN_LEN−1] is the byte string `bs`. -/
abbrev IbufHolds (s : State) (bs : List Byte) : Prop :=
  s.inLen.toNat = bs.length ∧ ∀ i < bs.length, s.ibuf.read i = bs[i]?

/-- The bytes from index `start` on are `bs`. -/
abbrev BytesAt (m : Memory) (start : Nat) (bs : List Byte) : Prop :=
  ∀ i < bs.length, m.read (start + i) = bs[i]?

/-- Every byte outside `start .. start + n − 1` reads as before. -/
def SameOutside (m m' : Memory) (start n : Nat) : Prop :=
  ∀ a, a < start ∨ start + n ≤ a → m'.read a = m.read a

/-- The payload bits in memory from byte `start` on begin with the bit string `S` (20_memory.md R108). -/
abbrev BitsAt (m : Memory) (start : Nat) (S : BitStr) : Prop :=
  ∀ k < S.length, (m.read (start + k / 8)).map (fun b => payloadBit b k) = S[k]?

/-! ## Completion -/

/-- The completion state of a successful command (60_exceptions.md R282). -/
abbrev Completed (t : State) : Prop :=
  t.errcode = 0#8 ∧ t.errInfo = 0#32 ∧ t.pending = none ∧ t.done = true

/-- The command ended with this error and nothing but the completion state changed (60_exceptions.md R283, R284). -/
abbrev RaisesOnly (o : Host.Outcome State Fault Refusal) (s : State) (e : ErrCode) (info : Nat) : Prop :=
  o = .next { s with errcode := e.code, errInfo := BitVec.ofNat 32 info, pending := none, done := true }

/-- What no command changes: sizes, CTRL, WERR, CMD, IN_LEN, IBUF and the outside world (20_memory.md R115,
10_state.md R42). -/
abbrev InputsKept (s t : State) : Prop :=
  t.params = s.params ∧ t.ctrlIE = s.ctrlIE ∧ t.werr = s.werr ∧ t.cmd = s.cmd ∧ t.inLen = s.inLen ∧
  (∀ a, t.ibuf.read a = s.ibuf.read a) ∧ t.script = s.script ∧ t.reads = s.reads ∧ t.draws = s.draws

/-- FREQ and the tree are as before. -/
abbrev TreeKept (s t : State) : Prop :=
  t.freq = s.freq ∧ t.treeBuilt = s.treeBuilt ∧ t.rootValid = s.rootValid ∧ t.nodeCnt = s.nodeCnt ∧
  t.root = s.root ∧ t.rootW = s.rootW ∧ t.node = s.node

/-- The registers only HDRP and CLEAR write are as before. -/
abbrev DecodeSetupKept (s t : State) : Prop :=
  t.payOff = s.payOff ∧ t.payBits = s.payBits ∧ t.decBV = s.decBV

/-- OBUF and the output lengths are as before. -/
abbrev OutputKept (s t : State) : Prop :=
  t.outLen = s.outLen ∧ t.encBits = s.encBits ∧ ∀ a, t.obuf.read a = s.obuf.read a

/-! ## Codes -/

/-- The bit sequence of a byte string under a table (30_encoding.md R145). -/
def codeBits (code : Vector CodeEntry 256) (bs : List Byte) : BitStr := bs.flatMap (fun b => (tableGet code b).effective)

/-- Every byte has a code. -/
abbrev Covers (code : Vector CodeEntry 256) (bs : List Byte) : Prop := ∀ b ∈ bs, (tableGet code b).valid = true

/-- Neither of two different symbols' codes is a prefix of the other (43_code_assigner.md R204). -/
abbrev PrefixFree (code : Vector CodeEntry 256) : Prop :=
  ∀ a b : Symbol, (tableGet code a).valid = true → (tableGet code b).valid = true → a ≠ b →
    ¬(tableGet code a).effective <+: (tableGet code b).effective

/-- The code of `sym` is `c` (10_state.md R56). -/
abbrev HasCode (code : Vector CodeEntry 256) (sym : Symbol) (c : BitStr) : Prop :=
  (tableGet code sym).valid = true ∧ (tableGet code sym).effective = c

/-- What the decoder reads as one symbol under any table, prefix-free or not: a code no proper beginning of which is a
code, with the least symbol it belongs to (45_bit_decoder.md R228). -/
abbrev FirstMatch (code : Vector CodeEntry 256) (x : BitStr × Symbol) : Prop :=
  x.1 ≠ [] ∧ HasCode code x.2 x.1 ∧ (∀ r : Symbol, r.toNat < x.2.toNat → ¬HasCode code r x.1) ∧
  ∀ d r, d <+: x.1 → d ≠ [] → d ≠ x.1 → ¬HasCode code r d

/-- The payload bit count a header declares: the sum of FREQ[s] × len over the present symbols (46_container_codec.md
R242; an absent symbol adds 0). -/
def bitCount (freq : Vector Word 256) (code : Vector CodeEntry 256) : Nat :=
  (allSymbols.map (fun s => (tableGet freq s).toNat * (tableGet code s).len.toNat)).sum

/-- A code's share of the code space, in units of 2^−255 (43_code_assigner.md R204). -/
def codeSpace (code : Vector CodeEntry 256) : Nat :=
  (code.toList.map (fun e => if e.valid then 2 ^ (255 - e.len.toNat) else 0)).sum

/-- The number of present symbols (42_tree_builder.md R184). -/
abbrev presentCount (freq : Vector Word 256) : Nat := freq.toList.countP (fun c => c != 0#32)

/-- The sum of all counts. -/
abbrev totalCount (freq : Vector Word 256) : Nat := (freq.toList.map BitVec.toNat).sum

/-- Node `a` comes before node `b` in the arbiter's order (42_tree_builder.md R181). -/
abbrev NodeBefore (arena : Vector Node 511) (a b : Nat) : Prop :=
  (arenaGet arena a).weight.toNat < (arenaGet arena b).weight.toNat ∨
  ((arenaGet arena a).weight.toNat = (arenaGet arena b).weight.toNat ∧ a < b)

/-- Node `m` is a child of node `n`. -/
abbrev ChildOf (arena : Vector Node 511) (m n : Nat) : Prop :=
  (arenaGet arena n).left.toNat = m ∨ (arenaGet arena n).right.toNat = m

/-- `path`: the bit string read along the steps from `root` down to a node (43_code_assigner.md R200). -/
inductive PathTo (arena : Vector Node 511) (root : Nat) : Nat → BitStr → Prop where
  | here : PathTo arena root root []
  | left {m c} : PathTo arena root m c → (arenaGet arena m).internal = true →
      PathTo arena root (arenaGet arena m).left.toNat (c ++ [false])
  | right {m c} : PathTo arena root m c → (arenaGet arena m).internal = true →
      PathTo arena root (arenaGet arena m).right.toNat (c ++ [true])

/-! ## Containers -/

/-- The header of a list of table lines: with a bit count in the extended format, without one in the legacy format
(30_encoding.md R141, R142). -/
def headerOf (lines : List (BitStr × Symbol)) : Option Nat → List Byte
  | some bits => renderHeader lines.length lines (bitCountLine bits)
  | none => renderHeader lines.length lines []

/-- The bit count a header of the format carries, if it carries one. -/
def formatBits (f : Format) (bits : Nat) : Option Nat :=
  match f with
  | .extended => some bits
  | .legacy => none

/-- Lines HDRP accepts: at most 256, codes of 1 to 255 bits, no symbol and no code repeated (30_encoding.md R138, R140,
46_container_codec.md R255). -/
abbrev GoodLines (lines : List (BitStr × Symbol)) : Prop :=
  lines.length ≤ 256 ∧ (∀ x ∈ lines, 1 ≤ x.1.length ∧ x.1.length ≤ 255) ∧
  (lines.map Prod.snd).Nodup ∧ (lines.map Prod.fst).Nodup

/-- The code a list of lines gives a symbol. -/
def lineCode (lines : List (BitStr × Symbol)) (sym : Symbol) : Option BitStr :=
  (lines.find? (fun x => x.2 == sym)).map Prod.fst

/-- The entry a list of lines gives a symbol: its line's code, or the empty entry. -/
def lineEntry (lines : List (BitStr × Symbol)) (sym : Symbol) : CodeEntry :=
  match lineCode lines sym with
  | some c => CodeEntry.ofBits c
  | none => CodeEntry.empty

/-- The bit sequence of a byte string under a list of lines. -/
def lineBits (lines : List (BitStr × Symbol)) (bs : List Byte) : BitStr :=
  bs.flatMap (fun b => (lineCode lines b).getD [])

/-- No line's code is a prefix of another line's. -/
abbrev PrefixFreeLines (lines : List (BitStr × Symbol)) : Prop :=
  lines.Pairwise (fun x y => ¬x.1 <+: y.1 ∧ ¬y.1 <+: x.1)

/-- The code table of a message: FREQ, BUILD and ASSIGN on its counts (47_composite.md R270). -/
def huffmanCodes (bs : List Byte) : Vector CodeEntry 256 :=
  match buildTree (countBytes bs) with
  | (pq, nodes) =>
    if pq.isEmpty then emptyCodeTable
    else writeCodes emptyCodeTable (treeCodes (arenaWrite (Vector.replicate 511 Node.zero) 0 nodes) (rootEntry pq).index)

/-- The header COMPRESS writes for a message (46_container_codec.md R244). -/
def messageHeader (f : Format) (bs : List Byte) : List Byte :=
  headerOf (codeLines (huffmanCodes bs)) (formatBits f (codeBits (huffmanCodes bs) bs).length)

/-- The container of a message (30_encoding.md R135). -/
def containerOf (f : Format) (bs : List Byte) : List Byte :=
  messageHeader f bs ++ pack (codeBits (huffmanCodes bs) bs)

/-! ## Malformed headers -/

/-- The input begins with the bytes `bs`; the rest of it is arbitrary, and need not be written. -/
abbrev InputStarts (s : State) (bs : List Byte) : Prop := bs.length ≤ s.inLen.toNat ∧ BytesAt s.ibuf 0 bs

/-- HDRP of the format ends with the error code and ERR_INFO, with an empty table and zero decoder registers, and nothing
else changed (46_container_codec.md R251, 60_exceptions.md R283). -/
abbrev HdrpEnds (f : Format) (s : State) (code : Byte) (info : Nat) : Prop :=
  exec (match f with | .extended => .hdrp | .legacy => .hdrpL) s = .next { s with
    code := emptyCodeTable, payOff := 0#32, payBits := 0#32, decBV := false, hdrLen := 0#32,
    errcode := code, errInfo := BitVec.ofNat 32 info, pending := none, done := true }

/-- An ASCII digit (00_scope.md R10). -/
abbrev AsciiDigit (b : Byte) : Prop := 0x30 ≤ b.toNat ∧ b.toNat ≤ 0x39

/-- The text `x` makes a decimal line of at most `max` digits malformed, found `off` bytes after its start: a byte that is
no digit where one is due or neither a digit nor LF later, a digit too many, or a leading zero (46_container_codec.md R248,
R257). -/
def BadDecimal (max : Nat) (x : List Byte) (off : Nat) : Prop :=
  (∃ ds b, x = ds ++ [b] ∧ (∀ d ∈ ds, AsciiDigit d) ∧ ds.length ≤ max ∧ off = ds.length ∧
    (¬AsciiDigit b ∧ (b ≠ chLF ∨ ds = []) ∨ AsciiDigit b ∧ ds.length = max)) ∨
  ∃ ds, x = ds ++ [chLF] ∧ (∀ d ∈ ds, AsciiDigit d) ∧ 1 < ds.length ∧ ds.length ≤ max ∧ ds.head? = some chZero ∧ off = 0

/-- A header up to the end of its lines, with the count N (30_encoding.md R141, R142). -/
def headerStart (N : Nat) (lines : List (BitStr × Symbol)) : List Byte :=
  [chH, chS, chLF] ++ dec N ++ [chLF] ++ lines.flatMap (fun x => tableLine x.1 x.2)

/-- After fewer good lines than N, the errors of the next line: "H" where a line is due, a repeated symbol or code, a byte
that does not belong in the code field, no LF after the symbol (46_container_codec.md R249, R252, R255). -/
def HdrpLineErrors (f : Format) (s : State) (N : Nat) (lines : List (BitStr × Symbol)) : Prop :=
  (InputStarts s (headerStart N lines ++ [chH]) → HdrpEnds f s 0x14#8 (headerStart N lines).length) ∧
  (∀ c sym, 1 ≤ c.length → c.length ≤ 255 → sym ∈ lines.map Prod.snd ∨ c ∈ lines.map Prod.fst →
    InputStarts s (headerStart N lines ++ tableLine c sym) → HdrpEnds f s 0x15#8 (headerStart N lines).length) ∧
  (∀ (c : BitStr) b, c.length ≤ 255 → (c = [] → b ≠ chH) → (c ≠ [] → b ≠ chComma) →
    (c.length < 255 → b ≠ chZero ∧ b ≠ chOne) → InputStarts s (headerStart N lines ++ c.map bitChar ++ [b]) →
    HdrpEnds f s 0x13#8 ((headerStart N lines).length + c.length)) ∧
  ∀ (c : BitStr) sym b, 1 ≤ c.length → c.length ≤ 255 → b ≠ chLF →
    InputStarts s (headerStart N lines ++ c.map bitChar ++ [chComma, sym, b]) →
    HdrpEnds f s 0x13#8 ((headerStart N lines).length + c.length + 2)

/-- After exactly N good lines, the errors of what follows: a malformed bit-count line (extended), a further line (legacy),
a malformed "HE" line, a payload of another length than the bit count's (extended) (46_container_codec.md R252, R256,
R257). -/
def HdrpEndErrors (f : Format) (s : State) (N : Nat) (lines : List (BitStr × Symbol)) : Prop :=
  (f = .extended →
    (∀ x off, BadDecimal 10 x off → InputStarts s (headerStart N lines ++ x) →
      HdrpEnds f s 0x16#8 ((headerStart N lines).length + off)) ∧
    (∀ B, 2 ^ 32 ≤ B → B < 10 ^ 10 → InputStarts s (headerStart N lines ++ bitCountLine B) →
      HdrpEnds f s 0x16#8 (headerStart N lines).length) ∧
    ∀ B, B < 2 ^ 32 → InputStarts s (headerStart N lines ++ bitCountLine B) →
      (∀ b, b ≠ chH → InputStarts s (headerStart N lines ++ bitCountLine B ++ [b]) →
        HdrpEnds f s 0x17#8 (headerStart N lines ++ bitCountLine B).length) ∧
      (∀ b, b ≠ chE → InputStarts s (headerStart N lines ++ bitCountLine B ++ [chH, b]) →
        HdrpEnds f s 0x17#8 ((headerStart N lines ++ bitCountLine B).length + 1)) ∧
      (∀ b, b ≠ chLF → InputStarts s (headerStart N lines ++ bitCountLine B ++ [chH, chE, b]) →
        HdrpEnds f s 0x17#8 ((headerStart N lines ++ bitCountLine B).length + 2)) ∧
      (InputStarts s (headerOf lines (some B)) → ceil8 B ≠ s.inLen.toNat - (headerOf lines (some B)).length →
        HdrpEnds f s 0x18#8 (s.inLen.toNat - (headerOf lines (some B)).length))) ∧
  (f = .legacy →
    (∀ b, b = chZero ∨ b = chOne → InputStarts s (headerStart N lines ++ [b]) →
      HdrpEnds f s 0x14#8 (headerStart N lines).length) ∧
    (∀ b, b ≠ chH → b ≠ chZero → b ≠ chOne → InputStarts s (headerStart N lines ++ [b]) →
      HdrpEnds f s 0x17#8 (headerStart N lines).length) ∧
    (∀ b, b ≠ chE → InputStarts s (headerStart N lines ++ [chH, b]) →
      HdrpEnds f s 0x17#8 ((headerStart N lines).length + 1)) ∧
    ∀ b, b ≠ chLF → InputStarts s (headerStart N lines ++ [chH, chE, b]) →
      HdrpEnds f s 0x17#8 ((headerStart N lines).length + 2))

end Sys2Proof.Machine
end

