-- ==== Sys2Proof/Certificates/Slice0/Obligations.lean ====
section
/-! DEFINITION. The statements for the provers. Each docstring names the rule of spec/ it formalises. -/

open Sys2Proof Sys2Proof.Machine

/-! ## Encoding -/

/-- Decoding the word of a command gives the command back, for all fifteen (30_encoding.md R130 to R133). -/
def Obligations.EncodedCommandsDecodeBack : Prop :=
  ∀ i : Instr, i.wf = true ∧ decode (encode i) = .ok i

/-- 30_encoding.md R133: a word that matches a row under its mask is that row's command, chosen by bit 8, and the
fifteen encodings are all the words any command has. -/
def Obligations.LegalWordsAreTheEncodings : Prop :=
  (∀ w : Word,
    (w &&& 0xFFFFFFFF#32 = 0x00#32 → decode w = .ok .nop) ∧
    (w &&& 0xFFFFFFFF#32 = 0x01#32 → decode w = .ok .clear) ∧
    (w &&& 0xFFFFFFFF#32 = 0x10#32 → decode w = .ok .freq) ∧
    (w &&& 0xFFFFFFFF#32 = 0x20#32 → decode w = .ok .build) ∧
    (w &&& 0xFFFFFFFF#32 = 0x21#32 → decode w = .ok .assign) ∧
    (w &&& 0xFFFFFFFF#32 = 0x30#32 → decode w = .ok .encode) ∧
    (w &&& 0xFFFFFFFF#32 = 0x31#32 → decode w = .ok .decode) ∧
    (w &&& 0xFFFFFEFF#32 = 0x40#32 → decode w = .ok (if w.getLsbD 8 then .hdrwL else .hdrw)) ∧
    (w &&& 0xFFFFFEFF#32 = 0x41#32 → decode w = .ok (if w.getLsbD 8 then .hdrpL else .hdrp)) ∧
    (w &&& 0xFFFFFEFF#32 = 0x50#32 → decode w = .ok (if w.getLsbD 8 then .compressL else .compress)) ∧
    (w &&& 0xFFFFFEFF#32 = 0x51#32 → decode w = .ok (if w.getLsbD 8 then .decompressL else .decompress))) ∧
  ∀ (w : Word) (i : Instr), decode w = .ok i ↔ w = encode i

/-- A word is rejected exactly when it is illegal by 30_encoding.md R134, and each rejection has a name. Which name a word
gets that is illegal for more than one reason is the model's choice: a reserved bit first, then an unlisted OP, then L = 1
on a format-C OP (log entry 12). -/
def Obligations.RejectedWordsAreNamed : Prop :=
  ∀ w : Word,
    (w.extractLsb' 9 23 ≠ 0#23 → decode w = .error .reservedBitSet) ∧
    (w.extractLsb' 9 23 = 0#23 → w.extractLsb' 0 8 ∉ formatCOps → w.extractLsb' 0 8 ∉ formatCLOps →
      decode w = .error .unlistedOp) ∧
    (w.extractLsb' 9 23 = 0#23 → w.extractLsb' 0 8 ∈ formatCOps → w.getLsbD 8 = true →
      decode w = .error .formatBitOnFormatC) ∧
    (w.extractLsb' 9 23 = 0#23 → w.extractLsb' 0 8 ∈ formatCOps → w.getLsbD 8 = false → ∃ i, decode w = .ok i) ∧
    (w.extractLsb' 9 23 = 0#23 → w.extractLsb' 0 8 ∈ formatCLOps → ∃ i, decode w = .ok i)

/-- Words written out from the opcode map, one or two of each family, and the illegal words 40_control.md R164 names. -/
def Obligations.SpecWordsDecode : Prop :=
  decode 0x00000001#32 = .ok .clear ∧ decode 0x00000010#32 = .ok .freq ∧ decode 0x00000021#32 = .ok .assign ∧
  decode 0x00000031#32 = .ok .decode ∧ decode 0x00000140#32 = .ok .hdrwL ∧ decode 0x00000051#32 = .ok .decompress ∧
  decode 0x00000100#32 = .error .formatBitOnFormatC ∧ decode 0x00000130#32 = .error .formatBitOnFormatC ∧
  decode 0x80000020#32 = .error .reservedBitSet ∧ decode 0x000000FF#32 = .error .unlistedOp

/-! ## The step -/

/-- A step runs the decoded command: with the script at its end, or at a turn of the core; and the word `withFetchWord`
places is run by the very next step, on the state its acceptance leaves (40_control.md R160, R165). -/
def Obligations.StepRunsDecodedCommand : Prop :=
  (∀ (s : State) (w : Word) (i : Instr), s.pending = some w → decode w = .ok i →
    (s.script = [] → step s = exec i s) ∧
    (∀ rest, s.script = .core :: rest → step s = exec i { s with script := rest })) ∧
  ∀ (s : State) (nbits w : Nat) (i : Instr), decodeTableWord nbits w = some i →
    step (s.withFetchWord nbits w) = exec i (accept (BitVec.ofNat 32 (w % 2 ^ nbits)) s)

/-- 40_control.md R164: a pending word that is no command's completes with ERRCODE = 0x01 and ERR_INFO = the word, and
nothing but the completion state is written. -/
def Obligations.IllegalWordsCompleteWithError : Prop :=
  ∀ (s : State) (w : Word), (∀ i, w ≠ encode i) → s.pending = some w →
    (s.script = [] →
      step s = .next { s with errcode := 0x01#8, errInfo := w, pending := none, done := true }) ∧
    (∀ rest, s.script = .core :: rest →
      step s = .next { s with script := rest, errcode := 0x01#8, errInfo := w, pending := none, done := true })

/-- 40_control.md R160, "when pending = none the core has no step": the machine is stuck exactly when no event is left and
no command is pending. -/
def Obligations.OnlyAnIdleMachineIsStuck : Prop :=
  ∀ s : State, step s = .fault .noEnabledStep ↔ s.script = [] ∧ s.pending = none

/-- A command stops only at an IBUF byte below IN_LEN that nothing has written, and none is refused
(20_memory.md R104, R116, 60_exceptions.md R301). -/
def Obligations.CommandsStopOnlyAtUnwrittenInput : Prop :=
  ∀ (i : Instr) (s : State),
    (∀ f, exec i s = .fault f → ∃ j, j < s.inLen.toNat ∧ s.ibuf.read j = none ∧ f = .uninitByte .input j) ∧
    ∀ r, exec i s ≠ .refused r

/-- Every command, on every state whose input bytes are written, ends its step with BUSY = 0, DONE = 1 and a listed error
code, with ERR_INFO = 0 where there is no error (40_control.md R160, 60_exceptions.md R282, R283,
70_reset_and_hazards.md R331). -/
def Obligations.EveryCommandCompletes : Prop :=
  ∀ (i : Instr) (s : State),
    (s.inLen.toNat ≤ s.params.ibufBytes → ∀ j < s.inLen.toNat, s.ibuf.read j ≠ none) →
    ∃ t, exec i s = .next t ∧ t.pending = none ∧ t.done = true ∧ t.errcode ∈ listedCodes ∧
      (t.errcode = 0#8 → t.errInfo = 0#32)

/-! ## The register window -/

/-- 40_control.md R161: a write of any word to CMD while idle latches it, clears DONE, ERRCODE and ERR_INFO, and changes
nothing else; while busy it is ignored and sets WERR. -/
def Obligations.AcceptanceLatchesTheWord : Prop :=
  ∀ (s : State) (a : Offset) (v : Word) (rest : List Event), wordOffset a = 0x010 → s.script = .write a v :: rest →
    (s.pending = none → step s = .next { s with
      script := rest, cmd := v, pending := some v, done := false, errcode := 0#8, errInfo := 0#32 }) ∧
    (∀ u, s.pending = some u → step s = .next { s with script := rest, werr := true })

/-- The busy half of 20_memory.md R110: while BUSY = 1 a write to CTRL or STATUS takes effect as usual, and every other
write, mapped or not, is ignored and sets WERR. -/
def Obligations.BusyWritesAreDropped : Prop :=
  ∀ (s : State) (w : Word) (a : Offset) (v : Word) (rest : List Event),
    s.pending = some w → s.script = .write a v :: rest →
    (wordOffset a = 0x008 → step s = .next { s with script := rest, ctrlIE := v.getLsbD 0 }) ∧
    (wordOffset a = 0x00C → step s = .next { s with
      script := rest, done := s.done && !v.getLsbD 1, werr := s.werr && !v.getLsbD 3 }) ∧
    (wordOffset a ≠ 0x008 → wordOffset a ≠ 0x00C → step s = .next { s with script := rest, werr := true })

/-- Idle writes by the access rules of 10_state.md R32 to R46 and R55: each writable register takes its fields, STATUS
clears DONE and WERR where the bit is 1 and restores nothing, FREQ[s] takes the value and clears TREE_BUILT, and every
read-only register and every word of the node arena ignores the write. -/
def Obligations.IdleWritesReachTheirRegister : Prop :=
  ∀ (s : State) (a : Offset) (v : Word) (rest : List Event), s.pending = none → s.script = .write a v :: rest →
    (wordOffset a = 0x008 → step s = .next { s with script := rest, ctrlIE := v.getLsbD 0 }) ∧
    (wordOffset a = 0x00C → step s = .next { s with
      script := rest, done := s.done && !v.getLsbD 1, werr := s.werr && !v.getLsbD 3 }) ∧
    (wordOffset a = 0x01C → step s = .next { s with script := rest, inLen := v }) ∧
    (wordOffset a = 0x020 → step s = .next { s with script := rest, outLen := v }) ∧
    (wordOffset a = 0x024 → step s = .next { s with script := rest, payOff := v }) ∧
    (wordOffset a = 0x028 → step s = .next { s with script := rest, payBits := v }) ∧
    (wordOffset a = 0x02C → step s = .next { s with script := rest, decBV := v.getLsbD 0 }) ∧
    (wordOffset a ∈ [0x000, 0x004, 0x014, 0x018, 0x030, 0x034, 0x038, 0x03C, 0x040, 0x044, 0x048, 0x04C, 0x050] →
      step s = .next { s with script := rest }) ∧
    (∀ sym : Symbol, wordOffset a = 0x1000 + 4 * sym.toNat →
      ∃ F, step s = .next { s with script := rest, freq := F, treeBuilt := false } ∧
        tableGet F sym = v ∧ ∀ r, r ≠ sym → tableGet F r = freqAt s r) ∧
    (0x8000 ≤ wordOffset a → wordOffset a < 0x8000 + 16 * 511 → step s = .next { s with script := rest })

/-- Unmapped offsets and the reserved words 9 to 15 of a code entry read 0 and ignore a write while idle; a write to one
while busy only sets WERR (20_memory.md R102, R105). -/
def Obligations.UnmappedOffsetsAreInert : Prop :=
  ∀ (s : State) (a : Offset) (v : Word) (rest : List Event), s.params.wf →
    ((0x054 ≤ wordOffset a ∧ wordOffset a < 0x1000) ∨ (0x1400 ≤ wordOffset a ∧ wordOffset a < 0x4000) ∨
      (0x4000 ≤ wordOffset a ∧ wordOffset a < 0x8000 ∧ 0x24 ≤ wordOffset a % 64) ∨
      (0x9FF0 ≤ wordOffset a ∧ wordOffset a < 0x400000) ∨
      (0x400000 + 4 * s.params.ibufBytes ≤ wordOffset a ∧ wordOffset a < 0x800000) ∨
      0x800000 + 4 * s.params.obufBytes ≤ wordOffset a) →
    (s.pending = none → s.script = .read a :: rest →
      step s = .next { s with script := rest, reads := 0#32 :: s.reads }) ∧
    (s.pending = none → s.script = .write a v :: rest → step s = .next { s with script := rest }) ∧
    (∀ u, s.pending = some u → s.script = .write a v :: rest →
      step s = .next { s with script := rest, werr := true })

/-- The busy half of 20_memory.md R111: while BUSY = 1 nine registers read their value, STATUS with BUSY = 1 in bit 0 and
field by field (10_state.md R35, R63), and every other offset, mapped or not, reads a free value. It holds for every value of
the free value `Config.busyRead` (log entry 3). -/
def Obligations.BusyReadsAreExemptOrFree : Prop :=
  ∀ (s : State) (w : Word) (a : Offset) (rest : List Event), s.pending = some w → s.script = .read a :: rest →
    (wordOffset a = 0x000 → step s = .next { s with script := rest, reads := 0x48554646#32 :: s.reads }) ∧
    (wordOffset a = 0x004 → step s = .next { s with script := rest, reads := 0x00000001#32 :: s.reads }) ∧
    (wordOffset a = 0x008 →
      step s = .next { s with script := rest, reads := (if s.ctrlIE then 1#32 else 0#32) :: s.reads }) ∧
    (wordOffset a = 0x00C → ∃ v : Word, step s = .next { s with script := rest, reads := v :: s.reads } ∧
      v.getLsbD 0 = true ∧ v.getLsbD 1 = s.done ∧ v.getLsbD 2 = (s.errcode != 0#8) ∧ v.getLsbD 3 = s.werr ∧
      v.getLsbD 4 = s.treeBuilt ∧ v.getLsbD 5 = s.rootValid ∧ ∀ i, 6 ≤ i → v.getLsbD i = false) ∧
    (wordOffset a = 0x010 → step s = .next { s with script := rest, reads := s.cmd :: s.reads }) ∧
    (wordOffset a = 0x014 → step s = .next { s with script := rest, reads := s.errcode.zeroExtend 32 :: s.reads }) ∧
    (wordOffset a = 0x018 → step s = .next { s with script := rest, reads := s.errInfo :: s.reads }) ∧
    (wordOffset a = 0x04C →
      step s = .next { s with script := rest, reads := BitVec.ofNat 32 s.params.ibufBytes :: s.reads }) ∧
    (wordOffset a = 0x050 →
      step s = .next { s with script := rest, reads := BitVec.ofNat 32 s.params.obufBytes :: s.reads }) ∧
    (wordOffset a ∉ [0x000, 0x004, 0x008, 0x00C, 0x010, 0x014, 0x018, 0x04C, 0x050] →
      step s = .next { s with script := rest, reads := Config.busyRead s.draws :: s.reads, draws := s.draws + 1 })

/-- Idle reads of the registers at 0x000 to 0x050, bit by bit where a register is made of fields, of FREQ[s], and of words 0
to 8 of CODE[s], where word w holds bits 32(w−1) to 32(w−1)+31 of the code value (10_state.md R33 to R57, 20_memory.md
R107). -/
def Obligations.IdleRegisterReads : Prop :=
  ∀ (s : State) (a : Offset) (rest : List Event), s.pending = none → s.script = .read a :: rest →
    (∀ sym : Symbol, wordOffset a = 0x1000 + 4 * sym.toNat →
      step s = .next { s with script := rest, reads := freqAt s sym :: s.reads }) ∧
    (∀ (sym : Symbol) (w : Nat), w ≤ 8 → wordOffset a = 0x4000 + 64 * sym.toNat + 4 * w →
      ∃ v : Word, step s = .next { s with script := rest, reads := v :: s.reads } ∧
        (w = 0 → v.getLsbD 31 = (codeAt s sym).valid ∧ v.toNat % 2 ^ 31 = (codeAt s sym).len.toNat) ∧
        (1 ≤ w → ∀ i < 32, v.getLsbD i = (codeAt s sym).bits.getLsbD (32 * (w - 1) + i))) ∧
    (wordOffset a < 0x054 → ∃ v : Word, step s = .next { s with script := rest, reads := v :: s.reads } ∧
      (wordOffset a = 0x000 → v = 0x48554646#32) ∧
      (wordOffset a = 0x004 → v = 0x00000001#32) ∧
      (wordOffset a = 0x008 → v.getLsbD 0 = s.ctrlIE ∧ ∀ i, 1 ≤ i → v.getLsbD i = false) ∧
      (wordOffset a = 0x00C → v.getLsbD 0 = false ∧ v.getLsbD 1 = s.done ∧ v.getLsbD 2 = (s.errcode != 0#8) ∧
        v.getLsbD 3 = s.werr ∧ v.getLsbD 4 = s.treeBuilt ∧ v.getLsbD 5 = s.rootValid ∧
        ∀ i, 6 ≤ i → v.getLsbD i = false) ∧
      (wordOffset a = 0x010 → v = s.cmd) ∧
      (wordOffset a = 0x014 → v.toNat = s.errcode.toNat) ∧
      (wordOffset a = 0x018 → v = s.errInfo) ∧
      (wordOffset a = 0x01C → v = s.inLen) ∧
      (wordOffset a = 0x020 → v = s.outLen) ∧
      (wordOffset a = 0x024 → v = s.payOff) ∧
      (wordOffset a = 0x028 → v = s.payBits) ∧
      (wordOffset a = 0x02C → v.getLsbD 0 = s.decBV ∧ ∀ i, 1 ≤ i → v.getLsbD i = false) ∧
      (wordOffset a = 0x030 → v = s.encBits) ∧
      (wordOffset a = 0x034 → v = s.hdrLen) ∧
      (wordOffset a = 0x038 → v.toNat = (allSymbols.filter (fun sym => (codeAt s sym).valid)).length) ∧
      (wordOffset a = 0x03C → v.toNat = s.nodeCnt.toNat) ∧
      (wordOffset a = 0x040 → v.toNat = s.root.toNat) ∧
      (wordOffset a = 0x044 → v.toNat = s.rootW.toNat % 2 ^ 32) ∧
      (wordOffset a = 0x048 → v.toNat = s.rootW.toNat / 2 ^ 32) ∧
      (wordOffset a = 0x04C → v = BitVec.ofNat 32 s.params.ibufBytes) ∧
      (wordOffset a = 0x050 → v = BitVec.ofNat 32 s.params.obufBytes))

/-- A buffer byte through the window (20_memory.md R101, R106, R116), whatever event comes next: an idle write to slot i stores
the low byte in byte i and changes no other byte or register, an idle read of a written byte returns it zero-extended and
changes nothing else, and an idle read of a byte nothing has written stops with the model's fault (log entry 8). -/
def Obligations.BufferBytesThroughTheWindow : Prop :=
  ∀ (s : State) (a : Offset) (i : Nat) (v : Word) (rest : List Event), s.params.wf → s.pending = none →
    (i < s.params.ibufBytes → wordOffset a = 0x400000 + 4 * i →
      (s.script = .write a v :: rest →
        ∃ m, step s = .next { s with ibuf := m, script := rest } ∧ m.read i = some (v.extractLsb' 0 8) ∧
          SameOutside s.ibuf m i 1) ∧
      (∀ b, s.ibuf.read i = some b → s.script = .read a :: rest →
        step s = .next { s with script := rest, reads := b.zeroExtend 32 :: s.reads }) ∧
      (s.ibuf.read i = none → s.script = .read a :: rest → step s = .fault (.uninitByte .input i))) ∧
    (i < s.params.obufBytes → wordOffset a = 0x800000 + 4 * i →
      (s.script = .write a v :: rest →
        ∃ m, step s = .next { s with obuf := m, script := rest } ∧ m.read i = some (v.extractLsb' 0 8) ∧
          SameOutside s.obuf m i 1) ∧
      (∀ b, s.obuf.read i = some b → s.script = .read a :: rest →
        step s = .next { s with script := rest, reads := b.zeroExtend 32 :: s.reads }) ∧
      (s.obuf.read i = none → s.script = .read a :: rest → step s = .fault (.uninitByte .output i)))

/-- 10_state.md R58: a write to word 0 of a code entry sets the length, and the valid bit only for a non-empty code; a write
to word w of 1 to 8 stores the 32 bits as written, in bits 32(w−1) to 32(w−1)+31 of the code value (R57), and leaves the other
bits, the length and the valid bit; neither touches another entry, TREE_BUILT or anything else. -/
def Obligations.CodeEntryWriteRule : Prop :=
  ∀ (s : State) (a : Offset) (sym : Symbol) (w : Nat) (v : Word) (rest : List Event),
    s.pending = none → w ≤ 8 → wordOffset a = 0x4000 + 64 * sym.toNat + 4 * w → s.script = .write a v :: rest →
    ∃ T, step s = .next { s with script := rest, code := T } ∧ (∀ r, r ≠ sym → tableGet T r = codeAt s r) ∧
      (w = 0 → tableGet T sym =
        ⟨v.getLsbD 31 && v.extractLsb' 0 8 != 0#8, v.extractLsb' 0 8, (codeAt s sym).bits⟩) ∧
      (1 ≤ w → (tableGet T sym).valid = (codeAt s sym).valid ∧ (tableGet T sym).len = (codeAt s sym).len ∧
        (∀ i < 32, (tableGet T sym).bits.getLsbD (32 * (w - 1) + i) = v.getLsbD i) ∧
        ∀ j, j < 32 * (w - 1) ∨ 32 * w ≤ j → (tableGet T sym).bits.getLsbD j = (codeAt s sym).bits.getLsbD j)

/-- 10_state.md R61, R62: an idle read of a word of NODE[n] returns 0 for n at or beyond NODE_CNT, whatever the arena holds,
and the entry's fields for n below it. -/
def Obligations.NodeReadsStopAtNodeCount : Prop :=
  ∀ (s : State) (n w : Nat) (rest : List Event), s.pending = none → n < 511 → w < 4 →
    s.script = readAt (0x8000 + 16 * n + 4 * w) :: rest →
    ∃ v : Word, step s = .next { s with script := rest, reads := v :: s.reads } ∧
      (s.nodeCnt.toNat ≤ n → v = 0#32) ∧
      (n < s.nodeCnt.toNat →
        (w = 0 → v.getLsbD 31 = (arenaGet s.node n).internal ∧ v.toNat % 2 ^ 31 = (arenaGet s.node n).symbol.toNat) ∧
        (w = 1 → v.toNat = (arenaGet s.node n).weight.toNat % 2 ^ 32) ∧
        (w = 2 → v.toNat = (arenaGet s.node n).weight.toNat / 2 ^ 32) ∧
        (w = 3 → v.toNat = (arenaGet s.node n).left.toNat + 2 ^ 16 * (arenaGet s.node n).right.toNat))

/-- 10_state.md R62: no command reads an arena entry at or beyond NODE_CNT. Two states of the invariant that differ only
there end every command alike, and again differ only there. -/
def Obligations.HiddenNodesNeverMatter : Prop :=
  ∀ (i : Instr) (s t : State) (A : Vector Node 511), s.Inv →
    (∀ n < s.nodeCnt.toNat, arenaGet A n = arenaGet s.node n) → exec i s = .next t →
    ∃ B, exec i { s with node := A } = .next { t with node := B } ∧
      ∀ n < t.nodeCnt.toNat, arenaGet B n = arenaGet t.node n

/-- 60_exceptions.md R290: the interrupt is the level DONE ∧ IE. It rises only when a command completes with IE = 1 or when
IE is set while DONE = 1, and falls only when the host clears DONE, when the host clears IE, when a command is accepted, or
at a reset (70_reset_and_hazards.md R310). -/
def Obligations.InterruptFollowsDoneAndEnable : Prop :=
  ∀ s t : State, step s = .next t →
    (s.irq = true ↔ s.done = true ∧ s.ctrlIE = true) ∧
    (s.irq = false → t.irq = true →
      (s.ctrlIE = true ∧ s.pending ≠ none ∧ t.pending = none ∧ t.done = true) ∨
      ∃ a v rest, s.script = .write a v :: rest ∧ wordOffset a = 0x008 ∧ v.getLsbD 0 = true ∧ s.done = true) ∧
    (s.irq = true → t.irq = false →
      (∃ a v rest, s.script = .write a v :: rest ∧
        ((wordOffset a = 0x00C ∧ v.getLsbD 1 = true) ∨ (wordOffset a = 0x008 ∧ v.getLsbD 0 = false) ∨
          (wordOffset a = 0x010 ∧ s.pending = none ∧ t.pending = some v))) ∨
      ∃ rest, s.script = .reset :: rest)

/-- 20_memory.md R113: a host read, idle or busy, changes no register, table or buffer; only the host's record of values read
and the model's draw counter move. -/
def Obligations.HostReadsChangeNothing : Prop :=
  ∀ (s t : State) (a : Offset) (rest : List Event), s.script = .read a :: rest → step s = .next t →
    ∃ v d, t = { s with script := rest, reads := v :: s.reads, draws := d }

/-- 20_memory.md R121: while a command is pending, no host access changes the command or anything it reads, so it executes on
the inputs that existed at its acceptance. -/
def Obligations.BusyInputsAreFrozen : Prop :=
  ∀ (s t : State) (w : Word) (e : Event) (rest : List Event), s.pending = some w → s.script = e :: rest →
    (∃ a v, e = .write a v) ∨ (∃ a, e = .read a) → step s = .next t →
    ∃ ie d we rs n, t = { s with ctrlIE := ie, done := d, werr := we, reads := rs, draws := n, script := rest }

/-! ## Reset and invariants -/

/-- 70_reset_and_hazards.md R310, for every choice of sizes (the contents of the node arena are unspecified there and not
stated). -/
def Obligations.ResetHoldsItsValues : Prop :=
  ∀ p : Params,
    (State.resetWith p).ctrlIE = false ∧ (State.resetWith p).done = false ∧ (State.resetWith p).werr = false ∧
    (State.resetWith p).treeBuilt = false ∧ (State.resetWith p).rootValid = false ∧
    (State.resetWith p).busy = false ∧ (State.resetWith p).err = false ∧ (State.resetWith p).cmd = 0#32 ∧
    (State.resetWith p).errcode = 0#8 ∧ (State.resetWith p).errInfo = 0#32 ∧ (State.resetWith p).inLen = 0#32 ∧
    (State.resetWith p).outLen = 0#32 ∧ (State.resetWith p).payOff = 0#32 ∧ (State.resetWith p).payBits = 0#32 ∧
    (State.resetWith p).encBits = 0#32 ∧ (State.resetWith p).hdrLen = 0#32 ∧ (State.resetWith p).decBV = false ∧
    (State.resetWith p).nodeCnt = 0#9 ∧ (State.resetWith p).root = 0#9 ∧ (State.resetWith p).rootW = 0#40 ∧
    regWord (State.resetWith p) .nsym = 0#32 ∧ regWord (State.resetWith p) .id = 0x48554646#32 ∧
    regWord (State.resetWith p) .version = 0x00000001#32 ∧
    regWord (State.resetWith p) .ibufSize = BitVec.ofNat 32 p.ibufBytes ∧
    regWord (State.resetWith p) .obufSize = BitVec.ofNat 32 p.obufBytes ∧
    (∀ sym, freqAt (State.resetWith p) sym = 0#32) ∧
    (∀ sym, codeAt (State.resetWith p) sym = ⟨false, 0#8, 0#256⟩) ∧
    (∀ i, (State.resetWith p).ibuf.read i = none) ∧ (∀ i, (State.resetWith p).obuf.read i = none) ∧
    (State.resetWith p).irq = false ∧ State.reset = State.resetWith ⟨65536, 131072⟩

/-- 70_reset_and_hazards.md R312: reset, idle or busy, puts every piece of state into its reset value; a pending command is
discarded without setting DONE. Whatever the node arena then holds is unspecified (R310), so it is not stated. That the
outside world's own record (script, reads, draws) stays is the model's (log entries 1 and 3). -/
def Obligations.ResetInputReplacesState : Prop :=
  ∀ (s : State) (rest : List Event), s.script = .reset :: rest →
    (∃ N, step s = .next { State.resetWith s.params with
      node := N, script := rest, reads := s.reads, draws := s.draws }) ∧
    (State.resetWith s.params).pending = none ∧ (State.resetWith s.params).done = false

/-- The reset state meets the invariant, for every legal choice of sizes. -/
def Obligations.ResetSatisfiesInvariant : Prop :=
  ∀ p : Params, p.wf → (State.resetWith p).Inv

/-- Every step keeps the invariant: legal sizes, canonical buffers within their sizes, BUSY and DONE never both 1
(10_state.md R39), no error recorded while busy, only listed error codes, no valid empty code (R58), TREE_BUILT only with
the tree of the current FREQ (R52), zero tree registers without a root (R50, R51), NODE_CNT and ROOT inside the arena. -/
def Obligations.StepKeepsInvariant : Prop :=
  ∀ s t : State, s.Inv → step s = .next t → t.Inv

/-- TREE_BUILT is set only by a core step of BUILD or of a COMPRESS, which completes in that step (10_state.md R35,
70_reset_and_hazards.md R325). -/
def Obligations.OnlyBuildSetsTreeBuilt : Prop :=
  ∀ s t : State, step s = .next t → s.treeBuilt = false → t.treeBuilt = true →
    (s.script = [] ∨ ∃ rest, s.script = .core :: rest) ∧ t.pending = none ∧ t.done = true ∧
    ∃ w, s.pending = some w ∧ (w = encode .build ∨ w = encode .compress ∨ w = encode .compressL)

/-! ## NOP, CLEAR, FREQ -/

/-- 40_control.md R163: NOP, the word 0, completes and changes nothing else. -/
def Obligations.NopOnlyCompletes : Prop :=
  encode .nop = 0x00000000#32 ∧
  ∀ s : State, exec .nop s = .next { s with errcode := 0#8, errInfo := 0#32, pending := none, done := true }

/-- 40_control.md R162: CLEAR, the word 1, returns the working data to their reset values and keeps IBUF, OBUF, IN_LEN, CTRL, CMD, WERR
and the node entries. -/
def Obligations.ClearReturnsWorkingData : Prop :=
  encode .clear = 0x00000001#32 ∧
  ∀ s : State, ∃ F C, exec .clear s = .next { s with
      freq := F, code := C, nodeCnt := 0#9, root := 0#9, rootW := 0#40, treeBuilt := false, rootValid := false,
      outLen := 0#32, payOff := 0#32, payBits := 0#32, decBV := false, encBits := 0#32, hdrLen := 0#32,
      errcode := 0#8, errInfo := 0#32, pending := none, done := true } ∧
    (∀ sym, tableGet F sym = 0#32) ∧ ∀ sym, tableGet C sym = ⟨false, 0#8, 0#256⟩

/-- 41_frequency.md R170, R171: FREQ counts each byte value of IBUF[0..IN_LEN−1], discarding earlier counts, clears
TREE_BUILT and changes nothing else; a too large IN_LEN is E_RANGE before anything is written. -/
def Obligations.FreqCountsEveryByte : Prop :=
  (∀ (s : State) (bs : List Byte), IbufHolds s bs → bs.length ≤ s.params.ibufBytes →
    ∃ F, exec .freq s = .next { s with
        freq := F, treeBuilt := false, errcode := 0#8, errInfo := 0#32, pending := none, done := true } ∧
      ∀ sym, tableGet F sym = BitVec.ofNat 32 (bs.count sym)) ∧
  ∀ s : State, s.params.ibufBytes < s.inLen.toNat → RaisesOnly (exec .freq s) s .range s.inLen.toNat

/-- 41_frequency.md R172, R173: after FREQ the counts sum to IN_LEN, and a count is positive exactly for the symbols that
occur. -/
def Obligations.FreqConservesCounts : Prop :=
  ∀ (s : State) (bs : List Byte), s.params.wf → IbufHolds s bs → bs.length ≤ s.params.ibufBytes →
    ∃ t, exec .freq s = .next t ∧ totalCount t.freq = s.inLen.toNat ∧ ∀ sym, 0 < (freqAt t sym).toNat ↔ sym ∈ bs

/-! ## BUILD -/

/-- 42_tree_builder.md R182, under the order of R181: extraction answers on every non-empty arbiter, removes one entry and
no other, and that entry is least by weight and then by index. -/
def Obligations.ArbiterExtractsLeast : Prop :=
  ∀ pq : List PQEntry,
    (extractMin pq = none ↔ pq = []) ∧
    ∀ e rest, extractMin pq = some (e, rest) →
      (e :: rest).Perm pq ∧ ∀ x ∈ pq, e.weight < x.weight ∨ (e.weight = x.weight ∧ e.index ≤ x.index)

/-- 42_tree_builder.md R184 with R186, R187, R188 and R190: BUILD completes on every state. With k present symbols it places
2k − 1 nodes (none for k = 0), the root is the last, its weight is the sum of all counts, ROOT_VALID says whether there is
one, and nothing but the tree changes. -/
def Obligations.BuildCountsNodesAndWeighsRoot : Prop :=
  ∀ s : State, ∃ t, exec .build s = .next t ∧
    t = { s with
      node := t.node, nodeCnt := t.nodeCnt, root := t.root, rootW := t.rootW, rootValid := t.rootValid,
      treeBuilt := true, errcode := 0#8, errInfo := 0#32, pending := none, done := true } ∧
    t.nodeCnt.toNat = 2 * presentCount s.freq - 1 ∧ t.root.toNat = 2 * presentCount s.freq - 2 ∧
    t.rootW.toNat = totalCount s.freq ∧ (t.rootValid = true ↔ presentCount s.freq ≠ 0) ∧
    ∀ n, t.nodeCnt.toNat ≤ n → arenaGet t.node n = arenaGet s.node n

/-- 42_tree_builder.md R186: the leaf of a present symbol stands at the index that counts the present symbols below it, with
the symbol and its count. -/
def Obligations.BuildPlacesLeaves : Prop :=
  ∀ (s t : State) (sym : Symbol), exec .build s = .next t → freqAt s sym ≠ 0#32 →
    arenaGet t.node ((allSymbols.take sym.toNat).countP (fun r => freqAt s r != 0#32)) =
      ⟨false, sym, (freqAt s sym).zeroExtend 40, 0#9, 0#9⟩

/-- 42_tree_builder.md R184 and R190: above the k leaves every node is internal, with two different children of smaller
index and the sum of their weights; the left child is the least node left over by weight and then by index, the right child
the least after it (R181, R190 point 5); and every node but the root is the child of exactly one. -/
def Obligations.BuildMergesInternalNodes : Prop :=
  ∀ s t : State, exec .build s = .next t →
    (∀ n, presentCount s.freq ≤ n → n < t.nodeCnt.toNat →
      (arenaGet t.node n).internal = true ∧ (arenaGet t.node n).symbol = 0#8 ∧
      (arenaGet t.node n).left.toNat < n ∧ (arenaGet t.node n).right.toNat < n ∧
      (arenaGet t.node n).weight.toNat = (arenaGet t.node (arenaGet t.node n).left.toNat).weight.toNat +
        (arenaGet t.node (arenaGet t.node n).right.toNat).weight.toNat ∧
      NodeBefore t.node (arenaGet t.node n).left.toNat (arenaGet t.node n).right.toNat ∧
      ∀ m, m < n → m ≠ (arenaGet t.node n).left.toNat → m ≠ (arenaGet t.node n).right.toNat →
        (∀ n', presentCount s.freq ≤ n' → n' < n → ¬ChildOf t.node m n') →
        NodeBefore t.node (arenaGet t.node n).right.toNat m) ∧
    ∀ m, m < t.root.toNat → ∃ n, (presentCount s.freq ≤ n ∧ n < t.nodeCnt.toNat ∧ ChildOf t.node m n) ∧
      ∀ n', presentCount s.freq ≤ n' → n' < t.nodeCnt.toNat → ChildOf t.node m n' → n' = n

/-! ## ASSIGN -/

/-- 43_code_assigner.md R201, 70_reset_and_hazards.md R325: ASSIGN without a current tree is E_SEQ and changes nothing but the
completion state; a successful FREQ and a CLEAR leave no current tree. -/
def Obligations.AssignNeedsCurrentTree : Prop :=
  (∀ s : State, s.treeBuilt = false → RaisesOnly (exec .assign s) s .seq 0) ∧
  (∀ s t : State, exec .freq s = .next t → t.errcode = 0#8 → RaisesOnly (exec .assign t) t .seq 0) ∧
  ∀ s t : State, exec .clear s = .next t → RaisesOnly (exec .assign t) t .seq 0

/-- 43_code_assigner.md R200 to R203: on a current tree ASSIGN completes and changes only CODE. Without a root no symbol has a
code; a root leaf's symbol has the code "0" and no other has one; below an internal root each leaf's symbol has exactly
the leaf's path, and a symbol that is no leaf has none. -/
def Obligations.AssignWritesLeafPaths : Prop :=
  ∀ s : State, s.Inv → s.treeBuilt = true →
    ∃ T, exec .assign s = .next { s with
        code := T, errcode := 0#8, errInfo := 0#32, pending := none, done := true } ∧
      (s.rootValid = false → ∀ sym, tableGet T sym = CodeEntry.empty) ∧
      (s.rootValid = true → (arenaGet s.node s.root.toNat).internal = false →
        tableGet T (arenaGet s.node s.root.toNat).symbol = ⟨true, 1#8, 0#256⟩ ∧
        ∀ sym, sym ≠ (arenaGet s.node s.root.toNat).symbol → tableGet T sym = CodeEntry.empty) ∧
      (s.rootValid = true → (arenaGet s.node s.root.toNat).internal = true →
        (∀ m c, PathTo s.node s.root.toNat m c → (arenaGet s.node m).internal = false →
          tableGet T (arenaGet s.node m).symbol =
            ⟨true, BitVec.ofNat 8 c.length, BitVec.ofNat 256 (bitsVal c)⟩) ∧
        ∀ sym, (∀ m c, PathTo s.node s.root.toNat m c → (arenaGet s.node m).internal = false →
          (arenaGet s.node m).symbol ≠ sym) → tableGet T sym = CodeEntry.empty)

/-- 43_code_assigner.md R204, points 1 to 3: after a BUILD, ASSIGN gives a code to exactly the present symbols, NSYM is their
number, every code has 1 to 255 bits, and the codes are prefix-free. -/
def Obligations.AssignedCodesArePrefixFree : Prop :=
  ∀ s : State, s.Inv → s.treeBuilt = true →
    ∃ t, exec .assign s = .next t ∧ Completed t ∧
      (∀ sym, (codeAt t sym).valid = true ↔ freqAt s sym ≠ 0#32) ∧ nsym t.code = presentCount s.freq ∧
      (∀ sym, (codeAt t sym).valid = true → 1 ≤ (codeAt t sym).len.toNat ∧ (codeAt t sym).len.toNat ≤ 255) ∧
      PrefixFree t.code

/-- 43_code_assigner.md R204, point 4: the codes of a tree of two or more leaves fill the code space, and a single code "0"
half of it. -/
def Obligations.AssignedCodesFillCodeSpace : Prop :=
  ∀ s t : State, s.Inv → s.treeBuilt = true → exec .assign s = .next t →
    (2 ≤ presentCount s.freq → codeSpace t.code = 2 ^ 255) ∧ (presentCount s.freq = 1 → codeSpace t.code = 2 ^ 254)

/-! ## ENCODE -/

/-- 44_bit_encoder.md R212 to R215: with every input byte coded and the payload fitting, ENCODE appends at OBUF[OUT_LEN] the
concatenated codes, most significant bit first and zero-padded, advances OUT_LEN, records the bit count, and changes no
other byte or register. -/
def Obligations.EncodePacksCodes : Prop :=
  ∀ (s : State) (bs : List Byte), s.params.wf → IbufHolds s bs → bs.length ≤ s.params.ibufBytes → Covers s.code bs →
    s.outLen.toNat + ceil8 (codeBits s.code bs).length ≤ s.params.obufBytes →
    ∃ t, exec .encode s = .next t ∧
      t = { s with
        obuf := t.obuf, outLen := t.outLen, encBits := t.encBits,
        errcode := 0#8, errInfo := 0#32, pending := none, done := true } ∧
      t.outLen.toNat = s.outLen.toNat + ceil8 (codeBits s.code bs).length ∧
      t.encBits.toNat = (codeBits s.code bs).length ∧
      BitsAt t.obuf s.outLen.toNat (codeBits s.code bs) ∧
      (∀ k, (codeBits s.code bs).length ≤ k → k < 8 * ceil8 (codeBits s.code bs).length →
        (t.obuf.read (s.outLen.toNat + k / 8)).map (fun b => payloadBit b k) = some false) ∧
      SameOutside s.obuf t.obuf s.outLen.toNat (ceil8 (codeBits s.code bs).length)

/-- 44_bit_encoder.md R211: ENCODE's checks in order, before anything is written, each leaving all but the completion state:
IN_LEN, OUT_LEN, the lowest input byte without a code, the payload that does not fit. -/
def Obligations.EncodeChecksInOrder : Prop :=
  ∀ s : State,
    (s.params.ibufBytes < s.inLen.toNat → RaisesOnly (exec .encode s) s .range s.inLen.toNat) ∧
    (s.inLen.toNat ≤ s.params.ibufBytes → s.params.obufBytes < s.outLen.toNat →
      RaisesOnly (exec .encode s) s .range s.outLen.toNat) ∧
    (s.inLen.toNat ≤ s.params.ibufBytes → s.outLen.toNat ≤ s.params.obufBytes →
      (∀ i b, i < s.inLen.toNat → s.ibuf.read i = some b → (codeAt s b).valid = false →
        (∀ j < i, ∃ c, s.ibuf.read j = some c ∧ (codeAt s c).valid = true) →
        RaisesOnly (exec .encode s) s .noCode (2 ^ 8 * i + b.toNat)) ∧
      (∀ bs, IbufHolds s bs → Covers s.code bs →
        s.params.obufBytes < s.outLen.toNat + ceil8 (codeBits s.code bs).length →
        RaisesOnly (exec .encode s) s .obufOvf (s.outLen.toNat + ceil8 (codeBits s.code bs).length)))

/-- 30_encoding.md R146, 20_memory.md R108: the payload of a bit sequence has ceil8 bytes, bit k of the sequence is bit
7 − (k mod 8) of byte k div 8, and the remaining low-order bits of the last byte are 0. -/
def Obligations.PackIsMostSignificantFirst : Prop :=
  ∀ S : BitStr, (pack S).length = ceil8 S.length ∧
    (∀ k < S.length, ((pack S)[k / 8]?).map (fun b => b.getLsbD (7 - k % 8)) = S[k]?) ∧
    ∀ k, S.length ≤ k → k < 8 * ceil8 S.length →
      ((pack S)[k / 8]?).map (fun b => b.getLsbD (7 - k % 8)) = some false

/-! ## DECODE -/

/-- 45_bit_decoder.md R227, R228, R232: for every code table, where the payload bits to consume are the codes of `parts`, each
the first match at its place, and nothing is left over, DECODE writes their symbols to OBUF[0..], sets OUT_LEN to their
number, and changes no other byte or register. Under a prefix-free table it does so for the codes of any message. -/
def Obligations.DecodeRecoversMessage : Prop :=
  (∀ (s : State) (parts : List (BitStr × Symbol)), s.params.wf → (∀ x ∈ parts, FirstMatch s.code x) →
    parts.length ≤ s.params.obufBytes → s.inLen.toNat ≤ s.params.ibufBytes → s.payOff.toNat ≤ s.inLen.toNat →
    (parts.flatMap Prod.fst).length ≤ 8 * (s.inLen.toNat - s.payOff.toNat) →
    (parts.flatMap Prod.fst).length = (if s.decBV then s.payBits.toNat else 8 * (s.inLen.toNat - s.payOff.toNat)) →
    BitsAt s.ibuf s.payOff.toNat (parts.flatMap Prod.fst) →
    ∃ m, exec .decode s = .next { s with
        obuf := m, outLen := BitVec.ofNat 32 parts.length,
        errcode := 0#8, errInfo := 0#32, pending := none, done := true } ∧
      BytesAt m 0 (parts.map Prod.snd) ∧ SameOutside s.obuf m 0 parts.length) ∧
  ∀ (s : State) (M : List Byte), s.params.wf → PrefixFree s.code →
    (∀ sym, (codeAt s sym).valid = true → (codeAt s sym).len ≠ 0#8) → Covers s.code M → M.length ≤ s.params.obufBytes →
    s.inLen.toNat ≤ s.params.ibufBytes → s.payOff.toNat ≤ s.inLen.toNat →
    (codeBits s.code M).length ≤ 8 * (s.inLen.toNat - s.payOff.toNat) →
    (codeBits s.code M).length = (if s.decBV then s.payBits.toNat else 8 * (s.inLen.toNat - s.payOff.toNat)) →
    BitsAt s.ibuf s.payOff.toNat (codeBits s.code M) →
    ∃ m, exec .decode s = .next { s with
        obuf := m, outLen := BitVec.ofNat 32 M.length,
        errcode := 0#8, errInfo := 0#32, pending := none, done := true } ∧
      BytesAt m 0 M ∧ SameOutside s.obuf m 0 M.length

/-- 45_bit_decoder.md R226: DECODE's range checks in order, each leaving all but the completion state. -/
def Obligations.DecodeChecksInOrder : Prop :=
  ∀ s : State,
    (s.params.ibufBytes < s.inLen.toNat → RaisesOnly (exec .decode s) s .range s.inLen.toNat) ∧
    (s.inLen.toNat ≤ s.params.ibufBytes → s.inLen.toNat < s.payOff.toNat →
      RaisesOnly (exec .decode s) s .range s.payOff.toNat) ∧
    (s.inLen.toNat ≤ s.params.ibufBytes → s.payOff.toNat ≤ s.inLen.toNat → s.decBV = true →
      8 * (s.inLen.toNat - s.payOff.toNat) < s.payBits.toNat → RaisesOnly (exec .decode s) s .range s.payBits.toNat)

/-- 45_bit_decoder.md R229, R230, for every code table: where the payload bits to consume are the codes of `parts`, each the
first match at its place, followed by bits `left` no beginning of which is a code, DECODE ends with E_INCOMPLETE, ERR_INFO
the number of bits left over but at most 255. Where the match after a full OBUF comes, it ends with E_OBUF_OVF (R227). In
both cases the symbols emitted before are in OBUF and counted by OUT_LEN, and nothing else changes (60_exceptions.md R284). -/
def Obligations.DecodeReportsIncompleteCode : Prop :=
  ∀ (s : State) (parts : List (BitStr × Symbol)) (left : BitStr), s.params.wf → (∀ x ∈ parts, FirstMatch s.code x) →
    s.inLen.toNat ≤ s.params.ibufBytes → s.payOff.toNat ≤ s.inLen.toNat →
    (parts.flatMap Prod.fst ++ left).length ≤ 8 * (s.inLen.toNat - s.payOff.toNat) →
    (parts.flatMap Prod.fst ++ left).length =
      (if s.decBV then s.payBits.toNat else 8 * (s.inLen.toNat - s.payOff.toNat)) →
    BitsAt s.ibuf s.payOff.toNat (parts.flatMap Prod.fst ++ left) →
    (parts.length ≤ s.params.obufBytes → left ≠ [] →
      (∀ d sym, d <+: left → d ≠ [] → ¬HasCode s.code sym d) →
      ∃ m, exec .decode s = .next { s with
          obuf := m, outLen := BitVec.ofNat 32 parts.length,
          errcode := 0x20#8, errInfo := BitVec.ofNat 32 (min left.length 255), pending := none, done := true } ∧
        BytesAt m 0 (parts.map Prod.snd) ∧ SameOutside s.obuf m 0 parts.length) ∧
    (parts.length = s.params.obufBytes + 1 →
      ∃ m, exec .decode s = .next { s with
          obuf := m, outLen := BitVec.ofNat 32 s.params.obufBytes,
          errcode := 0x05#8, errInfo := BitVec.ofNat 32 (s.params.obufBytes + 1), pending := none, done := true } ∧
        BytesAt m 0 ((parts.map Prod.snd).take s.params.obufBytes) ∧ SameOutside s.obuf m 0 s.params.obufBytes)

/-! ## HDRW -/

/-- 46_container_codec.md R244, R246: HDRW and HDRW.L write the header of the code table at OBUF[0], set OUT_LEN and HDR_LEN to
its length, and change no other byte or register; the extended header declares the bit count of FREQ and CODE (R242). -/
def Obligations.HdrwWritesHeader : Prop :=
  (∀ s : State, s.params.wf → (∀ sym, freqAt s sym ≠ 0#32 → (codeAt s sym).valid = true) →
    bitCount s.freq s.code ≤ 2 ^ 32 - 1 →
    (headerOf (codeLines s.code) (some (bitCount s.freq s.code))).length ≤ s.params.obufBytes →
    ∃ t, exec .hdrw s = .next t ∧
      t = { s with
        obuf := t.obuf, outLen := t.outLen, hdrLen := t.hdrLen,
        errcode := 0#8, errInfo := 0#32, pending := none, done := true } ∧
      t.outLen.toNat = (headerOf (codeLines s.code) (some (bitCount s.freq s.code))).length ∧ t.hdrLen = t.outLen ∧
      BytesAt t.obuf 0 (headerOf (codeLines s.code) (some (bitCount s.freq s.code))) ∧
      SameOutside s.obuf t.obuf 0 t.outLen.toNat) ∧
  ∀ s : State, s.params.wf → (headerOf (codeLines s.code) none).length ≤ s.params.obufBytes →
    ∃ t, exec .hdrwL s = .next t ∧
      t = { s with
        obuf := t.obuf, outLen := t.outLen, hdrLen := t.hdrLen,
        errcode := 0#8, errInfo := 0#32, pending := none, done := true } ∧
      t.outLen.toNat = (headerOf (codeLines s.code) none).length ∧ t.hdrLen = t.outLen ∧
      BytesAt t.obuf 0 (headerOf (codeLines s.code) none) ∧ SameOutside s.obuf t.obuf 0 t.outLen.toNat

/-- 46_container_codec.md R243, R247: HDRW's checks in order, each leaving all but the completion state: the least present
symbol without a code, a bit count over 2^32 − 1, a header that does not fit; HDRW.L has the last one only. -/
def Obligations.HdrwChecksInOrder : Prop :=
  ∀ s : State,
    (∀ sym, freqAt s sym ≠ 0#32 → (codeAt s sym).valid = false →
      (∀ r : Symbol, r.toNat < sym.toNat → freqAt s r ≠ 0#32 → (codeAt s r).valid = true) →
      RaisesOnly (exec .hdrw s) s .noCode sym.toNat) ∧
    ((∀ sym, freqAt s sym ≠ 0#32 → (codeAt s sym).valid = true) →
      (2 ^ 32 - 1 < bitCount s.freq s.code → RaisesOnly (exec .hdrw s) s .range 0) ∧
      (bitCount s.freq s.code ≤ 2 ^ 32 - 1 →
        s.params.obufBytes < (headerOf (codeLines s.code) (some (bitCount s.freq s.code))).length →
        RaisesOnly (exec .hdrw s) s .obufOvf
          (headerOf (codeLines s.code) (some (bitCount s.freq s.code))).length)) ∧
    (s.params.obufBytes < (headerOf (codeLines s.code) none).length →
      RaisesOnly (exec .hdrwL s) s .obufOvf (headerOf (codeLines s.code) none).length)

/-- 30_encoding.md R144: a table line costs its code's length and three bytes more, and a header's length follows. -/
def Obligations.HeaderLengthFollowsFromItsLines : Prop :=
  ∀ (lines : List (BitStr × Symbol)) (bits : Nat),
    (headerOf lines none).length =
      3 + ((dec lines.length).length + 1) + (lines.map (fun x => x.1.length + 3)).sum + 3 ∧
    (headerOf lines (some bits)).length = (headerOf lines none).length + ((dec bits).length + 1)

/-- 00_scope.md R16: `dec(n)` is a non-empty string of ASCII digits that denotes n, without a leading zero unless it is "0". -/
def Obligations.DecimalTextIsCanonical : Prop :=
  ∀ n : Nat, dec n ≠ [] ∧ (∀ d ∈ dec n, 0x30 ≤ d.toNat ∧ d.toNat ≤ 0x39) ∧
    (dec n).foldl (fun v d => 10 * v + (d.toNat - 0x30)) 0 = n ∧
    (1 < (dec n).length → (dec n).head? ≠ some 0x30#8)

/-! ## HDRP -/

/-- 46_container_codec.md R252, R256: HDRP accepts every extended header of good lines with its exact payload length, and HDRP.L
every legacy header with any payload; CODE becomes the lines' table and nothing else, the payload offset, bit count and
header length are set, and nothing else changes. -/
def Obligations.HdrpReadsHeader : Prop :=
  (∀ (s : State) (lines : List (BitStr × Symbol)) (bits : Nat) (payload : List Byte),
    GoodLines lines → bits < 2 ^ 32 → payload.length = ceil8 bits →
    IbufHolds s (headerOf lines (some bits) ++ payload) → s.inLen.toNat ≤ s.params.ibufBytes →
    ∃ T, exec .hdrp s = .next { s with
        code := T, payBits := BitVec.ofNat 32 bits, decBV := true,
        payOff := BitVec.ofNat 32 (headerOf lines (some bits)).length,
        hdrLen := BitVec.ofNat 32 (headerOf lines (some bits)).length,
        errcode := 0#8, errInfo := 0#32, pending := none, done := true } ∧
      ∀ sym, tableGet T sym = lineEntry lines sym) ∧
  ∀ (s : State) (lines : List (BitStr × Symbol)) (payload : List Byte),
    GoodLines lines → IbufHolds s (headerOf lines none ++ payload) → s.inLen.toNat ≤ s.params.ibufBytes →
    ∃ T, exec .hdrpL s = .next { s with
        code := T, payBits := BitVec.ofNat 32 (8 * payload.length), decBV := false,
        payOff := BitVec.ofNat 32 (headerOf lines none).length,
        hdrLen := BitVec.ofNat 32 (headerOf lines none).length,
        errcode := 0#8, errInfo := 0#32, pending := none, done := true } ∧
      ∀ sym, tableGet T sym = lineEntry lines sym

/-- 46_container_codec.md R251: an HDRP or HDRP.L that raises any error leaves every code entry empty and PAY_OFF, PAY_BITS, BV
and HDR_LEN at 0, and changes nothing else but the completion state. -/
def Obligations.HdrpErrorsLeaveNoTable : Prop :=
  ∀ (i : Instr) (s t : State), i = .hdrp ∨ i = .hdrpL → exec i s = .next t → t.errcode ≠ 0#8 →
    (∀ sym, codeAt t sym = ⟨false, 0#8, 0#256⟩) ∧
    t = { s with
      code := t.code, payOff := 0#32, payBits := 0#32, decBV := false, hdrLen := 0#32,
      errcode := t.errcode, errInfo := t.errInfo, pending := none, done := true }

/-- 46_container_codec.md R248 to R250, R252 and R255 to R257: when HDRP and HDRP.L raise each of their errors, with ERR_INFO
and the whole state they leave (R251). IN_LEN beyond the buffer is E_RANGE; an input that ends inside a header, that is, any
proper beginning of a header of good lines, is E_HDR_TRUNC with ERR_INFO = IN_LEN; a wrong byte in "HS" LF is E_HDR_START; a
malformed or too large count is E_HDR_COUNT; then, after good lines, the errors of the next line (`HdrpLineErrors`) and of
what follows the last (`HdrpEndErrors`). What the input holds after the byte at fault does not matter. -/
def Obligations.HdrpReportsTruncation : Prop :=
  ∀ (f : Format) (s : State),
    (s.params.ibufBytes < s.inLen.toNat → HdrpEnds f s 0x02#8 s.inLen.toNat) ∧
    (s.inLen.toNat ≤ s.params.ibufBytes →
      (∀ lines bits bs, GoodLines lines → bits < 2 ^ 32 → IbufHolds s bs →
        bs <+: headerOf lines (formatBits f bits) → bs ≠ headerOf lines (formatBits f bits) →
        HdrpEnds f s 0x10#8 s.inLen.toNat) ∧
      (∀ p b, p <+: [chH, chS, chLF] → p ≠ [chH, chS, chLF] → ¬(p ++ [b]) <+: [chH, chS, chLF] →
        InputStarts s (p ++ [b]) → HdrpEnds f s 0x11#8 p.length) ∧
      (∀ x off, BadDecimal 3 x off → InputStarts s ([chH, chS, chLF] ++ x) → HdrpEnds f s 0x12#8 (3 + off)) ∧
      (∀ N, 256 < N → N ≤ 999 → InputStarts s ([chH, chS, chLF] ++ dec N ++ [chLF]) → HdrpEnds f s 0x12#8 3) ∧
      ∀ N lines, N ≤ 256 → GoodLines lines →
        (lines.length < N → HdrpLineErrors f s N lines) ∧ (lines.length = N → HdrpEndErrors f s N lines))

/-- 46_container_codec.md R258: for a code table without empty or repeated codes, HDRW, the host's copy of OBUF into IBUF (with
the payload bytes the extended header declares) and HDRP give the same valid entries with the same effective codes; the
same for the legacy pair. The rule's example, the header of a:"00", b:"01", c:"10", d:"11" with bit count 0, is the first
clause. -/
def Obligations.HeaderRoundTrip : Prop :=
  headerOf [([false, false], 0x61#8), ([false, true], 0x62#8), ([true, false], 0x63#8), ([true, true], 0x64#8)] (some 0) =
    [0x48#8, 0x53#8, 0x0A#8, 0x34#8, 0x0A#8] ++ [0x30#8, 0x30#8, 0x2C#8, 0x61#8, 0x0A#8] ++
    [0x30#8, 0x31#8, 0x2C#8, 0x62#8, 0x0A#8] ++ [0x31#8, 0x30#8, 0x2C#8, 0x63#8, 0x0A#8] ++
    [0x31#8, 0x31#8, 0x2C#8, 0x64#8, 0x0A#8] ++ [0x30#8, 0x0A#8, 0x48#8, 0x45#8, 0x0A#8] ∧
  ∀ s t u : State, s.params.wf → u.params.wf →
    (∀ sym, (codeAt s sym).valid = true → (codeAt s sym).len ≠ 0#8) →
    (∀ a b, (codeAt s a).valid = true → (codeAt s b).valid = true → a ≠ b →
      (codeAt s a).effective ≠ (codeAt s b).effective) →
    t.errcode = 0#8 → (∀ j < t.outLen.toNat, u.ibuf.read j = t.obuf.read j) → u.inLen.toNat ≤ u.params.ibufBytes →
    (exec .hdrw s = .next t → u.inLen.toNat = t.outLen.toNat + ceil8 (bitCount s.freq s.code) →
      ∃ v, exec .hdrp u = .next v ∧ Completed v ∧ ∀ sym, (codeAt v sym).valid = (codeAt s sym).valid ∧
        ((codeAt s sym).valid = true → (codeAt v sym).effective = (codeAt s sym).effective)) ∧
    (exec .hdrwL s = .next t → u.inLen.toNat = t.outLen.toNat →
      ∃ v, exec .hdrpL u = .next v ∧ Completed v ∧ ∀ sym, (codeAt v sym).valid = (codeAt s sym).valid ∧
        ((codeAt s sym).valid = true → (codeAt v sym).effective = (codeAt s sym).effective))

/-! ## The composites -/

/-- 47_composite.md R270: on every input that is legal and whose container fits OBUF, COMPRESS and COMPRESS.L complete with the
container in OBUF[0..], its lengths in OUT_LEN, HDR_LEN and ENC_BITS, the counts in FREQ, the tree built and its codes in
CODE; bytes of OBUF beyond the container are as before. -/
def Obligations.CompressWritesContainer : Prop :=
  ∀ (s : State) (bs : List Byte) (f : Format), s.params.wf → IbufHolds s bs → bs.length ≤ s.params.ibufBytes →
    (containerOf f bs).length ≤ s.params.obufBytes →
    ∃ t, exec (match f with | .extended => .compress | .legacy => .compressL) s = .next t ∧ Completed t ∧
      BytesAt t.obuf 0 (containerOf f bs) ∧ SameOutside s.obuf t.obuf 0 (containerOf f bs).length ∧
      t.outLen.toNat = (containerOf f bs).length ∧ t.hdrLen.toNat = (messageHeader f bs).length ∧
      t.encBits.toNat = (codeBits (huffmanCodes bs) bs).length ∧ t.code = huffmanCodes bs ∧
      t.freq = countBytes bs ∧ t.treeBuilt = true ∧ t.rootValid = !bs.isEmpty

/-- 47_composite.md R272: a composite command's outcome is that of its steps issued as separate commands with nothing in
between; the first step that raises, or stops, ends it. -/
def Obligations.CompositesEqualTheirSteps : Prop :=
  (∀ (f : Format) (s t1 t2 t3 t4 : State),
    (∀ r, exec .freq s = .fault r →
      exec (match f with | .extended => .compress | .legacy => .compressL) s = .fault r) ∧
    (exec .freq s = .next t1 → t1.errcode ≠ 0#8 →
      exec (match f with | .extended => .compress | .legacy => .compressL) s = .next t1) ∧
    (exec .freq s = .next t1 → t1.errcode = 0#8 → exec .build t1 = .next t2 → exec .assign t2 = .next t3 →
      exec (match f with | .extended => .hdrw | .legacy => .hdrwL) t3 = .next t4 →
      exec (match f with | .extended => .compress | .legacy => .compressL) s =
        if t4.errcode = 0#8 then exec .encode t4 else .next t4)) ∧
  ∀ (f : Format) (s t : State),
    (∀ r, exec (match f with | .extended => .hdrp | .legacy => .hdrpL) s = .fault r →
      exec (match f with | .extended => .decompress | .legacy => .decompressL) s = .fault r) ∧
    (exec (match f with | .extended => .hdrp | .legacy => .hdrpL) s = .next t →
      exec (match f with | .extended => .decompress | .legacy => .decompressL) s =
        if t.errcode = 0#8 then exec .decode t else .next t)

/-- 47_composite.md R271: where IBUF holds the header of good, prefix-free lines and a payload of the codes of a message,
DECOMPRESS (and DECOMPRESS.L, whose payload has no bit left over) completes with the message in OBUF[0..] and its length in
OUT_LEN; bytes beyond it are as before. -/
def Obligations.DecompressRecoversMessage : Prop :=
  ∀ (s : State) (lines : List (BitStr × Symbol)) (payload M : List Byte), s.params.wf →
    GoodLines lines → PrefixFreeLines lines → (∀ b ∈ M, (lineCode lines b).isSome = true) →
    M.length ≤ s.params.obufBytes → s.inLen.toNat ≤ s.params.ibufBytes →
    (∀ k < (lineBits lines M).length, (payload[k / 8]?).map (fun b => payloadBit b k) = (lineBits lines M)[k]?) →
    (payload.length = ceil8 (lineBits lines M).length →
      IbufHolds s (headerOf lines (some (lineBits lines M).length) ++ payload) →
      ∃ t, exec .decompress s = .next t ∧ Completed t ∧ BytesAt t.obuf 0 M ∧ SameOutside s.obuf t.obuf 0 M.length ∧
        t.outLen.toNat = M.length ∧ t.payBits.toNat = (lineBits lines M).length ∧ t.decBV = true) ∧
    (8 * payload.length = (lineBits lines M).length → IbufHolds s (headerOf lines none ++ payload) →
      ∃ t, exec .decompressL s = .next t ∧ Completed t ∧ BytesAt t.obuf 0 M ∧ SameOutside s.obuf t.obuf 0 M.length ∧
        t.outLen.toNat = M.length ∧ t.payBits.toNat = (lineBits lines M).length ∧ t.decBV = false)

/-- 45_bit_decoder.md R233: for every input whose container fits both OBUF and IBUF and which fits OBUF, COMPRESS, the host's
copy of OBUF[0..OUT_LEN−1] into IBUF, and DECOMPRESS succeed and leave the input in OBUF[0..OUT_LEN−1]. -/
def Obligations.ContainerRoundTrip : Prop :=
  ∀ (s : State) (bs : List Byte), s.params.wf → IbufHolds s bs → bs.length ≤ s.params.ibufBytes →
    (containerOf .extended bs).length ≤ s.params.obufBytes →
    ∃ t, exec .compress s = .next t ∧ t.errcode = 0#8 ∧
      ∀ u : State, u.params.wf → u.inLen = t.outLen → (∀ j < t.outLen.toNat, u.ibuf.read j = t.obuf.read j) →
        t.outLen.toNat ≤ u.params.ibufBytes → bs.length ≤ u.params.obufBytes →
        ∃ v, exec .decompress u = .next v ∧ v.errcode = 0#8 ∧ v.outLen.toNat = bs.length ∧ BytesAt v.obuf 0 bs

/-! ## Errors and frames -/

/-- 60_exceptions.md R284, R285, for the all-or-nothing commands: an error changes nothing but the completion state. -/
def Obligations.AllOrNothingErrors : Prop :=
  ∀ (i : Instr) (s t : State), i ∈ [Instr.nop, .clear, .freq, .build, .assign, .encode, .hdrw, .hdrwL] →
    exec i s = .next t → t.errcode ≠ 0#8 →
    t = { s with errcode := t.errcode, errInfo := t.errInfo, pending := none, done := true }

/-- 20_memory.md R115 for the commands that store nothing to OBUF, whether they complete or raise: every byte of both buffers
reads as before, no command writes IN_LEN, CTRL, CMD or WERR, and each leaves what its row does not list. -/
def Obligations.FrameOfNonStoringCommands : Prop :=
  ∀ (i : Instr) (s t : State), i ∈ [Instr.nop, .clear, .freq, .build, .assign, .hdrp, .hdrpL] → exec i s = .next t →
    InputsKept s t ∧ (∀ a, t.obuf.read a = s.obuf.read a) ∧
    (i = .nop → TreeKept s t ∧ t.code = s.code ∧ DecodeSetupKept s t ∧ OutputKept s t ∧ t.hdrLen = s.hdrLen) ∧
    (i = .clear → t.node = s.node) ∧
    (i = .freq → t.rootValid = s.rootValid ∧ t.nodeCnt = s.nodeCnt ∧ t.root = s.root ∧ t.rootW = s.rootW ∧
      t.node = s.node ∧ t.code = s.code ∧ DecodeSetupKept s t ∧ OutputKept s t ∧ t.hdrLen = s.hdrLen) ∧
    (i = .build → t.freq = s.freq ∧ t.code = s.code ∧ DecodeSetupKept s t ∧ OutputKept s t ∧ t.hdrLen = s.hdrLen) ∧
    (i = .assign → TreeKept s t ∧ DecodeSetupKept s t ∧ OutputKept s t ∧ t.hdrLen = s.hdrLen) ∧
    (i = .hdrp ∨ i = .hdrpL → TreeKept s t ∧ OutputKept s t)

/-- 20_memory.md R115 for the commands that store to OBUF, whether they complete or raise: ENCODE stores only from the old
OUT_LEN to the new one, every other only below the new OUT_LEN; every other byte of both buffers reads as before, and each
leaves what its row does not list. -/
def Obligations.FrameOfStoringCommands : Prop :=
  ∀ (i : Instr) (s t : State), s.params.wf →
    i ∈ [Instr.encode, .decode, .hdrw, .hdrwL, .compress, .compressL, .decompress, .decompressL] → exec i s = .next t →
    InputsKept s t ∧ (∀ a, t.outLen.toNat ≤ a → t.obuf.read a = s.obuf.read a) ∧
    (i = .encode → (∀ a, a < s.outLen.toNat → t.obuf.read a = s.obuf.read a) ∧
      TreeKept s t ∧ t.code = s.code ∧ DecodeSetupKept s t ∧ t.hdrLen = s.hdrLen) ∧
    (i = .decode → TreeKept s t ∧ t.code = s.code ∧ DecodeSetupKept s t ∧ t.encBits = s.encBits ∧
      t.hdrLen = s.hdrLen) ∧
    (i = .hdrw ∨ i = .hdrwL → TreeKept s t ∧ t.code = s.code ∧ DecodeSetupKept s t ∧ t.encBits = s.encBits) ∧
    (i = .compress ∨ i = .compressL → DecodeSetupKept s t) ∧
    (i = .decompress ∨ i = .decompressL → TreeKept s t ∧ t.encBits = s.encBits)
end

