-- ==== Sys2Proof/Laws/Container.lean ====
section
/-! SUPPORT. The laws of headers, of the beginning of the input, and of the end of a run. -/

namespace Sys2Proof.Machine

@[simp] theorem formatBits_extended (bits : Nat) : formatBits .extended bits = some bits := rfl
@[simp] theorem formatBits_legacy (bits : Nat) : formatBits .legacy bits = none := rfl

/-- An extended header: its beginning, its bit-count line, "HE". -/
theorem headerOf_some (lines : List (BitStr × Symbol)) (bits : Nat) :
    headerOf lines (some bits) = headerStart lines.length lines ++ bitCountLine bits ++ [chH, chE, chLF] := rfl

/-- A legacy header: its beginning, "HE". -/
theorem headerOf_none (lines : List (BitStr × Symbol)) :
    headerOf lines none = headerStart lines.length lines ++ [chH, chE, chLF] := by
  simp [headerOf, renderHeader, headerStart]

/-- An input begins with every beginning of what it begins with. -/
theorem InputStarts.left {s : State} {bs cs : List Byte} (h : InputStarts s (bs ++ cs)) : InputStarts s bs := by
  obtain ⟨h1, h2⟩ := h
  rw [List.length_append] at h1
  refine ⟨by omega, fun i hi => ?_⟩
  rw [h2 i (by rw [List.length_append]; omega), List.getElem?_append_left hi]

/-- A run has ended exactly when no host access is left and nothing is pending. -/
theorem runEnded_iff {s : State} :
    s.runEnded = true ↔ (∀ e ∈ s.script, e.isHostAccess = false) ∧ s.pending = none := by
  simp [State.runEnded, State.busy]

end Sys2Proof.Machine
end

