-- ==== Sys2Proof/Laws/Memory.lean ====
section
/-! SUPPORT. The laws of a buffer: a read after a write, and that every write keeps the canonical form and the bound. -/

namespace Sys2Proof.Machine

@[simp] theorem read_nil (i : Nat) : Memory.read [] i = none := rfl

theorem read_cons (a : Nat) (v : Byte) (m : Memory) (i : Nat) :
    Memory.read ((a, v) :: m) i = if a = i then some v else Memory.read m i := rfl

theorem write_cons (a : Nat) (w : Byte) (m : Memory) (i : Nat) (v : Byte) :
    Memory.write ((a, w) :: m) i v =
      if i < a then (i, v) :: (a, w) :: m else if i = a then (i, v) :: m else (a, w) :: Memory.write m i v := rfl

/-- A byte reads as what was written to it. -/
@[simp] theorem read_write_same (m : Memory) (i : Nat) (v : Byte) : (m.write i v).read i = some v := by
  induction m with
  | nil => simp [Memory.write, Memory.read]
  | cons c m ih =>
    obtain ⟨a, w⟩ := c
    rw [write_cons]
    split
    · simp [read_cons]
    · split
      · simp [read_cons]
      · rw [read_cons, if_neg (by omega), ih]

/-- Every other byte reads as before. -/
theorem read_write_other (m : Memory) {i j : Nat} (v : Byte) (h : j ≠ i) : (m.write i v).read j = m.read j := by
  induction m with
  | nil => simp [Memory.write, Memory.read, h.symm]
  | cons c m ih =>
    obtain ⟨a, w⟩ := c
    rw [write_cons]
    split
    · rw [read_cons, if_neg (Ne.symm h)]
    · split
      · next h2 => simp [read_cons, h2 ▸ Ne.symm h, Ne.symm h]
      · rw [read_cons, ih, read_cons]

/-- A written cell is the new one or an old one. -/
theorem mem_write {m : Memory} {i : Nat} {v : Byte} {c : Host.Cell} (h : c ∈ m.write i v) : c = (i, v) ∨ c ∈ m := by
  induction m with
  | nil => exact .inl (by simpa [Memory.write] using h)
  | cons d m ih =>
    obtain ⟨a, w⟩ := d
    rw [write_cons] at h
    split at h
    · simpa using h
    · split at h
      · rcases List.mem_cons.1 h with h | h
        · exact .inl h
        · exact .inr (List.mem_cons_of_mem _ h)
      · rcases List.mem_cons.1 h with h | h
        · exact .inr (h ▸ List.mem_cons_self)
        · exact (ih h).imp_right (List.mem_cons_of_mem _)

/-- A write keeps the canonical form. -/
theorem wf_write {m : Memory} (h : m.wf) (i : Nat) (v : Byte) : (m.write i v).wf := by
  induction m with
  | nil => exact List.pairwise_singleton _ _
  | cons c m ih =>
    obtain ⟨a, w⟩ := c
    obtain ⟨h1, h2⟩ := List.pairwise_cons.1 h
    rw [write_cons]
    split
    · next hi =>
      refine List.pairwise_cons.2 ⟨fun d hd => ?_, h⟩
      rcases List.mem_cons.1 hd with rfl | hd
      · exact hi
      · exact lt_trans hi (h1 d hd)
    · split
      · next hi => exact List.pairwise_cons.2 ⟨fun d hd => hi ▸ h1 d hd, h2⟩
      · refine List.pairwise_cons.2 ⟨fun d hd => ?_, ih h2⟩
        rcases mem_write hd with rfl | hd
        · show a < i
          omega
        · exact h1 d hd

/-- A write inside the buffer keeps every listed byte inside it. -/
theorem below_write {m : Memory} {size i : Nat} (h : m.below size) (hi : i < size) (v : Byte) :
    (m.write i v).below size := by
  intro c hc
  rcases mem_write hc with rfl | hc
  · exact hi
  · exact h c hc

theorem wf_writeBytes {m : Memory} (h : m.wf) (i : Nat) (bs : List Byte) : (m.writeBytes i bs).wf := by
  induction bs generalizing m i with
  | nil => exact h
  | cons b bs ih => exact ih (wf_write h i b) (i + 1)

theorem below_writeBytes {m : Memory} {size : Nat} (h : m.below size) (i : Nat) (bs : List Byte)
    (hi : i + bs.length ≤ size) : (m.writeBytes i bs).below size := by
  induction bs generalizing m i with
  | nil => exact h
  | cons b bs ih =>
    rw [List.length_cons] at hi
    exact ih (below_write h (by omega) b) (i + 1) (by omega)

/-- A byte outside the written range reads as before. -/
theorem read_writeBytes_outside (m : Memory) (i : Nat) (bs : List Byte) {a : Nat} (h : a < i ∨ i + bs.length ≤ a) :
    (m.writeBytes i bs).read a = m.read a := by
  induction bs generalizing m i with
  | nil => rfl
  | cons b bs ih =>
    rw [List.length_cons] at h
    show ((m.write i b).writeBytes (i + 1) bs).read a = _
    rw [ih _ _ (by omega), read_write_other _ _ (by omega)]

/-- A byte of the written range reads as the byte written to it. -/
theorem read_writeBytes_inside (m : Memory) (i : Nat) (bs : List Byte) {k : Nat} (h : k < bs.length) :
    (m.writeBytes i bs).read (i + k) = bs[k]? := by
  induction bs generalizing m i k with
  | nil => simp at h
  | cons b bs ih =>
    show ((m.write i b).writeBytes (i + 1) bs).read (i + k) = _
    cases k with
    | zero => rw [read_writeBytes_outside _ _ _ (by omega)]; simp
    | succ k =>
      have : i + (k + 1) = i + 1 + k := by omega
      rw [this, ih _ _ (by simpa using h)]
      simp

end Sys2Proof.Machine
end

