-- ==== Sys2Proof/Laws/PerInstr.lean ====
section
/-! SUPPORT. Per-instruction facts about the commands as syntax: the fields of each command's word
(spec/30_encoding.md R131, R133). -/

namespace Sys2Proof.Laws.WordFields

/-- The word of a command is well formed, and its OP and L fields are the command's. -/
def Statement (i : Instr) : Prop :=
  i.wf = true ∧ wordWellFormed (encode i) = true ∧ (encode i).extractLsb' 0 8 = opField i ∧
    (encode i).extractLsb' 8 1 = lField i ∧ (encode i).extractLsb' 9 23 = 0#23

theorem nop : Statement .nop := by unfold Statement; decide
theorem clear : Statement .clear := by unfold Statement; decide
theorem freq : Statement .freq := by unfold Statement; decide
theorem build : Statement .build := by unfold Statement; decide
theorem assign : Statement .assign := by unfold Statement; decide
theorem encode : Statement .encode := by unfold Statement; decide
theorem decode : Statement .decode := by unfold Statement; decide
theorem hdrw : Statement .hdrw := by unfold Statement; decide
theorem hdrwL : Statement .hdrwL := by unfold Statement; decide
theorem hdrp : Statement .hdrp := by unfold Statement; decide
theorem hdrpL : Statement .hdrpL := by unfold Statement; decide
theorem compress : Statement .compress := by unfold Statement; decide
theorem compressL : Statement .compressL := by unfold Statement; decide
theorem decompress : Statement .decompress := by unfold Statement; decide
theorem decompressL : Statement .decompressL := by unfold Statement; decide

end Sys2Proof.Laws.WordFields
end

