-- ==== Sys2Proof/Laws/State.lean ====
section
/-! SUPPORT. For each named update of State, what it does to each field: one lemma per field, true by rfl. -/

namespace Sys2Proof.Machine

/-! ## accept -/

@[simp] theorem accept_params (v : Word) (s : State) : (accept v s).params = s.params := rfl
@[simp] theorem accept_ctrlIE (v : Word) (s : State) : (accept v s).ctrlIE = s.ctrlIE := rfl
@[simp] theorem accept_done (v : Word) (s : State) : (accept v s).done = false := rfl
@[simp] theorem accept_werr (v : Word) (s : State) : (accept v s).werr = s.werr := rfl
@[simp] theorem accept_treeBuilt (v : Word) (s : State) : (accept v s).treeBuilt = s.treeBuilt := rfl
@[simp] theorem accept_rootValid (v : Word) (s : State) : (accept v s).rootValid = s.rootValid := rfl
@[simp] theorem accept_cmd (v : Word) (s : State) : (accept v s).cmd = v := rfl
@[simp] theorem accept_pending (v : Word) (s : State) : (accept v s).pending = some v := rfl
@[simp] theorem accept_errcode (v : Word) (s : State) : (accept v s).errcode = 0#8 := rfl
@[simp] theorem accept_errInfo (v : Word) (s : State) : (accept v s).errInfo = 0#32 := rfl
@[simp] theorem accept_inLen (v : Word) (s : State) : (accept v s).inLen = s.inLen := rfl
@[simp] theorem accept_outLen (v : Word) (s : State) : (accept v s).outLen = s.outLen := rfl
@[simp] theorem accept_payOff (v : Word) (s : State) : (accept v s).payOff = s.payOff := rfl
@[simp] theorem accept_payBits (v : Word) (s : State) : (accept v s).payBits = s.payBits := rfl
@[simp] theorem accept_decBV (v : Word) (s : State) : (accept v s).decBV = s.decBV := rfl
@[simp] theorem accept_encBits (v : Word) (s : State) : (accept v s).encBits = s.encBits := rfl
@[simp] theorem accept_hdrLen (v : Word) (s : State) : (accept v s).hdrLen = s.hdrLen := rfl
@[simp] theorem accept_nodeCnt (v : Word) (s : State) : (accept v s).nodeCnt = s.nodeCnt := rfl
@[simp] theorem accept_root (v : Word) (s : State) : (accept v s).root = s.root := rfl
@[simp] theorem accept_rootW (v : Word) (s : State) : (accept v s).rootW = s.rootW := rfl
@[simp] theorem accept_freq (v : Word) (s : State) : (accept v s).freq = s.freq := rfl
@[simp] theorem accept_code (v : Word) (s : State) : (accept v s).code = s.code := rfl
@[simp] theorem accept_node (v : Word) (s : State) : (accept v s).node = s.node := rfl
@[simp] theorem accept_ibuf (v : Word) (s : State) : (accept v s).ibuf = s.ibuf := rfl
@[simp] theorem accept_obuf (v : Word) (s : State) : (accept v s).obuf = s.obuf := rfl
@[simp] theorem accept_script (v : Word) (s : State) : (accept v s).script = s.script := rfl
@[simp] theorem accept_reads (v : Word) (s : State) : (accept v s).reads = s.reads := rfl
@[simp] theorem accept_draws (v : Word) (s : State) : (accept v s).draws = s.draws := rfl

/-! ## complete -/

@[simp] theorem complete_params (s : State) : (complete s).params = s.params := rfl
@[simp] theorem complete_ctrlIE (s : State) : (complete s).ctrlIE = s.ctrlIE := rfl
@[simp] theorem complete_done (s : State) : (complete s).done = true := rfl
@[simp] theorem complete_werr (s : State) : (complete s).werr = s.werr := rfl
@[simp] theorem complete_treeBuilt (s : State) : (complete s).treeBuilt = s.treeBuilt := rfl
@[simp] theorem complete_rootValid (s : State) : (complete s).rootValid = s.rootValid := rfl
@[simp] theorem complete_cmd (s : State) : (complete s).cmd = s.cmd := rfl
@[simp] theorem complete_pending (s : State) : (complete s).pending = none := rfl
@[simp] theorem complete_errcode (s : State) : (complete s).errcode = 0#8 := rfl
@[simp] theorem complete_errInfo (s : State) : (complete s).errInfo = 0#32 := rfl
@[simp] theorem complete_inLen (s : State) : (complete s).inLen = s.inLen := rfl
@[simp] theorem complete_outLen (s : State) : (complete s).outLen = s.outLen := rfl
@[simp] theorem complete_payOff (s : State) : (complete s).payOff = s.payOff := rfl
@[simp] theorem complete_payBits (s : State) : (complete s).payBits = s.payBits := rfl
@[simp] theorem complete_decBV (s : State) : (complete s).decBV = s.decBV := rfl
@[simp] theorem complete_encBits (s : State) : (complete s).encBits = s.encBits := rfl
@[simp] theorem complete_hdrLen (s : State) : (complete s).hdrLen = s.hdrLen := rfl
@[simp] theorem complete_nodeCnt (s : State) : (complete s).nodeCnt = s.nodeCnt := rfl
@[simp] theorem complete_root (s : State) : (complete s).root = s.root := rfl
@[simp] theorem complete_rootW (s : State) : (complete s).rootW = s.rootW := rfl
@[simp] theorem complete_freq (s : State) : (complete s).freq = s.freq := rfl
@[simp] theorem complete_code (s : State) : (complete s).code = s.code := rfl
@[simp] theorem complete_node (s : State) : (complete s).node = s.node := rfl
@[simp] theorem complete_ibuf (s : State) : (complete s).ibuf = s.ibuf := rfl
@[simp] theorem complete_obuf (s : State) : (complete s).obuf = s.obuf := rfl
@[simp] theorem complete_script (s : State) : (complete s).script = s.script := rfl
@[simp] theorem complete_reads (s : State) : (complete s).reads = s.reads := rfl
@[simp] theorem complete_draws (s : State) : (complete s).draws = s.draws := rfl

/-! ## raiseError -/

@[simp] theorem raiseError_params (e : ErrCode) (info : Nat) (s : State) : (raiseError e info s).params = s.params := rfl
@[simp] theorem raiseError_ctrlIE (e : ErrCode) (info : Nat) (s : State) : (raiseError e info s).ctrlIE = s.ctrlIE := rfl
@[simp] theorem raiseError_done (e : ErrCode) (info : Nat) (s : State) : (raiseError e info s).done = true := rfl
@[simp] theorem raiseError_werr (e : ErrCode) (info : Nat) (s : State) : (raiseError e info s).werr = s.werr := rfl
@[simp] theorem raiseError_treeBuilt (e : ErrCode) (info : Nat) (s : State) : (raiseError e info s).treeBuilt = s.treeBuilt := rfl
@[simp] theorem raiseError_rootValid (e : ErrCode) (info : Nat) (s : State) : (raiseError e info s).rootValid = s.rootValid := rfl
@[simp] theorem raiseError_cmd (e : ErrCode) (info : Nat) (s : State) : (raiseError e info s).cmd = s.cmd := rfl
@[simp] theorem raiseError_pending (e : ErrCode) (info : Nat) (s : State) : (raiseError e info s).pending = none := rfl
@[simp] theorem raiseError_errcode (e : ErrCode) (info : Nat) (s : State) : (raiseError e info s).errcode = e.code := rfl
@[simp] theorem raiseError_errInfo (e : ErrCode) (info : Nat) (s : State) : (raiseError e info s).errInfo = BitVec.ofNat 32 info := rfl
@[simp] theorem raiseError_inLen (e : ErrCode) (info : Nat) (s : State) : (raiseError e info s).inLen = s.inLen := rfl
@[simp] theorem raiseError_outLen (e : ErrCode) (info : Nat) (s : State) : (raiseError e info s).outLen = s.outLen := rfl
@[simp] theorem raiseError_payOff (e : ErrCode) (info : Nat) (s : State) : (raiseError e info s).payOff = s.payOff := rfl
@[simp] theorem raiseError_payBits (e : ErrCode) (info : Nat) (s : State) : (raiseError e info s).payBits = s.payBits := rfl
@[simp] theorem raiseError_decBV (e : ErrCode) (info : Nat) (s : State) : (raiseError e info s).decBV = s.decBV := rfl
@[simp] theorem raiseError_encBits (e : ErrCode) (info : Nat) (s : State) : (raiseError e info s).encBits = s.encBits := rfl
@[simp] theorem raiseError_hdrLen (e : ErrCode) (info : Nat) (s : State) : (raiseError e info s).hdrLen = s.hdrLen := rfl
@[simp] theorem raiseError_nodeCnt (e : ErrCode) (info : Nat) (s : State) : (raiseError e info s).nodeCnt = s.nodeCnt := rfl
@[simp] theorem raiseError_root (e : ErrCode) (info : Nat) (s : State) : (raiseError e info s).root = s.root := rfl
@[simp] theorem raiseError_rootW (e : ErrCode) (info : Nat) (s : State) : (raiseError e info s).rootW = s.rootW := rfl
@[simp] theorem raiseError_freq (e : ErrCode) (info : Nat) (s : State) : (raiseError e info s).freq = s.freq := rfl
@[simp] theorem raiseError_code (e : ErrCode) (info : Nat) (s : State) : (raiseError e info s).code = s.code := rfl
@[simp] theorem raiseError_node (e : ErrCode) (info : Nat) (s : State) : (raiseError e info s).node = s.node := rfl
@[simp] theorem raiseError_ibuf (e : ErrCode) (info : Nat) (s : State) : (raiseError e info s).ibuf = s.ibuf := rfl
@[simp] theorem raiseError_obuf (e : ErrCode) (info : Nat) (s : State) : (raiseError e info s).obuf = s.obuf := rfl
@[simp] theorem raiseError_script (e : ErrCode) (info : Nat) (s : State) : (raiseError e info s).script = s.script := rfl
@[simp] theorem raiseError_reads (e : ErrCode) (info : Nat) (s : State) : (raiseError e info s).reads = s.reads := rfl
@[simp] theorem raiseError_draws (e : ErrCode) (info : Nat) (s : State) : (raiseError e info s).draws = s.draws := rfl

/-! ## acknowledge -/

@[simp] theorem acknowledge_params (v : Word) (s : State) : (acknowledge v s).params = s.params := rfl
@[simp] theorem acknowledge_ctrlIE (v : Word) (s : State) : (acknowledge v s).ctrlIE = s.ctrlIE := rfl
@[simp] theorem acknowledge_done (v : Word) (s : State) : (acknowledge v s).done = (s.done && !v.getLsbD 1) := rfl
@[simp] theorem acknowledge_werr (v : Word) (s : State) : (acknowledge v s).werr = (s.werr && !v.getLsbD 3) := rfl
@[simp] theorem acknowledge_treeBuilt (v : Word) (s : State) : (acknowledge v s).treeBuilt = s.treeBuilt := rfl
@[simp] theorem acknowledge_rootValid (v : Word) (s : State) : (acknowledge v s).rootValid = s.rootValid := rfl
@[simp] theorem acknowledge_cmd (v : Word) (s : State) : (acknowledge v s).cmd = s.cmd := rfl
@[simp] theorem acknowledge_pending (v : Word) (s : State) : (acknowledge v s).pending = s.pending := rfl
@[simp] theorem acknowledge_errcode (v : Word) (s : State) : (acknowledge v s).errcode = s.errcode := rfl
@[simp] theorem acknowledge_errInfo (v : Word) (s : State) : (acknowledge v s).errInfo = s.errInfo := rfl
@[simp] theorem acknowledge_inLen (v : Word) (s : State) : (acknowledge v s).inLen = s.inLen := rfl
@[simp] theorem acknowledge_outLen (v : Word) (s : State) : (acknowledge v s).outLen = s.outLen := rfl
@[simp] theorem acknowledge_payOff (v : Word) (s : State) : (acknowledge v s).payOff = s.payOff := rfl
@[simp] theorem acknowledge_payBits (v : Word) (s : State) : (acknowledge v s).payBits = s.payBits := rfl
@[simp] theorem acknowledge_decBV (v : Word) (s : State) : (acknowledge v s).decBV = s.decBV := rfl
@[simp] theorem acknowledge_encBits (v : Word) (s : State) : (acknowledge v s).encBits = s.encBits := rfl
@[simp] theorem acknowledge_hdrLen (v : Word) (s : State) : (acknowledge v s).hdrLen = s.hdrLen := rfl
@[simp] theorem acknowledge_nodeCnt (v : Word) (s : State) : (acknowledge v s).nodeCnt = s.nodeCnt := rfl
@[simp] theorem acknowledge_root (v : Word) (s : State) : (acknowledge v s).root = s.root := rfl
@[simp] theorem acknowledge_rootW (v : Word) (s : State) : (acknowledge v s).rootW = s.rootW := rfl
@[simp] theorem acknowledge_freq (v : Word) (s : State) : (acknowledge v s).freq = s.freq := rfl
@[simp] theorem acknowledge_code (v : Word) (s : State) : (acknowledge v s).code = s.code := rfl
@[simp] theorem acknowledge_node (v : Word) (s : State) : (acknowledge v s).node = s.node := rfl
@[simp] theorem acknowledge_ibuf (v : Word) (s : State) : (acknowledge v s).ibuf = s.ibuf := rfl
@[simp] theorem acknowledge_obuf (v : Word) (s : State) : (acknowledge v s).obuf = s.obuf := rfl
@[simp] theorem acknowledge_script (v : Word) (s : State) : (acknowledge v s).script = s.script := rfl
@[simp] theorem acknowledge_reads (v : Word) (s : State) : (acknowledge v s).reads = s.reads := rfl
@[simp] theorem acknowledge_draws (v : Word) (s : State) : (acknowledge v s).draws = s.draws := rfl

/-! ## clearWork -/

@[simp] theorem clearWork_params (s : State) : (clearWork s).params = s.params := rfl
@[simp] theorem clearWork_ctrlIE (s : State) : (clearWork s).ctrlIE = s.ctrlIE := rfl
@[simp] theorem clearWork_done (s : State) : (clearWork s).done = s.done := rfl
@[simp] theorem clearWork_werr (s : State) : (clearWork s).werr = s.werr := rfl
@[simp] theorem clearWork_treeBuilt (s : State) : (clearWork s).treeBuilt = false := rfl
@[simp] theorem clearWork_rootValid (s : State) : (clearWork s).rootValid = false := rfl
@[simp] theorem clearWork_cmd (s : State) : (clearWork s).cmd = s.cmd := rfl
@[simp] theorem clearWork_pending (s : State) : (clearWork s).pending = s.pending := rfl
@[simp] theorem clearWork_errcode (s : State) : (clearWork s).errcode = s.errcode := rfl
@[simp] theorem clearWork_errInfo (s : State) : (clearWork s).errInfo = s.errInfo := rfl
@[simp] theorem clearWork_inLen (s : State) : (clearWork s).inLen = s.inLen := rfl
@[simp] theorem clearWork_outLen (s : State) : (clearWork s).outLen = 0#32 := rfl
@[simp] theorem clearWork_payOff (s : State) : (clearWork s).payOff = 0#32 := rfl
@[simp] theorem clearWork_payBits (s : State) : (clearWork s).payBits = 0#32 := rfl
@[simp] theorem clearWork_decBV (s : State) : (clearWork s).decBV = false := rfl
@[simp] theorem clearWork_encBits (s : State) : (clearWork s).encBits = 0#32 := rfl
@[simp] theorem clearWork_hdrLen (s : State) : (clearWork s).hdrLen = 0#32 := rfl
@[simp] theorem clearWork_nodeCnt (s : State) : (clearWork s).nodeCnt = 0#9 := rfl
@[simp] theorem clearWork_root (s : State) : (clearWork s).root = 0#9 := rfl
@[simp] theorem clearWork_rootW (s : State) : (clearWork s).rootW = 0#40 := rfl
@[simp] theorem clearWork_freq (s : State) : (clearWork s).freq = Vector.replicate 256 0#32 := rfl
@[simp] theorem clearWork_code (s : State) : (clearWork s).code = emptyCodeTable := rfl
@[simp] theorem clearWork_node (s : State) : (clearWork s).node = s.node := rfl
@[simp] theorem clearWork_ibuf (s : State) : (clearWork s).ibuf = s.ibuf := rfl
@[simp] theorem clearWork_obuf (s : State) : (clearWork s).obuf = s.obuf := rfl
@[simp] theorem clearWork_script (s : State) : (clearWork s).script = s.script := rfl
@[simp] theorem clearWork_reads (s : State) : (clearWork s).reads = s.reads := rfl
@[simp] theorem clearWork_draws (s : State) : (clearWork s).draws = s.draws := rfl

/-! ## hdrpFailure -/

@[simp] theorem hdrpFailure_params (s : State) : (hdrpFailure s).params = s.params := rfl
@[simp] theorem hdrpFailure_ctrlIE (s : State) : (hdrpFailure s).ctrlIE = s.ctrlIE := rfl
@[simp] theorem hdrpFailure_done (s : State) : (hdrpFailure s).done = s.done := rfl
@[simp] theorem hdrpFailure_werr (s : State) : (hdrpFailure s).werr = s.werr := rfl
@[simp] theorem hdrpFailure_treeBuilt (s : State) : (hdrpFailure s).treeBuilt = s.treeBuilt := rfl
@[simp] theorem hdrpFailure_rootValid (s : State) : (hdrpFailure s).rootValid = s.rootValid := rfl
@[simp] theorem hdrpFailure_cmd (s : State) : (hdrpFailure s).cmd = s.cmd := rfl
@[simp] theorem hdrpFailure_pending (s : State) : (hdrpFailure s).pending = s.pending := rfl
@[simp] theorem hdrpFailure_errcode (s : State) : (hdrpFailure s).errcode = s.errcode := rfl
@[simp] theorem hdrpFailure_errInfo (s : State) : (hdrpFailure s).errInfo = s.errInfo := rfl
@[simp] theorem hdrpFailure_inLen (s : State) : (hdrpFailure s).inLen = s.inLen := rfl
@[simp] theorem hdrpFailure_outLen (s : State) : (hdrpFailure s).outLen = s.outLen := rfl
@[simp] theorem hdrpFailure_payOff (s : State) : (hdrpFailure s).payOff = 0#32 := rfl
@[simp] theorem hdrpFailure_payBits (s : State) : (hdrpFailure s).payBits = 0#32 := rfl
@[simp] theorem hdrpFailure_decBV (s : State) : (hdrpFailure s).decBV = false := rfl
@[simp] theorem hdrpFailure_encBits (s : State) : (hdrpFailure s).encBits = s.encBits := rfl
@[simp] theorem hdrpFailure_hdrLen (s : State) : (hdrpFailure s).hdrLen = 0#32 := rfl
@[simp] theorem hdrpFailure_nodeCnt (s : State) : (hdrpFailure s).nodeCnt = s.nodeCnt := rfl
@[simp] theorem hdrpFailure_root (s : State) : (hdrpFailure s).root = s.root := rfl
@[simp] theorem hdrpFailure_rootW (s : State) : (hdrpFailure s).rootW = s.rootW := rfl
@[simp] theorem hdrpFailure_freq (s : State) : (hdrpFailure s).freq = s.freq := rfl
@[simp] theorem hdrpFailure_code (s : State) : (hdrpFailure s).code = emptyCodeTable := rfl
@[simp] theorem hdrpFailure_node (s : State) : (hdrpFailure s).node = s.node := rfl
@[simp] theorem hdrpFailure_ibuf (s : State) : (hdrpFailure s).ibuf = s.ibuf := rfl
@[simp] theorem hdrpFailure_obuf (s : State) : (hdrpFailure s).obuf = s.obuf := rfl
@[simp] theorem hdrpFailure_script (s : State) : (hdrpFailure s).script = s.script := rfl
@[simp] theorem hdrpFailure_reads (s : State) : (hdrpFailure s).reads = s.reads := rfl
@[simp] theorem hdrpFailure_draws (s : State) : (hdrpFailure s).draws = s.draws := rfl

/-! ## hdrpSuccess -/

@[simp] theorem hdrpSuccess_params (f : Format) (h : ParsedHeader) (s : State) : (hdrpSuccess f h s).params = s.params := rfl
@[simp] theorem hdrpSuccess_ctrlIE (f : Format) (h : ParsedHeader) (s : State) : (hdrpSuccess f h s).ctrlIE = s.ctrlIE := rfl
@[simp] theorem hdrpSuccess_done (f : Format) (h : ParsedHeader) (s : State) : (hdrpSuccess f h s).done = s.done := rfl
@[simp] theorem hdrpSuccess_werr (f : Format) (h : ParsedHeader) (s : State) : (hdrpSuccess f h s).werr = s.werr := rfl
@[simp] theorem hdrpSuccess_treeBuilt (f : Format) (h : ParsedHeader) (s : State) : (hdrpSuccess f h s).treeBuilt = s.treeBuilt := rfl
@[simp] theorem hdrpSuccess_rootValid (f : Format) (h : ParsedHeader) (s : State) : (hdrpSuccess f h s).rootValid = s.rootValid := rfl
@[simp] theorem hdrpSuccess_cmd (f : Format) (h : ParsedHeader) (s : State) : (hdrpSuccess f h s).cmd = s.cmd := rfl
@[simp] theorem hdrpSuccess_pending (f : Format) (h : ParsedHeader) (s : State) : (hdrpSuccess f h s).pending = s.pending := rfl
@[simp] theorem hdrpSuccess_errcode (f : Format) (h : ParsedHeader) (s : State) : (hdrpSuccess f h s).errcode = s.errcode := rfl
@[simp] theorem hdrpSuccess_errInfo (f : Format) (h : ParsedHeader) (s : State) : (hdrpSuccess f h s).errInfo = s.errInfo := rfl
@[simp] theorem hdrpSuccess_inLen (f : Format) (h : ParsedHeader) (s : State) : (hdrpSuccess f h s).inLen = s.inLen := rfl
@[simp] theorem hdrpSuccess_outLen (f : Format) (h : ParsedHeader) (s : State) : (hdrpSuccess f h s).outLen = s.outLen := rfl
@[simp] theorem hdrpSuccess_payOff (f : Format) (h : ParsedHeader) (s : State) : (hdrpSuccess f h s).payOff = BitVec.ofNat 32 h.length := rfl
@[simp] theorem hdrpSuccess_payBits (f : Format) (h : ParsedHeader) (s : State) : (hdrpSuccess f h s).payBits = BitVec.ofNat 32 h.payBits := rfl
@[simp] theorem hdrpSuccess_decBV (f : Format) (h : ParsedHeader) (s : State) : (hdrpSuccess f h s).decBV = (f == .extended) := rfl
@[simp] theorem hdrpSuccess_encBits (f : Format) (h : ParsedHeader) (s : State) : (hdrpSuccess f h s).encBits = s.encBits := rfl
@[simp] theorem hdrpSuccess_hdrLen (f : Format) (h : ParsedHeader) (s : State) : (hdrpSuccess f h s).hdrLen = BitVec.ofNat 32 h.length := rfl
@[simp] theorem hdrpSuccess_nodeCnt (f : Format) (h : ParsedHeader) (s : State) : (hdrpSuccess f h s).nodeCnt = s.nodeCnt := rfl
@[simp] theorem hdrpSuccess_root (f : Format) (h : ParsedHeader) (s : State) : (hdrpSuccess f h s).root = s.root := rfl
@[simp] theorem hdrpSuccess_rootW (f : Format) (h : ParsedHeader) (s : State) : (hdrpSuccess f h s).rootW = s.rootW := rfl
@[simp] theorem hdrpSuccess_freq (f : Format) (h : ParsedHeader) (s : State) : (hdrpSuccess f h s).freq = s.freq := rfl
@[simp] theorem hdrpSuccess_code (f : Format) (h : ParsedHeader) (s : State) : (hdrpSuccess f h s).code = h.code := rfl
@[simp] theorem hdrpSuccess_node (f : Format) (h : ParsedHeader) (s : State) : (hdrpSuccess f h s).node = s.node := rfl
@[simp] theorem hdrpSuccess_ibuf (f : Format) (h : ParsedHeader) (s : State) : (hdrpSuccess f h s).ibuf = s.ibuf := rfl
@[simp] theorem hdrpSuccess_obuf (f : Format) (h : ParsedHeader) (s : State) : (hdrpSuccess f h s).obuf = s.obuf := rfl
@[simp] theorem hdrpSuccess_script (f : Format) (h : ParsedHeader) (s : State) : (hdrpSuccess f h s).script = s.script := rfl
@[simp] theorem hdrpSuccess_reads (f : Format) (h : ParsedHeader) (s : State) : (hdrpSuccess f h s).reads = s.reads := rfl
@[simp] theorem hdrpSuccess_draws (f : Format) (h : ParsedHeader) (s : State) : (hdrpSuccess f h s).draws = s.draws := rfl

/-! ## emitSymbol -/

@[simp] theorem emitSymbol_params (m : Symbol) (s : State) : (emitSymbol m s).params = s.params := rfl
@[simp] theorem emitSymbol_ctrlIE (m : Symbol) (s : State) : (emitSymbol m s).ctrlIE = s.ctrlIE := rfl
@[simp] theorem emitSymbol_done (m : Symbol) (s : State) : (emitSymbol m s).done = s.done := rfl
@[simp] theorem emitSymbol_werr (m : Symbol) (s : State) : (emitSymbol m s).werr = s.werr := rfl
@[simp] theorem emitSymbol_treeBuilt (m : Symbol) (s : State) : (emitSymbol m s).treeBuilt = s.treeBuilt := rfl
@[simp] theorem emitSymbol_rootValid (m : Symbol) (s : State) : (emitSymbol m s).rootValid = s.rootValid := rfl
@[simp] theorem emitSymbol_cmd (m : Symbol) (s : State) : (emitSymbol m s).cmd = s.cmd := rfl
@[simp] theorem emitSymbol_pending (m : Symbol) (s : State) : (emitSymbol m s).pending = s.pending := rfl
@[simp] theorem emitSymbol_errcode (m : Symbol) (s : State) : (emitSymbol m s).errcode = s.errcode := rfl
@[simp] theorem emitSymbol_errInfo (m : Symbol) (s : State) : (emitSymbol m s).errInfo = s.errInfo := rfl
@[simp] theorem emitSymbol_inLen (m : Symbol) (s : State) : (emitSymbol m s).inLen = s.inLen := rfl
@[simp] theorem emitSymbol_outLen (m : Symbol) (s : State) : (emitSymbol m s).outLen = BitVec.ofNat 32 (s.outLen.toNat + 1) := rfl
@[simp] theorem emitSymbol_payOff (m : Symbol) (s : State) : (emitSymbol m s).payOff = s.payOff := rfl
@[simp] theorem emitSymbol_payBits (m : Symbol) (s : State) : (emitSymbol m s).payBits = s.payBits := rfl
@[simp] theorem emitSymbol_decBV (m : Symbol) (s : State) : (emitSymbol m s).decBV = s.decBV := rfl
@[simp] theorem emitSymbol_encBits (m : Symbol) (s : State) : (emitSymbol m s).encBits = s.encBits := rfl
@[simp] theorem emitSymbol_hdrLen (m : Symbol) (s : State) : (emitSymbol m s).hdrLen = s.hdrLen := rfl
@[simp] theorem emitSymbol_nodeCnt (m : Symbol) (s : State) : (emitSymbol m s).nodeCnt = s.nodeCnt := rfl
@[simp] theorem emitSymbol_root (m : Symbol) (s : State) : (emitSymbol m s).root = s.root := rfl
@[simp] theorem emitSymbol_rootW (m : Symbol) (s : State) : (emitSymbol m s).rootW = s.rootW := rfl
@[simp] theorem emitSymbol_freq (m : Symbol) (s : State) : (emitSymbol m s).freq = s.freq := rfl
@[simp] theorem emitSymbol_code (m : Symbol) (s : State) : (emitSymbol m s).code = s.code := rfl
@[simp] theorem emitSymbol_node (m : Symbol) (s : State) : (emitSymbol m s).node = s.node := rfl
@[simp] theorem emitSymbol_ibuf (m : Symbol) (s : State) : (emitSymbol m s).ibuf = s.ibuf := rfl
@[simp] theorem emitSymbol_obuf (m : Symbol) (s : State) : (emitSymbol m s).obuf = s.obuf.write s.outLen.toNat m := rfl
@[simp] theorem emitSymbol_script (m : Symbol) (s : State) : (emitSymbol m s).script = s.script := rfl
@[simp] theorem emitSymbol_reads (m : Symbol) (s : State) : (emitSymbol m s).reads = s.reads := rfl
@[simp] theorem emitSymbol_draws (m : Symbol) (s : State) : (emitSymbol m s).draws = s.draws := rfl

/-! ## recordRead -/

@[simp] theorem recordRead_params (v : Word) (s : State) : (recordRead v s).params = s.params := rfl
@[simp] theorem recordRead_ctrlIE (v : Word) (s : State) : (recordRead v s).ctrlIE = s.ctrlIE := rfl
@[simp] theorem recordRead_done (v : Word) (s : State) : (recordRead v s).done = s.done := rfl
@[simp] theorem recordRead_werr (v : Word) (s : State) : (recordRead v s).werr = s.werr := rfl
@[simp] theorem recordRead_treeBuilt (v : Word) (s : State) : (recordRead v s).treeBuilt = s.treeBuilt := rfl
@[simp] theorem recordRead_rootValid (v : Word) (s : State) : (recordRead v s).rootValid = s.rootValid := rfl
@[simp] theorem recordRead_cmd (v : Word) (s : State) : (recordRead v s).cmd = s.cmd := rfl
@[simp] theorem recordRead_pending (v : Word) (s : State) : (recordRead v s).pending = s.pending := rfl
@[simp] theorem recordRead_errcode (v : Word) (s : State) : (recordRead v s).errcode = s.errcode := rfl
@[simp] theorem recordRead_errInfo (v : Word) (s : State) : (recordRead v s).errInfo = s.errInfo := rfl
@[simp] theorem recordRead_inLen (v : Word) (s : State) : (recordRead v s).inLen = s.inLen := rfl
@[simp] theorem recordRead_outLen (v : Word) (s : State) : (recordRead v s).outLen = s.outLen := rfl
@[simp] theorem recordRead_payOff (v : Word) (s : State) : (recordRead v s).payOff = s.payOff := rfl
@[simp] theorem recordRead_payBits (v : Word) (s : State) : (recordRead v s).payBits = s.payBits := rfl
@[simp] theorem recordRead_decBV (v : Word) (s : State) : (recordRead v s).decBV = s.decBV := rfl
@[simp] theorem recordRead_encBits (v : Word) (s : State) : (recordRead v s).encBits = s.encBits := rfl
@[simp] theorem recordRead_hdrLen (v : Word) (s : State) : (recordRead v s).hdrLen = s.hdrLen := rfl
@[simp] theorem recordRead_nodeCnt (v : Word) (s : State) : (recordRead v s).nodeCnt = s.nodeCnt := rfl
@[simp] theorem recordRead_root (v : Word) (s : State) : (recordRead v s).root = s.root := rfl
@[simp] theorem recordRead_rootW (v : Word) (s : State) : (recordRead v s).rootW = s.rootW := rfl
@[simp] theorem recordRead_freq (v : Word) (s : State) : (recordRead v s).freq = s.freq := rfl
@[simp] theorem recordRead_code (v : Word) (s : State) : (recordRead v s).code = s.code := rfl
@[simp] theorem recordRead_node (v : Word) (s : State) : (recordRead v s).node = s.node := rfl
@[simp] theorem recordRead_ibuf (v : Word) (s : State) : (recordRead v s).ibuf = s.ibuf := rfl
@[simp] theorem recordRead_obuf (v : Word) (s : State) : (recordRead v s).obuf = s.obuf := rfl
@[simp] theorem recordRead_script (v : Word) (s : State) : (recordRead v s).script = s.script := rfl
@[simp] theorem recordRead_reads (v : Word) (s : State) : (recordRead v s).reads = v :: s.reads := rfl
@[simp] theorem recordRead_draws (v : Word) (s : State) : (recordRead v s).draws = s.draws := rfl

/-! ## drawRead -/

@[simp] theorem drawRead_params (s : State) : (drawRead s).params = s.params := rfl
@[simp] theorem drawRead_ctrlIE (s : State) : (drawRead s).ctrlIE = s.ctrlIE := rfl
@[simp] theorem drawRead_done (s : State) : (drawRead s).done = s.done := rfl
@[simp] theorem drawRead_werr (s : State) : (drawRead s).werr = s.werr := rfl
@[simp] theorem drawRead_treeBuilt (s : State) : (drawRead s).treeBuilt = s.treeBuilt := rfl
@[simp] theorem drawRead_rootValid (s : State) : (drawRead s).rootValid = s.rootValid := rfl
@[simp] theorem drawRead_cmd (s : State) : (drawRead s).cmd = s.cmd := rfl
@[simp] theorem drawRead_pending (s : State) : (drawRead s).pending = s.pending := rfl
@[simp] theorem drawRead_errcode (s : State) : (drawRead s).errcode = s.errcode := rfl
@[simp] theorem drawRead_errInfo (s : State) : (drawRead s).errInfo = s.errInfo := rfl
@[simp] theorem drawRead_inLen (s : State) : (drawRead s).inLen = s.inLen := rfl
@[simp] theorem drawRead_outLen (s : State) : (drawRead s).outLen = s.outLen := rfl
@[simp] theorem drawRead_payOff (s : State) : (drawRead s).payOff = s.payOff := rfl
@[simp] theorem drawRead_payBits (s : State) : (drawRead s).payBits = s.payBits := rfl
@[simp] theorem drawRead_decBV (s : State) : (drawRead s).decBV = s.decBV := rfl
@[simp] theorem drawRead_encBits (s : State) : (drawRead s).encBits = s.encBits := rfl
@[simp] theorem drawRead_hdrLen (s : State) : (drawRead s).hdrLen = s.hdrLen := rfl
@[simp] theorem drawRead_nodeCnt (s : State) : (drawRead s).nodeCnt = s.nodeCnt := rfl
@[simp] theorem drawRead_root (s : State) : (drawRead s).root = s.root := rfl
@[simp] theorem drawRead_rootW (s : State) : (drawRead s).rootW = s.rootW := rfl
@[simp] theorem drawRead_freq (s : State) : (drawRead s).freq = s.freq := rfl
@[simp] theorem drawRead_code (s : State) : (drawRead s).code = s.code := rfl
@[simp] theorem drawRead_node (s : State) : (drawRead s).node = s.node := rfl
@[simp] theorem drawRead_ibuf (s : State) : (drawRead s).ibuf = s.ibuf := rfl
@[simp] theorem drawRead_obuf (s : State) : (drawRead s).obuf = s.obuf := rfl
@[simp] theorem drawRead_script (s : State) : (drawRead s).script = s.script := rfl
@[simp] theorem drawRead_reads (s : State) : (drawRead s).reads = Config.busyRead s.draws :: s.reads := rfl
@[simp] theorem drawRead_draws (s : State) : (drawRead s).draws = s.draws + 1 := rfl

/-! ## writeFreq -/

@[simp] theorem writeFreq_params (sym : Symbol) (v : Word) (s : State) : (writeFreq sym v s).params = s.params := rfl
@[simp] theorem writeFreq_ctrlIE (sym : Symbol) (v : Word) (s : State) : (writeFreq sym v s).ctrlIE = s.ctrlIE := rfl
@[simp] theorem writeFreq_done (sym : Symbol) (v : Word) (s : State) : (writeFreq sym v s).done = s.done := rfl
@[simp] theorem writeFreq_werr (sym : Symbol) (v : Word) (s : State) : (writeFreq sym v s).werr = s.werr := rfl
@[simp] theorem writeFreq_treeBuilt (sym : Symbol) (v : Word) (s : State) : (writeFreq sym v s).treeBuilt = false := rfl
@[simp] theorem writeFreq_rootValid (sym : Symbol) (v : Word) (s : State) : (writeFreq sym v s).rootValid = s.rootValid := rfl
@[simp] theorem writeFreq_cmd (sym : Symbol) (v : Word) (s : State) : (writeFreq sym v s).cmd = s.cmd := rfl
@[simp] theorem writeFreq_pending (sym : Symbol) (v : Word) (s : State) : (writeFreq sym v s).pending = s.pending := rfl
@[simp] theorem writeFreq_errcode (sym : Symbol) (v : Word) (s : State) : (writeFreq sym v s).errcode = s.errcode := rfl
@[simp] theorem writeFreq_errInfo (sym : Symbol) (v : Word) (s : State) : (writeFreq sym v s).errInfo = s.errInfo := rfl
@[simp] theorem writeFreq_inLen (sym : Symbol) (v : Word) (s : State) : (writeFreq sym v s).inLen = s.inLen := rfl
@[simp] theorem writeFreq_outLen (sym : Symbol) (v : Word) (s : State) : (writeFreq sym v s).outLen = s.outLen := rfl
@[simp] theorem writeFreq_payOff (sym : Symbol) (v : Word) (s : State) : (writeFreq sym v s).payOff = s.payOff := rfl
@[simp] theorem writeFreq_payBits (sym : Symbol) (v : Word) (s : State) : (writeFreq sym v s).payBits = s.payBits := rfl
@[simp] theorem writeFreq_decBV (sym : Symbol) (v : Word) (s : State) : (writeFreq sym v s).decBV = s.decBV := rfl
@[simp] theorem writeFreq_encBits (sym : Symbol) (v : Word) (s : State) : (writeFreq sym v s).encBits = s.encBits := rfl
@[simp] theorem writeFreq_hdrLen (sym : Symbol) (v : Word) (s : State) : (writeFreq sym v s).hdrLen = s.hdrLen := rfl
@[simp] theorem writeFreq_nodeCnt (sym : Symbol) (v : Word) (s : State) : (writeFreq sym v s).nodeCnt = s.nodeCnt := rfl
@[simp] theorem writeFreq_root (sym : Symbol) (v : Word) (s : State) : (writeFreq sym v s).root = s.root := rfl
@[simp] theorem writeFreq_rootW (sym : Symbol) (v : Word) (s : State) : (writeFreq sym v s).rootW = s.rootW := rfl
@[simp] theorem writeFreq_freq (sym : Symbol) (v : Word) (s : State) : (writeFreq sym v s).freq = tableSet s.freq sym v := rfl
@[simp] theorem writeFreq_code (sym : Symbol) (v : Word) (s : State) : (writeFreq sym v s).code = s.code := rfl
@[simp] theorem writeFreq_node (sym : Symbol) (v : Word) (s : State) : (writeFreq sym v s).node = s.node := rfl
@[simp] theorem writeFreq_ibuf (sym : Symbol) (v : Word) (s : State) : (writeFreq sym v s).ibuf = s.ibuf := rfl
@[simp] theorem writeFreq_obuf (sym : Symbol) (v : Word) (s : State) : (writeFreq sym v s).obuf = s.obuf := rfl
@[simp] theorem writeFreq_script (sym : Symbol) (v : Word) (s : State) : (writeFreq sym v s).script = s.script := rfl
@[simp] theorem writeFreq_reads (sym : Symbol) (v : Word) (s : State) : (writeFreq sym v s).reads = s.reads := rfl
@[simp] theorem writeFreq_draws (sym : Symbol) (v : Word) (s : State) : (writeFreq sym v s).draws = s.draws := rfl

end Sys2Proof.Machine
end

