-- ==== Sys2Proof/Laws/Results.lean ====
section
/-! SUPPORT. What the end of a command, a composed body, a scanned byte and a step can do: one inversion lemma each. -/

namespace Sys2Proof.Machine

@[simp] theorem finish_done (s : State) : (CmdResult.done s).finish = .next (complete s) := rfl
@[simp] theorem finish_raise (s : State) (e : ErrCode) (n : Nat) :
    (CmdResult.raise s e n).finish = .next (raiseError e n s) := rfl
@[simp] theorem finish_fault (f : Fault) : (CmdResult.fault f).finish = .fault f := rfl

/-- A command that reaches a next state completed or raised an error. -/
theorem finish_eq_next {r : CmdResult} {t : State} (h : r.finish = .next t) :
    (∃ s, r = .done s ∧ t = complete s) ∨ ∃ s e n, r = .raise s e n ∧ t = raiseError e n s := by
  cases r with
  | done s => exact .inl ⟨s, rfl, by simpa using h.symm⟩
  | raise s e n => exact .inr ⟨s, e, n, rfl, by simpa using h.symm⟩
  | fault f => simp at h

/-- A command faults exactly where its body does. -/
theorem finish_eq_fault {r : CmdResult} {f : Fault} : r.finish = .fault f ↔ r = .fault f := by
  cases r <;> simp

@[simp] theorem andThen_done (s : State) (k : State → CmdResult) : (CmdResult.done s).andThen k = k s := rfl
@[simp] theorem andThen_raise (s : State) (e : ErrCode) (n : Nat) (k : State → CmdResult) :
    (CmdResult.raise s e n).andThen k = .raise s e n := rfl
@[simp] theorem andThen_fault (f : Fault) (k : State → CmdResult) : (CmdResult.fault f).andThen k = .fault f := rfl

/-- A composed body that ends at its `complete()` went through the first body's. -/
theorem andThen_eq_done {r : CmdResult} {k : State → CmdResult} {t : State} :
    r.andThen k = .done t ↔ ∃ s, r = .done s ∧ k s = .done t := by
  cases r <;> simp

/-- A composed body raises where its first body does, or after it where its second does. -/
theorem andThen_eq_raise {r : CmdResult} {k : State → CmdResult} {t : State} {e : ErrCode} {n : Nat} :
    r.andThen k = .raise t e n ↔ r = .raise t e n ∨ ∃ s, r = .done s ∧ k s = .raise t e n := by
  cases r <;> simp

@[simp] theorem stop_result_raise (s : State) (e : ErrCode) (n : Nat) : (Stop.raise e n).result s = .raise s e n := rfl
@[simp] theorem stop_result_fault (s : State) (f : Fault) : (Stop.fault f).result s = .fault f := rfl

/-- A scan's bind that answers went through its first part. -/
theorem bind_eq_ok {α β : Type} {x : Except Stop α} {k : α → Except Stop β} {b : β} :
    (x >>= k) = .ok b ↔ ∃ a, x = .ok a ∧ k a = .ok b := by
  cases x <;> simp [bind, Except.bind]

/-- A scan's bind stops where its first part does, or after it where its second does. -/
theorem bind_eq_error {α β : Type} {x : Except Stop α} {k : α → Except Stop β} {e : Stop} :
    (x >>= k) = .error e ↔ x = .error e ∨ ∃ a, x = .ok a ∧ k a = .error e := by
  cases x <;> simp [bind, Except.bind]

@[simp] theorem bind_ok {α β : Type} (a : α) (k : α → Except Stop β) : ((Except.ok a : Except Stop α) >>= k) = k a := rfl

/-- A byte is read exactly when it has been written. -/
theorem inputByte_eq_ok {s : State} {i : Nat} {b : Byte} : inputByte s i = .ok b ↔ s.ibuf.read i = some b := by
  unfold inputByte
  split <;> simp_all

/-- A read stops only at an `uninit` byte. -/
theorem inputByte_eq_error {s : State} {i : Nat} {e : Stop} :
    inputByte s i = .error e ↔ s.ibuf.read i = none ∧ e = .fault (.uninitByte .input i) := by
  unfold inputByte
  cases s.ibuf.read i <;> simp [eq_comm]

/-- The parser sees a byte exactly when it lies inside the input and has been written. -/
theorem peekByte_eq_ok {s : State} {p : Nat} {b : Byte} :
    peekByte s p = .ok b ↔ p < s.inLen.toNat ∧ s.ibuf.read p = some b := by
  unfold peekByte
  split
  · simp; omega
  · rw [inputByte_eq_ok]; simp_all

/-- Bytes read in order are those the buffer holds. -/
theorem inputBytes_eq_ok {s : State} {n i : Nat} {bs : List Byte} :
    inputBytes s n i = .ok bs ↔ bs.length = n ∧ ∀ k < n, s.ibuf.read (i + k) = bs[k]? := by
  induction n generalizing i bs with
  | zero => simp [inputBytes, eq_comm (a := ([] : List Byte))]
  | succ n ih =>
    unfold inputBytes
    simp only [bind_eq_ok, inputByte_eq_ok, ih, Except.ok.injEq]
    constructor
    · rintro ⟨b, hb, cs, ⟨hl, hc⟩, rfl⟩
      refine ⟨by simp [hl], fun k hk => ?_⟩
      cases k with
      | zero => simpa using hb
      | succ k =>
        have := hc k (by omega)
        rw [show i + 1 + k = i + (k + 1) by omega] at this
        simpa using this
    · rintro ⟨hl, hc⟩
      cases bs with
      | nil => simp at hl
      | cons b cs =>
        refine ⟨b, by simpa using hc 0 (by omega), cs, ⟨by simpa using hl, fun k hk => ?_⟩, rfl⟩
        have := hc (k + 1) (by omega)
        rw [show i + (k + 1) = i + 1 + k by omega] at this
        simpa using this

/-- What a core step can do: the decoded command's meaning, or the illegal-command rule. -/
theorem coreStep_cases (w : Word) (s : State) :
    (∃ i, decode w = .ok i ∧ coreStep w s = exec i s) ∨
      (∃ e, decode w = .error e ∧ coreStep w s = .next (raiseError .illegalCmd w.toNat s)) := by
  unfold coreStep
  cases h : decode w with
  | ok i => exact .inl ⟨i, rfl, rfl⟩
  | error e => exact .inr ⟨e, rfl, rfl⟩

/-- What a step can do: the script's next event, or the pending command, or nothing. -/
theorem step_cases (s : State) :
    (∃ e rest, s.script = e :: rest ∧ step s = runEvent e { s with script := rest }) ∨
      (∃ w, s.script = [] ∧ s.pending = some w ∧ step s = coreStep w s) ∨
      (s.script = [] ∧ s.pending = none ∧ step s = .fault .noEnabledStep) := by
  unfold step nextEvent
  cases hs : s.script with
  | cons e rest => exact .inl ⟨e, rest, rfl, rfl⟩
  | nil =>
    cases hp : s.pending with
    | some w => exact .inr (.inl ⟨w, rfl, rfl, rfl⟩)
    | none => exact .inr (.inr ⟨rfl, rfl, rfl⟩)

/-- What a host read can do: it records a value, or meets an `uninit` byte. -/
theorem hostRead_cases (a : Offset) (s : State) :
    hostRead a s = .next (drawRead s) ∨ (∃ v, hostRead a s = .next (recordRead v s)) ∨
      ∃ f, hostRead a s = .fault f ∧ slotWord s (slotOf s.params a) = .error f := by
  unfold hostRead
  split
  · exact .inl rfl
  · cases h : slotWord s (slotOf s.params a) with
    | ok v => exact .inr (.inl ⟨v, rfl⟩)
    | error f => exact .inr (.inr ⟨f, rfl, rfl⟩)

/-- What a host write can do: it reaches its slot, or it is dropped and sets WERR. -/
theorem hostWrite_cases (a : Offset) (v : Word) (s : State) :
    hostWrite a v s = writeSlot (slotOf s.params a) v s ∨
      (s.busy = true ∧ busyWritable (slotOf s.params a) = false ∧ hostWrite a v s = { s with werr := true }) := by
  unfold hostWrite
  split
  · next h => exact .inr (by simpa using h)
  · exact .inl rfl

end Sys2Proof.Machine
end

