-- ==== Sys2Proof/Laws/Table.lean ====
section
/-! SUPPORT. The laws of the 256-entry tables and of the node arena. -/

namespace Sys2Proof.Machine

@[simp] theorem tableGet_set_same {α : Type} (t : Vector α 256) (s : Symbol) (x : α) :
    tableGet (tableSet t s x) s = x := by
  simp [tableGet, tableSet]

theorem tableGet_set_other {α : Type} (t : Vector α 256) {s r : Symbol} (x : α) (h : r ≠ s) :
    tableGet (tableSet t s x) r = tableGet t r := by
  have : s.toNat ≠ r.toNat := fun e => h (BitVec.eq_of_toNat_eq e.symm)
  simp [tableGet, tableSet, this]

@[simp] theorem tableGet_replicate {α : Type} (x : α) (s : Symbol) : tableGet (Vector.replicate 256 x) s = x := by
  simp [tableGet]

@[simp] theorem tableGet_empty (s : Symbol) : tableGet emptyCodeTable s = CodeEntry.empty := tableGet_replicate _ s

theorem allSymbols_length : allSymbols.length = 256 := by simp [allSymbols]

theorem mem_allSymbols (s : Symbol) : s ∈ allSymbols :=
  List.mem_map.2 ⟨s.toNat, List.mem_range.2 s.isLt, by simp⟩

/-- The n-th symbol is n. -/
theorem allSymbols_getElem (n : Nat) (h : n < allSymbols.length) : allSymbols[n] = BitVec.ofNat 8 n := by
  simp [allSymbols]

/-- The entries of a table are its symbols with what they hold. -/
theorem mem_tableEntries {α : Type} {t : Vector α 256} {s : Symbol} {x : α} :
    (s, x) ∈ tableEntries t ↔ tableGet t s = x := by
  constructor
  · intro h
    obtain ⟨n, hn, he⟩ := List.getElem_of_mem h
    simp only [tableEntries, List.getElem_zip, Prod.mk.injEq] at he
    have hl : n < 256 := by
      have := hn
      simp only [tableEntries, List.length_zip, allSymbols_length] at this
      omega
    obtain ⟨h1, h2⟩ := he
    rw [allSymbols_getElem] at h1
    subst h1
    simpa [tableGet, Nat.mod_eq_of_lt hl] using h2
  · intro h
    have hs : s.toNat < 256 := s.isLt
    refine List.mem_iff_getElem.2 ⟨s.toNat, by simp [tableEntries, allSymbols_length, hs], ?_⟩
    simp only [tableEntries, List.getElem_zip, allSymbols_getElem]
    rw [← h]
    simp [tableGet]

end Sys2Proof.Machine
end

