-- ==== Sys2Proof/Laws/Tree.lean ====
section
/-! SUPPORT. Counting facts about the arbiter, the MERGE loop, the arena and the leaf walk. -/

namespace Sys2Proof.Machine

/-- The arbiter answers exactly when it holds an entry. -/
theorem extractMin_eq_none {pq : List PQEntry} : extractMin pq = none ↔ pq = [] := by
  cases pq with
  | nil => simp [extractMin]
  | cons e es =>
    unfold extractMin
    split
    · simp
    · split <;> simp

/-- Extraction removes one entry. -/
theorem extractMin_length {pq : List PQEntry} {m : PQEntry} {rest : List PQEntry} (h : extractMin pq = some (m, rest)) :
    rest.length + 1 = pq.length := by
  induction pq generalizing m rest with
  | nil => simp [extractMin] at h
  | cons e es ih =>
    unfold extractMin at h
    split at h
    · next he =>
      rw [extractMin_eq_none] at he
      simp_all
    · next m' rest' he =>
      split at h <;> simp only [Option.some.injEq, Prod.mk.injEq] at h <;> obtain ⟨-, rfl⟩ := h
      · simpa using ih he
      · simp

/-- A merge turns two entries into one and adds one node. -/
theorem mergeLoop_length (fuel : Nat) (pq : List PQEntry) (nodes : List Node) (hf : pq.length ≤ fuel + 1)
    (hp : pq ≠ []) :
    (mergeLoop fuel pq nodes).1.length = 1 ∧ (mergeLoop fuel pq nodes).2.length + 1 = nodes.length + pq.length := by
  induction fuel generalizing pq nodes with
  | zero =>
    have : pq.length ≠ 0 := by simpa using hp
    simp only [mergeLoop]
    omega
  | succ fuel ih =>
    have h0 : pq.length ≠ 0 := by simpa using hp
    unfold mergeLoop
    split
    · next h => exact absurd (extractMin_eq_none.1 h) hp
    · next a pq1 h =>
      have h1 := extractMin_length h
      split
      · next h2 =>
        rw [extractMin_eq_none] at h2
        subst h2
        simp only [List.length_nil] at h1
        constructor <;> dsimp only <;> omega
      · next b pq2 h2 =>
        have h3 := extractMin_length h2
        have := ih (⟨a.weight + b.weight, nodes.length⟩ :: pq2) (nodes ++ [mergeNode a b])
          (by simp only [List.length_cons]; omega) (by simp)
        simp only [List.length_cons, List.length_append, List.length_nil] at this
        omega

theorem presentSymbols_length_le (freq : Vector Word 256) : (presentSymbols freq).length ≤ 256 := by
  refine (List.length_filter_le _ _).trans ?_
  simp [tableEntries, allSymbols_length]

/-- Every leaf's path in a walk from path `c` is at most 255 bits longer than the bound leaves room for. -/
theorem leafPaths_length {arena : Vector Node 511} {depth m : Nat} {c : BitStr} {x : Symbol × BitStr}
    (h : x ∈ leafPaths arena depth m c) : c.length ≤ x.2.length ∧ x.2.length < c.length + depth := by
  induction depth generalizing m c with
  | zero => simp [leafPaths] at h
  | succ d ih =>
    unfold leafPaths at h
    split at h
    · rcases List.mem_append.1 h with h | h <;>
      · have := ih h
        simp only [List.length_append, List.length_cons, List.length_nil] at this
        omega
    · simp only [List.mem_singleton] at h
      subst h
      simp

/-- A node written to the arena is the one read back. -/
theorem arenaGet_setIfInBounds (arena : Vector Node 511) (n k : Nat) (nd : Node) (h : n < 511) :
    arenaGet (arena.setIfInBounds n nd) k = if k = n then nd else arenaGet arena k := by
  unfold arenaGet
  simp only [Vector.toList_setIfInBounds, List.getD_eq_getElem?_getD, List.getElem?_set, Vector.length_toList]
  split <;> simp_all [eq_comm]

end Sys2Proof.Machine
end

