-- ==== Sys2Proof/Tests/Slice0.lean ====
section
/-! SUPPORT. Tests of the model against the words and vectors of the spec, and for each obligation with hypotheses a
concrete state that meets them. Every expected value is from spec/95_test_vectors.md or spec/30_encoding.md R133. -/

namespace Sys2Proof.Tests

open Sys2Proof.Machine

/- One theorem after the other: each kernel evaluation waits for the declarations before it, and a thread for each of them
at once does not fit in memory. -/
set_option Elab.async false

/-! ## Helpers -/

/-- A test on the next state of an outcome. -/
def after (o : Host.Outcome State Fault Refusal) (p : State → Bool) : Bool :=
  match o with
  | .next t => p t
  | .fault _ => false
  | .refused _ => false

theorem next_of_after {o : Host.Outcome State Fault Refusal} {p : State → Bool} (h : after o p = true) :
    ∃ t, o = .next t ∧ p t = true := by
  cases o with
  | next t => exact ⟨t, rfl, h⟩
  | fault f => exact absurd h (by simp [after])
  | refused r => exact absurd h (by simp [after])

theorem next_of_runs {o : Host.Outcome State Fault Refusal} (h : after o (fun _ => true) = true) : ∃ t, o = .next t :=
  (next_of_after h).imp fun _ e => e.1

/-- A small machine, 32 input bytes and 64 output bytes, whose IBUF[0..IN_LEN−1] is `bs`. -/
def machine (bs : List Byte) : State :=
  { State.resetWith ⟨32, 64⟩ with
    ibuf := bs.zipIdx.map (fun x => (x.2, x.1)), inLen := BitVec.ofNat 32 bs.length }

/-- The machine idle, or with a pending word, and with a script. -/
def scripted (pending : Option Word) (script : List Event) : State :=
  { machine [] with pending := pending, script := script }

/-- A code table with a code for two symbols. -/
def twoCodes (a : Symbol) (c : BitStr) (b : Symbol) (d : BitStr) : Vector CodeEntry 256 :=
  tableSet (tableSet emptyCodeTable a (.ofBits c)) b (.ofBits d)

theorem twoCodes_valid {a b sym : Symbol} {c d : BitStr} (h : (tableGet (twoCodes a c b d) sym).valid = true) :
    sym = a ∨ sym = b := by
  by_cases h1 : sym = b
  · exact .inr h1
  · by_cases h2 : sym = a
    · exact .inl h2
    · simp [twoCodes, tableGet_set_other, h1, h2, CodeEntry.empty] at h

/-- a:"0", b:"1". -/
def abCodes : Vector CodeEntry 256 := twoCodes 0x61#8 [false] 0x62#8 [true]

/-- Counts for two symbols. -/
def twoCounts (a : Symbol) (m : Word) (b : Symbol) (n : Word) : Vector Word 256 :=
  tableSet (tableSet (Vector.replicate 256 0#32) a m) b n

/-- The bytes OBUF lists, in order. -/
def outBytes (s : State) : List Byte := s.obuf.map Prod.snd

/-- FREQ and BUILD done on "aab" (vector L2-B3): leaves a (2) and b (1), root 2 with b on the left. -/
def built : State :=
  { machine [0x61#8, 0x61#8, 0x62#8] with
    freq := twoCounts 0x61#8 2#32 0x62#8 1#32
    node := arenaWrite (Vector.replicate 511 Node.zero) 0
      [⟨false, 0x61#8, 2#40, 0#9, 0#9⟩, ⟨false, 0x62#8, 1#40, 0#9, 0#9⟩, ⟨true, 0#8, 3#40, 1#9, 0#9⟩]
    nodeCnt := 3#9, root := 2#9, rootW := 3#40, rootValid := true, treeBuilt := true, done := true }

/-- FREQ and BUILD done on "aaaa" (vector L2-B4): the root is the leaf a. -/
def builtLeaf : State :=
  { machine [0x61#8, 0x61#8, 0x61#8, 0x61#8] with
    freq := tableSet (Vector.replicate 256 0#32) 0x61#8 4#32
    node := arenaWrite (Vector.replicate 511 Node.zero) 0 [⟨false, 0x61#8, 4#40, 0#9, 0#9⟩]
    nodeCnt := 1#9, root := 0#9, rootW := 4#40, rootValid := true, treeBuilt := true, done := true }

/-- FREQ and BUILD done on an empty input (vector L2-B5): no root. -/
def builtEmpty : State := { machine [] with treeBuilt := true, done := true }

/-- The invariant from its decidable parts, for an idle state. -/
theorem inv_of_idle {s : State} (hp : s.pending = none)
    (h1 : s.params.wf ∧ s.ibuf.wf ∧ s.ibuf.below s.params.ibufBytes ∧ s.obuf.wf ∧ s.obuf.below s.params.obufBytes)
    (h2 : s.errcode ∈ listedCodes ∧ (s.errcode = 0#8 → s.errInfo = 0#32))
    (h3 : ∀ e ∈ s.code.toList, e.valid = true → e.len ≠ 0#8) (h4 : s.treeBuilt = true → TreeMatches s s.freq)
    (h5 : (s.rootValid = false → s.nodeCnt = 0#9 ∧ s.root = 0#9 ∧ s.rootW = 0#40) ∧ s.nodeCnt.toNat ≤ 511 ∧
      (s.rootValid = true → s.root.toNat < s.nodeCnt.toNat)) : s.Inv :=
  ⟨h1.1, h1.2.1, h1.2.2.1, h1.2.2.2.1, h1.2.2.2.2, fun h => by simp [State.busy, hp] at h, fun w h => by simp [hp] at h,
    h2.1, h2.2, h3, h4, h5.1, h5.2.1, h5.2.2⟩

theorem built_inv : built.Inv :=
  inv_of_idle rfl (by decide) (by decide) (by decide +kernel) (by decide +kernel) (by decide)

theorem builtLeaf_inv : builtLeaf.Inv :=
  inv_of_idle rfl (by decide) (by decide) (by decide +kernel) (by decide +kernel) (by decide)

theorem builtEmpty_inv : builtEmpty.Inv :=
  inv_of_idle rfl (by decide) (by decide) (by decide +kernel) (by decide +kernel) (by decide)

/-! ## Well-formedness: one ill-formed term for each check (00_scope.md R8, 30_encoding.md R131, R134) -/

theorem test_ibuf_size_zero_refused : ¬Params.ibufOk ⟨0, 1⟩ := by decide
theorem test_ibuf_size_too_large_refused : ¬Params.ibufOk ⟨2 ^ 20 + 1, 1⟩ := by decide
theorem test_obuf_size_zero_refused : ¬Params.obufOk ⟨1, 0⟩ := by decide
theorem test_obuf_size_too_large_refused : ¬Params.obufOk ⟨1, 2 ^ 20 + 1⟩ := by decide
theorem test_params_limits_accepted : Params.wf ⟨1, 1⟩ ∧ Params.wf ⟨2 ^ 20, 2 ^ 20⟩ := by decide
theorem test_reserved_bit_refused : reservedClear 0x80000020#32 = false ∧ wordWellFormed 0x00000200#32 = false := by decide
theorem test_unlisted_op_refused : opListed 0x000000FF#32 = false ∧ wordWellFormed 0x00000022#32 = false := by decide
theorem test_format_bit_refused : formatBitOk 0x00000130#32 = false ∧ wordWellFormed 0x00000100#32 = false := by decide
theorem test_every_instr_wf : ∀ i ∈ [Instr.nop, .clear, .freq, .build, .assign, .encode, .decode, .hdrw, .hdrwL, .hdrp,
    .hdrpL, .compress, .compressL, .decompress, .decompressL], i.wf = true := by decide

/-! ## Decoding: the words of 30_encoding.md R133, and the illegal words of vectors L2-X3 to L2-X6 -/

theorem test_decode_nop : decode 0b00000000000000000000000000000000#32 = .ok .nop := by decide
theorem test_decode_clear : decode 0b00000000000000000000000000000001#32 = .ok .clear := by decide
theorem test_decode_freq : decode 0b00000000000000000000000000010000#32 = .ok .freq := by decide
theorem test_decode_build : decode 0b00000000000000000000000000100000#32 = .ok .build := by decide
theorem test_decode_assign : decode 0b00000000000000000000000000100001#32 = .ok .assign := by decide
theorem test_decode_encode : decode 0b00000000000000000000000000110000#32 = .ok .encode := by decide
theorem test_decode_decode : decode 0b00000000000000000000000000110001#32 = .ok .decode := by decide
theorem test_decode_hdrw : decode 0b00000000000000000000000001000000#32 = .ok .hdrw := by decide
theorem test_decode_hdrwL : decode 0b00000000000000000000000101000000#32 = .ok .hdrwL := by decide
theorem test_decode_hdrp : decode 0b00000000000000000000000001000001#32 = .ok .hdrp := by decide
theorem test_decode_hdrpL : decode 0b00000000000000000000000101000001#32 = .ok .hdrpL := by decide
theorem test_decode_compress : decode 0b00000000000000000000000001010000#32 = .ok .compress := by decide
theorem test_decode_compressL : decode 0b00000000000000000000000101010000#32 = .ok .compressL := by decide
theorem test_decode_decompress : decode 0b00000000000000000000000001010001#32 = .ok .decompress := by decide
theorem test_decode_decompressL : decode 0b00000000000000000000000101010001#32 = .ok .decompressL := by decide
theorem test_decode_rejects : decode 0x000000FF#32 = .error .unlistedOp ∧
    decode 0x00000100#32 = .error .formatBitOnFormatC ∧ decode 0x00000130#32 = .error .formatBitOnFormatC ∧
    decode 0x80000020#32 = .error .reservedBitSet := by decide
theorem test_decode_table_word : decodeTableWord 32 0x150 = some .compressL ∧ decodeTableWord 8 0x31 = some .decode ∧
    decodeTableWord 32 0x22 = none := by decide
theorem test_opcode_rows_disjoint : opcodeMap.Pairwise (fun r q => r.pattern &&& q.mask ≠ q.pattern &&& r.mask) := by
  decide

/-! ## Reset, acceptance, the step -/

/-- Memory at reset is in canonical form and every byte of it is `uninit` (70_reset_and_hazards.md R311). -/
theorem test_reset_memory : State.reset.ibuf.wf ∧ State.reset.obuf.wf ∧ State.reset.ibuf.read 0 = none := by decide

/-- Vector L2-X1: a write of 0 to CMD is accepted, STATUS reads 0x01, and 0x02 after the core's step. -/
theorem test_accept_nop :
    after (step (scripted none [writeAt 0x010 0#32])) (fun t => statusWord t == 0x01#32 && t.pending == some 0#32) = true ∧
    after (step (scripted (some 0#32) [])) (fun t => statusWord t == 0x02#32 && t.errcode == 0#8) = true := by
  decide +kernel

/-- Vectors L2-X3 and L2-X6: an illegal word completes with E_ILLEGAL_CMD and the word in ERR_INFO; STATUS reads 0x06. -/
theorem test_illegal_word :
    after (step (scripted (some 0xFF#32) []))
      (fun t => t.errcode == 0x01#8 && t.errInfo == 0xFF#32 && statusWord t == 0x06#32) = true ∧
    after (step (scripted (some 0x80000020#32) [])) (fun t => t.errInfo == 0x80000020#32 && !t.treeBuilt) = true := by
  decide +kernel

/-- Vectors L2-X9 and L2-X10: the write of IN_LEN before the core's step is dropped and sets WERR (STATUS 0x09). -/
theorem test_busy_write_dropped :
    after (step (scripted (some 0x20#32) [writeAt 0x01C 5#32])) (fun t => t.inLen == 0#32 && statusWord t == 0x09#32) =
      true ∧
    after (step (scripted none [writeAt 0x01C 5#32])) (fun t => t.inLen == 5#32 && !t.werr) = true := by
  decide +kernel

/-- Vector L2-X12: STATUS = 0x0A, the write of 0x08 clears WERR alone. -/
theorem test_status_write_one_clears :
    after (step { scripted none [writeAt 0x00C 8#32] with done := true, werr := true }) (fun t => statusWord t == 0x02#32) =
      true := by
  decide +kernel

/-- After reset, with nothing placed and nothing to come, no agent has a step. -/
theorem test_idle_is_stuck : step State.reset = .fault .noEnabledStep := rfl

/-- The word placed by `withFetchWord` is run by the very next step. -/
theorem test_fetch_runs : after (step (State.reset.withFetchWord 32 0x20)) (fun t => t.treeBuilt && t.done) = true := by
  decide +kernel

/-- An IBUF byte nothing has written stops the read (20_memory.md R116). -/
theorem test_uninit_read_faults : step (scripted none [readAt 0x400004]) = .fault (.uninitByte .input 1) := by rfl

/-- Vector L2-B7: ROOT_W reads 0xFFFFFFFE and 0x00000001; vector L1-2: NODE[10] word 3 reads 0x00090008. -/
theorem test_wide_reads :
    regWord { machine [] with rootW := 0x1FFFFFFFE#40 } .rootWLo = 0xFFFFFFFE#32 ∧
    regWord { machine [] with rootW := 0x1FFFFFFFE#40 } .rootWHi = 0x00000001#32 ∧
    nodeWord ⟨true, 0#8, 35#40, 8#9, 9#9⟩ 3 = 0x00090008#32 ∧ nodeWord ⟨true, 0#8, 35#40, 8#9, 9#9⟩ 0 = 0x80000000#32 := by
  decide

/-- Vector L2-E11: word 0 = 0x80000003 and word 1 = 0xFFFFFFFF give the effective code "111". -/
theorem test_effective_code :
    (writeCodeWord 0 0x80000003#32 (writeCodeWord 1 0xFFFFFFFF#32 .empty)).effective = [true, true, true] := by
  decide +kernel

/-- A run ends when no host access is left and BUSY = 0, whatever turns and resets still stand in the script, and its
observation is the state before them; a pending command or a later access means it has not ended
(70_reset_and_hazards.md R332). -/
theorem test_run_ended :
    (scripted none [.reset]).runEnded = true ∧ (scripted none [.core, .reset]).runEnded = true ∧
    (scripted (some 0#32) []).runEnded = false ∧ (scripted none [.reset, readAt 0x00C]).runEnded = false ∧
    ({ scripted none [.reset] with outLen := 7#32 } : State).observed 0x020#24 = some (.ok 7#32) ∧
    (scripted (some 0#32) []).observed 0x020#24 = none := by decide +kernel

/-! ## One step of each command -/

theorem test_nop : after (exec .nop { machine [] with errcode := 1#8, errInfo := 0xFF#32 })
    (fun t => t.errcode == 0#8 && t.errInfo == 0#32 && statusWord t == 0x02#32) = true := by decide +kernel

/-- Vector L2-X2. -/
theorem test_clear : after (exec .clear { built with code := abCodes, outLen := 5#32, decBV := true })
    (fun t => nsym t.code == 0 && freqAt t 0x61#8 == 0#32 && t.nodeCnt == 0#9 && t.outLen == 0#32 && !t.decBV &&
      statusWord t == 0x02#32 && t.inLen == 3#32) = true := by decide +kernel

/-- Vector L2-F4. -/
theorem test_freq : after (exec .freq (machine [0x00#8, 0xFF#8, 0x00#8]))
    (fun t => freqAt t 0x00#8 == 2#32 && freqAt t 0xFF#8 == 1#32 && freqAt t 0x01#8 == 0#32 && !t.treeBuilt) = true := by
  decide +kernel

/-- Vector L2-F3, with 32 bytes of input buffer. -/
theorem test_freq_range : after (exec .freq { built with inLen := 33#32 })
    (fun t => t.errcode == 0x02#8 && t.errInfo == 33#32 && freqAt t 0x61#8 == 2#32 && t.treeBuilt) = true := by
  decide +kernel

/-- Vector L2-B3: b, the lighter, is the left child. -/
theorem test_build : after (exec .build { machine [] with freq := twoCounts 0x61#8 2#32 0x62#8 1#32 })
    (fun t => t.nodeCnt == 3#9 && t.root == 2#9 && t.rootW == 3#40 && t.rootValid && t.treeBuilt &&
      arenaGet t.node 2 == ⟨true, 0#8, 3#40, 1#9, 0#9⟩) = true := by decide +kernel

/-- Vector L2-B7: the weight is wider than a word, and the tie goes to the lower index. -/
theorem test_build_wide : after (exec .build { machine [] with freq := twoCounts 0#8 0xFFFFFFFF#32 1#8 0xFFFFFFFF#32 })
    (fun t => t.rootW == 0x1FFFFFFFE#40 && arenaGet t.node 2 == ⟨true, 0#8, 0x1FFFFFFFE#40, 0#9, 1#9⟩) = true := by
  decide +kernel

/-- Vectors L2-A3 and L2-A4. -/
theorem test_assign :
    after (exec .assign built) (fun t => (codeAt t 0x61#8).effective == [true] && (codeAt t 0x62#8).effective == [false] &&
      nsym t.code == 2) = true ∧
    after (exec .assign builtLeaf) (fun t => codeAt t 0x61#8 == ⟨true, 1#8, 0#256⟩ && nsym t.code == 1) = true := by
  decide +kernel

/-- Vector L2-A8. -/
theorem test_assign_seq : after (exec .assign { machine [] with code := abCodes })
    (fun t => t.errcode == 0x03#8 && t.errInfo == 0#32 && (codeAt t 0x61#8).valid) = true := by decide +kernel

/-- Vector L2-E10: a nine-bit code across two byte boundaries. -/
theorem test_encode : after (exec .encode { machine [0x41#8, 0x41#8] with
      code := tableSet emptyCodeTable 0x41#8 ⟨true, 9#8, 0x155#256⟩ })
    (fun t => t.obuf == [(0, 0xAA#8), (1, 0xD5#8), (2, 0x40#8)] && t.outLen == 3#32 && t.encBits == 18#32) = true := by
  decide +kernel

/-- Vector L2-E4. -/
theorem test_encode_nocode : after (exec .encode { machine [0x61#8, 0x62#8] with
      code := tableSet emptyCodeTable 0x61#8 ⟨true, 1#8, 0#256⟩ })
    (fun t => t.errcode == 0x04#8 && t.errInfo == 0x00000162#32 && t.obuf == [] && t.outLen == 0#32) = true := by
  decide +kernel

/-- Vector L2-D14: the pad bits are never decoded with BV = 1. -/
theorem test_decode : after (exec .decode { machine [0x0F#8] with
      code := tableSet emptyCodeTable 0x61#8 ⟨true, 1#8, 0#256⟩, decBV := true, payBits := 4#32 })
    (fun t => outBytes t == [0x61#8, 0x61#8, 0x61#8, 0x61#8] && t.outLen == 4#32 && t.errcode == 0#8) = true := by
  decide +kernel

/-- Vector L2-D14 with BV = 0: the pad bits 1111 are left over. -/
theorem test_decode_incomplete : after (exec .decode { machine [0x0F#8] with
      code := tableSet emptyCodeTable 0x61#8 ⟨true, 1#8, 0#256⟩ })
    (fun t => t.outLen == 4#32 && t.errcode == 0x20#8 && t.errInfo == 4#32) = true := by decide +kernel

/-- The state of vector L2-W1, "HS\n1\n0,a\n4\nHE\n". -/
def codedA : State := { builtLeaf with code := tableSet emptyCodeTable 0x61#8 ⟨true, 1#8, 0#256⟩ }

def headerA : List Byte :=
  [0x48#8, 0x53#8, 0x0A#8, 0x31#8, 0x0A#8, 0x30#8, 0x2C#8, 0x61#8, 0x0A#8, 0x34#8, 0x0A#8, 0x48#8, 0x45#8, 0x0A#8]

/-- The legacy header of vector L2-W2, "HS\n1\n0,a\nHE\n". -/
def headerAL : List Byte :=
  [0x48#8, 0x53#8, 0x0A#8, 0x31#8, 0x0A#8, 0x30#8, 0x2C#8, 0x61#8, 0x0A#8, 0x48#8, 0x45#8, 0x0A#8]

/-- Vector L2-W1. -/
theorem test_hdrw : after (exec .hdrw codedA) (fun t => outBytes t == headerA && t.outLen == 14#32 && t.hdrLen == 14#32) =
    true := by decide +kernel

/-- Vector L2-W9. -/
theorem test_hdrw_nocode : after (exec .hdrw { builtLeaf with code := emptyCodeTable })
    (fun t => t.errcode == 0x04#8 && t.errInfo == 0x61#32 && t.obuf == [] && t.hdrLen == 0#32) = true := by decide +kernel

/-- Vector L2-W2. -/
theorem test_hdrwL : after (exec .hdrwL codedA) (fun t => outBytes t == headerAL && t.outLen == 12#32) = true := by
  decide +kernel

/-- The header of vector L2-W1 with its payload. -/
theorem test_hdrp : after (exec .hdrp (machine (headerA ++ [0#8])))
    (fun t => codeAt t 0x61#8 == ⟨true, 1#8, 0#256⟩ && nsym t.code == 1 && t.payOff == 14#32 && t.hdrLen == 14#32 &&
      t.payBits == 4#32 && t.decBV) = true := by decide +kernel

/-- An input that ends inside the header, and vectors L2-P7, L2-P21, L2-P22 and L2-P34: a wrong byte, a repeated code, a
repeated symbol, a payload too long. -/
theorem test_hdrp_errors :
    after (exec .hdrp { machine (headerA.take 9) with code := abCodes })
      (fun t => t.errcode == 0x10#8 && t.errInfo == 9#32 && nsym t.code == 0) = true ∧
    after (exec .hdrp (machine [0x48#8, 0x58#8, 0x0A#8])) (fun t => t.errcode == 0x11#8 && t.errInfo == 1#32) = true ∧
    after (exec .hdrp (machine [0x48#8, 0x53#8, 0x0A#8, 0x32#8, 0x0A#8, 0x30#8, 0x2C#8, 0x61#8, 0x0A#8, 0x30#8, 0x2C#8, 0x62#8,
      0x0A#8])) (fun t => t.errcode == 0x15#8 && t.errInfo == 9#32) = true ∧
    after (exec .hdrp (machine [0x48#8, 0x53#8, 0x0A#8, 0x32#8, 0x0A#8, 0x30#8, 0x2C#8, 0x61#8, 0x0A#8, 0x31#8, 0x2C#8, 0x61#8,
      0x0A#8])) (fun t => t.errcode == 0x15#8 && t.errInfo == 9#32) = true ∧
    after (exec .hdrp (machine (headerA ++ [0#8, 0#8]))) (fun t => t.errcode == 0x18#8 && t.errInfo == 2#32) = true := by
  decide +kernel

theorem test_hdrpL : after (exec .hdrpL (machine (headerAL ++ [0#8])))
    (fun t => codeAt t 0x61#8 == ⟨true, 1#8, 0#256⟩ && t.payOff == 12#32 && t.payBits == 8#32 && !t.decBV) = true := by
  decide +kernel

/-- The container of "aaaa" in the extended format. -/
theorem test_compress : after (exec .compress (machine [0x61#8, 0x61#8, 0x61#8, 0x61#8]))
    (fun t => outBytes t == headerA ++ [0#8] && t.outLen == 15#32 && t.hdrLen == 14#32 && t.encBits == 4#32) = true := by
  decide +kernel

theorem test_compressL : after (exec .compressL (machine [0x61#8, 0x61#8, 0x61#8, 0x61#8]))
    (fun t => outBytes t == headerAL ++ [0#8] && t.outLen == 13#32) = true := by decide +kernel

theorem test_decompress : after (exec .decompress (machine (headerA ++ [0#8])))
    (fun t => outBytes t == [0x61#8, 0x61#8, 0x61#8, 0x61#8] && t.outLen == 4#32 && t.errcode == 0#8) = true := by
  decide +kernel

/-- The legacy format decodes the four pad bits too (90_conflicts.md C2). -/
theorem test_decompressL : after (exec .decompressL (machine (headerAL ++ [0#8])))
    (fun t => outBytes t == List.replicate 8 0x61#8 && t.outLen == 8#32) = true := by decide +kernel

/-! ## The host notation -/

/-- `cmd FREQ` and `ack` (30_encoding.md R148). -/
theorem test_host_cmd : programEvents [.cmd .freq 1, .ack] =
    [writeAt 0x010 0x10#32, readAt 0x00C, .core, readAt 0x00C, writeAt 0x00C 2#32] := by decide

/-- `code b, "1001"` writes word 1 and then word 0 (30_encoding.md R148). -/
theorem test_host_code : (HostStmt.code 0x62#8 [true, false, false, true]).events =
    [writeAt 0x5884 9#32, writeAt 0x5880 0x80000004#32] := by decide

/-! ## Witnesses: encoding -/

theorem witness_LegalWordsAreTheEncodings :
    (0x00#32 &&& 0xFFFFFFFF#32 = 0x00#32) ∧ (0x01#32 &&& 0xFFFFFFFF#32 = 0x01#32) ∧
    (0x10#32 &&& 0xFFFFFFFF#32 = 0x10#32) ∧ (0x20#32 &&& 0xFFFFFFFF#32 = 0x20#32) ∧
    (0x21#32 &&& 0xFFFFFFFF#32 = 0x21#32) ∧ (0x30#32 &&& 0xFFFFFFFF#32 = 0x30#32) ∧
    (0x31#32 &&& 0xFFFFFFFF#32 = 0x31#32) ∧ (0x140#32 &&& 0xFFFFFEFF#32 = 0x40#32) ∧
    (0x41#32 &&& 0xFFFFFEFF#32 = 0x41#32) ∧ (0x150#32 &&& 0xFFFFFEFF#32 = 0x50#32) ∧
    (0x51#32 &&& 0xFFFFFEFF#32 = 0x51#32) := by decide

theorem witness_RejectedWordsAreNamed :
    (0x200#32).extractLsb' 9 23 ≠ 0#23 ∧
    ((0x22#32).extractLsb' 9 23 = 0#23 ∧ (0x22#32).extractLsb' 0 8 ∉ formatCOps ∧
      (0x22#32).extractLsb' 0 8 ∉ formatCLOps) ∧
    ((0x131#32).extractLsb' 9 23 = 0#23 ∧ (0x131#32).extractLsb' 0 8 ∈ formatCOps ∧ (0x131#32).getLsbD 8 = true) ∧
    ((0x31#32).extractLsb' 9 23 = 0#23 ∧ (0x31#32).extractLsb' 0 8 ∈ formatCOps ∧ (0x31#32).getLsbD 8 = false) ∧
    ((0x151#32).extractLsb' 9 23 = 0#23 ∧ (0x151#32).extractLsb' 0 8 ∈ formatCLOps) := by decide

/-! ## Witnesses: the step -/

theorem witness_StepRunsDecodedCommand :
    ((scripted (some 0x10#32) []).pending = some 0x10#32 ∧ decode 0x10#32 = .ok .freq ∧
      (scripted (some 0x10#32) []).script = []) ∧
    ((scripted (some 0x10#32) [.core, .reset]).pending = some 0x10#32 ∧
      (scripted (some 0x10#32) [.core, .reset]).script = .core :: [.reset]) ∧
    decodeTableWord 32 0x151 = some .decompressL := by decide

theorem witness_IllegalWordsCompleteWithError :
    (∀ i, 0xFF#32 ≠ encode i) ∧ (scripted (some 0xFF#32) []).pending = some 0xFF#32 ∧
    (scripted (some 0xFF#32) []).script = [] ∧ (scripted (some 0xFF#32) [.core]).pending = some 0xFF#32 ∧
    (scripted (some 0xFF#32) [.core]).script = .core :: [] :=
  ⟨fun i => by cases i <;> decide, by decide⟩

theorem witness_CommandsStopOnlyAtUnwrittenInput :
    exec .freq { machine [] with inLen := 2#32, ibuf := [(0, 7#8)] } = .fault (.uninitByte .input 1) := by rfl

theorem witness_EveryCommandCompletes :
    (∀ j < (machine [0x61#8]).inLen.toNat, (machine [0x61#8]).ibuf.read j ≠ none) ∧
    ¬({ machine [] with inLen := 33#32 } : State).inLen.toNat ≤ (machine []).params.ibufBytes := by decide

/-! ## Witnesses: the window -/

/-- Every window statement about one event `e` is met, idle (`p = none`) or busy, by `scripted p (e :: rest)`; the theorems
below give offsets that meet its clauses. -/
theorem witness_window_event (p : Option Word) (e : Event) (rest : List Event) :
    (scripted p (e :: rest)).pending = p ∧ (scripted p (e :: rest)).script = e :: rest ∧
    (scripted p (e :: rest)).params.wf :=
  ⟨rfl, rfl, (by decide : Params.wf ⟨32, 64⟩)⟩

/-- The byte offsets 0x010 to 0x013 all name CMD. -/
theorem witness_AcceptanceLatchesTheWord :
    wordOffset 0x010#24 = 0x010 ∧ wordOffset 0x013#24 = 0x010 ∧
    (scripted none [.write 0x010#24 0xFF#32]).script = .write 0x010#24 0xFF#32 :: [] ∧
    (scripted none [.write 0x010#24 0xFF#32]).pending = none ∧
    (scripted (some 1#32) [.write 0x010#24 0xFF#32]).pending = some 1#32 := by decide

theorem witness_BusyWritesAreDropped :
    (scripted (some 1#32) [.write 0x008#24 1#32]).pending = some 1#32 ∧
    (scripted (some 1#32) [.write 0x008#24 1#32]).script = .write 0x008#24 1#32 :: [] ∧ wordOffset 0x00B#24 = 0x008 ∧
    wordOffset 0x00C#24 = 0x00C ∧ (wordOffset 0x007#24 ≠ 0x008 ∧ wordOffset 0x007#24 ≠ 0x00C) ∧
    (wordOffset 0xFFFFFF#24 ≠ 0x008 ∧ wordOffset 0xFFFFFF#24 ≠ 0x00C) := by decide

theorem witness_IdleWritesReachTheirRegister :
    (scripted none [.write 0x008#24 1#32]).pending = none ∧
    (scripted none [.write 0x008#24 1#32]).script = .write 0x008#24 1#32 :: [] ∧
    wordOffset 0x008#24 = 0x008 ∧ wordOffset 0x00C#24 = 0x00C ∧ wordOffset 0x01C#24 = 0x01C ∧
    wordOffset 0x020#24 = 0x020 ∧ wordOffset 0x024#24 = 0x024 ∧ wordOffset 0x028#24 = 0x028 ∧
    wordOffset 0x02F#24 = 0x02C ∧
    (∀ a ∈ [0x000#24, 0x050#24], wordOffset a ∈
      [0x000, 0x004, 0x014, 0x018, 0x030, 0x034, 0x038, 0x03C, 0x040, 0x044, 0x048, 0x04C, 0x050]) ∧
    wordOffset 0x1000#24 = 0x1000 + 4 * (0#8 : Symbol).toNat ∧
    wordOffset 0x13FF#24 = 0x1000 + 4 * (255#8 : Symbol).toNat ∧
    (0x8000 ≤ wordOffset 0x8000#24 ∧ wordOffset 0x9FEF#24 < 0x8000 + 16 * 511) := by
  simp [wordOffset, scripted, machine, State.resetWith]

/-- Both ends of every range, on the small machine. -/
theorem witness_UnmappedOffsetsAreInert :
    (scripted none [.read 0x054#24]).params.wf ∧ (scripted none [.read 0x054#24]).pending = none ∧
    (scripted none [.read 0x054#24]).script = .read 0x054#24 :: [] ∧
    (scripted none [.write 0x054#24 1#32]).script = .write 0x054#24 1#32 :: [] ∧
    (scripted (some 1#32) [.write 0x054#24 1#32]).pending = some 1#32 ∧
    (∀ a ∈ [0x054#24, 0xFFF#24], 0x054 ≤ wordOffset a ∧ wordOffset a < 0x1000) ∧
    (∀ a ∈ [0x1400#24, 0x3FFF#24], 0x1400 ≤ wordOffset a ∧ wordOffset a < 0x4000) ∧
    (∀ a ∈ [0x4024#24, 0x7FFF#24], 0x4000 ≤ wordOffset a ∧ wordOffset a < 0x8000 ∧ 0x24 ≤ wordOffset a % 64) ∧
    (∀ a ∈ [0x9FF0#24, 0x3FFFFF#24], 0x9FF0 ≤ wordOffset a ∧ wordOffset a < 0x400000) ∧
    (∀ a ∈ [0x400080#24, 0x7FFFFF#24], 0x400000 + 4 * (machine []).params.ibufBytes ≤ wordOffset a ∧
      wordOffset a < 0x800000) ∧
    (∀ a ∈ [0x800100#24, 0xFFFFFF#24], 0x800000 + 4 * (machine []).params.obufBytes ≤ wordOffset a) := by
  simp [wordOffset, scripted, machine, State.resetWith, Params.wf, Params.ibufOk, Params.obufOk]

theorem witness_BusyReadsAreExemptOrFree :
    (scripted (some 1#32) [.read 0x01C#24]).pending = some 1#32 ∧
    (scripted (some 1#32) [.read 0x01C#24]).script = .read 0x01C#24 :: [] ∧
    wordOffset 0x000#24 = 0x000 ∧ wordOffset 0x004#24 = 0x004 ∧ wordOffset 0x008#24 = 0x008 ∧
    wordOffset 0x00C#24 = 0x00C ∧ wordOffset 0x010#24 = 0x010 ∧ wordOffset 0x014#24 = 0x014 ∧
    wordOffset 0x018#24 = 0x018 ∧ wordOffset 0x04C#24 = 0x04C ∧ wordOffset 0x050#24 = 0x050 ∧
    wordOffset 0x01C#24 ∉ [0x000, 0x004, 0x008, 0x00C, 0x010, 0x014, 0x018, 0x04C, 0x050] ∧
    wordOffset 0xFFFFFF#24 ∉ [0x000, 0x004, 0x008, 0x00C, 0x010, 0x014, 0x018, 0x04C, 0x050] := by decide

theorem witness_IdleRegisterReads :
    (scripted none [.read 0x053#24]).pending = none ∧ (scripted none [.read 0x053#24]).script = .read 0x053#24 :: [] ∧
    (∀ a ∈ [0x000#24, 0x004#24, 0x008#24, 0x00C#24, 0x010#24, 0x014#24, 0x018#24, 0x01C#24, 0x020#24, 0x024#24, 0x028#24,
      0x02C#24, 0x030#24, 0x034#24, 0x038#24, 0x03C#24, 0x040#24, 0x044#24, 0x048#24, 0x04C#24, 0x050#24],
      wordOffset a = a.toNat ∧ wordOffset a < 0x054) ∧
    wordOffset 0x1000#24 = 0x1000 + 4 * (0#8 : Symbol).toNat ∧
    wordOffset 0x13FF#24 = 0x1000 + 4 * (255#8 : Symbol).toNat ∧
    wordOffset 0x4000#24 = 0x4000 + 64 * (0#8 : Symbol).toNat + 4 * 0 ∧
    wordOffset 0x7FC4#24 = 0x4000 + 64 * (255#8 : Symbol).toNat + 4 * 1 ∧
    wordOffset 0x7FE3#24 = 0x4000 + 64 * (255#8 : Symbol).toNat + 4 * 8 := by
  simp [wordOffset, scripted, machine, State.resetWith]

/-- The last byte of each buffer written with a turn of the core next, and read when written and when not. -/
theorem witness_BufferBytesThroughTheWindow :
    (machine []).params.wf ∧ (machine []).pending = none ∧
    (31 < (machine []).params.ibufBytes ∧ wordOffset 0x40007F#24 = 0x400000 + 4 * 31 ∧
      (scripted none [.write 0x40007F#24 0x1FF#32, .core]).script = .write 0x40007F#24 0x1FF#32 :: [.core] ∧
      ({ scripted none [.read 0x40007F#24] with ibuf := [(31, 7#8)] } : State).ibuf.read 31 = some 7#8 ∧
      (scripted none [.read 0x40007F#24]).ibuf.read 31 = none) ∧
    (63 < (machine []).params.obufBytes ∧ wordOffset 0x8000FC#24 = 0x800000 + 4 * 63 ∧
      (scripted none [.write 0x8000FC#24 0x1FF#32, .core]).script = .write 0x8000FC#24 0x1FF#32 :: [.core] ∧
      ({ scripted none [.read 0x8000FC#24] with obuf := [(63, 7#8)] } : State).obuf.read 63 = some 7#8 ∧
      (scripted none [.read 0x8000FC#24]).obuf.read 63 = none) := by
  refine ⟨by decide, rfl, ⟨by decide, by simp [wordOffset], rfl, rfl, rfl⟩, by decide, by simp [wordOffset], rfl, rfl, rfl⟩

/-- Word 0 of the first entry, and words 1 and 8 of the last. -/
theorem witness_CodeEntryWriteRule :
    (scripted none [.write 0x4000#24 1#32]).pending = none ∧
    (scripted none [.write 0x4000#24 1#32]).script = .write 0x4000#24 1#32 :: [] ∧
    wordOffset 0x4000#24 = 0x4000 + 64 * (0#8 : Symbol).toNat + 4 * 0 ∧
    wordOffset 0x7FC7#24 = 0x4000 + 64 * (255#8 : Symbol).toNat + 4 * 1 ∧
    wordOffset 0x7FE0#24 = 0x4000 + 64 * (255#8 : Symbol).toNat + 4 * 8 := by
  simp [wordOffset, scripted, machine, State.resetWith]

/-- A node below NODE_CNT = 3, the first one at it, and the last of the arena. -/
theorem witness_NodeReadsStopAtNodeCount :
    (built.pending = none ∧ built.nodeCnt.toNat = 3) ∧
    (({ built with script := [readAt 0x802C] } : State).script = readAt (0x8000 + 16 * 2 + 4 * 3) :: [] ∧
      2 < built.nodeCnt.toNat) ∧
    (({ built with script := [readAt 0x8030] } : State).script = readAt (0x8000 + 16 * 3 + 4 * 0) :: [] ∧
      built.nodeCnt.toNat ≤ 3) ∧
    (({ built with script := [readAt 0x9FEC] } : State).script = readAt (0x8000 + 16 * 510 + 4 * 3) :: [] ∧
      built.nodeCnt.toNat ≤ 510) := by decide

/-- An arena that differs from the built one in a hidden entry. -/
theorem witness_HiddenNodesNeverMatter :
    built.Inv ∧
    (∀ n < built.nodeCnt.toNat,
      arenaGet (built.node.setIfInBounds 3 ⟨true, 1#8, 2#40, 3#9, 4#9⟩) n = arenaGet built.node n) ∧
    ∃ t, exec .assign built = .next t :=
  ⟨built_inv, by decide +kernel, next_of_runs (by decide +kernel)⟩

/-- What the interrupt is before and after a step. -/
def irqStep (s : State) : Bool × Bool := (s.irq, after (step s) (fun t => t.irq))

/-- The machine idle with a completion recorded and the interrupt enabled. -/
def raised (script : List Event) : State := { scripted none script with done := true, ctrlIE := true }

/-- The interrupt rises at a completion and at the enabling, and falls at each of its five causes. -/
theorem witness_InterruptFollowsDoneAndEnable :
    irqStep { scripted (some 0#32) [] with ctrlIE := true } = (false, true) ∧
    irqStep { scripted none [writeAt 0x008 1#32] with done := true } = (false, true) ∧
    irqStep (raised [writeAt 0x00C 2#32]) = (true, false) ∧ irqStep (raised [writeAt 0x008 0#32]) = (true, false) ∧
    irqStep (raised [writeAt 0x010 0#32]) = (true, false) ∧ irqStep (raised [.reset]) = (true, false) ∧
    ∀ x ∈ [writeAt 0x00C 2#32, writeAt 0x008 0#32, writeAt 0x010 0#32, .reset], ∃ t, step (raised [x]) = .next t := by
  refine ⟨by decide +kernel, by decide +kernel, by decide +kernel, by decide +kernel, by decide +kernel,
    by decide +kernel, fun x hx => ?_⟩
  have : ([writeAt 0x00C 2#32, writeAt 0x008 0#32, writeAt 0x010 0#32, Event.reset].all
      (fun x => after (step (raised [x])) (fun _ => true))) = true := by decide +kernel
  exact next_of_runs (List.all_eq_true.1 this x hx)

/-- An idle read, and a busy one. -/
theorem witness_HostReadsChangeNothing :
    (∃ t, step (scripted none [readAt 0x01C]) = .next t) ∧ ∃ t, step (scripted (some 1#32) [readAt 0x01C]) = .next t :=
  ⟨next_of_runs (by decide +kernel), next_of_runs (by decide +kernel)⟩

theorem witness_BusyInputsAreFrozen :
    (scripted (some 1#32) [writeAt 0x01C 5#32]).pending = some 1#32 ∧
    (∃ t, step (scripted (some 1#32) [writeAt 0x01C 5#32]) = .next t) ∧
    ∃ t, step (scripted (some 1#32) [readAt 0x00C]) = .next t :=
  ⟨rfl, next_of_runs (by decide +kernel), next_of_runs (by decide +kernel)⟩

/-! ## Witnesses: reset and invariants -/

theorem witness_ResetInputReplacesState : (scripted (some 1#32) [.reset, .core]).script = .reset :: [.core] := by decide

theorem witness_ResetSatisfiesInvariant : Params.wf ⟨1, 1⟩ ∧ Params.wf ⟨2 ^ 20, 2 ^ 20⟩ ∧ Params.default.wf := by decide

/-- A state of the invariant with a tree, and a step from it. -/
theorem witness_StepKeepsInvariant :
    ({ built with script := [writeAt 0x010 0x21#32] } : State).Inv ∧
    ∃ t, step { built with script := [writeAt 0x010 0x21#32] } = .next t :=
  ⟨inv_of_idle rfl (by decide) (by decide) (by decide +kernel) (by decide +kernel) (by decide), next_of_runs (by decide +kernel)⟩

theorem witness_OnlyBuildSetsTreeBuilt :
    (scripted (some 0x20#32) []).treeBuilt = false ∧
    (∃ t, step (scripted (some 0x20#32) []) = .next t ∧ t.treeBuilt = true) ∧
    (∃ t, step (scripted (some 0x50#32) []) = .next t ∧ t.treeBuilt = true) ∧
    ∃ t, step (scripted (some 0x150#32) []) = .next t ∧ t.treeBuilt = true :=
  ⟨rfl, next_of_after (by decide +kernel), next_of_after (by decide +kernel), next_of_after (by decide +kernel)⟩

/-! ## Witnesses: FREQ, BUILD, ASSIGN -/

theorem witness_FreqCountsEveryByte :
    IbufHolds (machine [0x61#8, 0x62#8, 0x61#8]) [0x61#8, 0x62#8, 0x61#8] ∧ 3 ≤ (machine []).params.ibufBytes ∧
    IbufHolds (machine []) [] ∧
    ({ machine [] with inLen := 33#32 } : State).params.ibufBytes < ({ machine [] with inLen := 33#32 } : State).inLen.toNat := by
  decide

theorem witness_FreqConservesCounts :
    (machine [0x61#8]).params.wf ∧ IbufHolds (machine [0x61#8]) [0x61#8] ∧ [0x61#8].length ≤ (machine []).params.ibufBytes := by
  decide

theorem witness_ArbiterExtractsLeast :
    extractMin [⟨2, 0⟩, ⟨1, 1⟩, ⟨1, 2⟩] = some (⟨1, 1⟩, [⟨2, 0⟩, ⟨1, 2⟩]) := by decide

theorem witness_BuildPlacesLeaves :
    (∃ t, exec .build built = .next t) ∧ freqAt built 0x61#8 ≠ 0#32 ∧ freqAt built 0x62#8 ≠ 0#32 :=
  ⟨next_of_runs (by decide +kernel), by decide⟩

/-- The counts of vector L2-B2: a, b and c twice each. -/
def threeEqual : State := { machine [] with freq := tableSet (twoCounts 0x61#8 2#32 0x62#8 2#32) 0x63#8 2#32 }

/-- Node 3 is above the three leaves, leaf 2 is left over at its merge, and node 3 is below the root 4. -/
theorem witness_BuildMergesInternalNodes :
    ∃ t, exec .build threeEqual = .next t ∧ (presentCount threeEqual.freq == 3 && t.nodeCnt == 5#9 && t.root == 4#9 &&
      (arenaGet t.node 3).left == 0#9 && (arenaGet t.node 3).right == 1#9) = true :=
  next_of_after (p := fun t => presentCount threeEqual.freq == 3 && t.nodeCnt == 5#9 && t.root == 4#9 &&
    (arenaGet t.node 3).left == 0#9 && (arenaGet t.node 3).right == 1#9) (by decide +kernel)

theorem witness_AssignNeedsCurrentTree :
    (machine []).treeBuilt = false ∧
    (∃ t, exec .freq (machine [0x61#8]) = .next t ∧ (t.errcode == 0#8) = true) ∧ ∃ t, exec .clear built = .next t :=
  ⟨rfl, next_of_after (p := fun t => t.errcode == 0#8) (by decide +kernel), next_of_runs (by decide +kernel)⟩

theorem built_internal : (arenaGet built.node built.root.toNat).internal = true := by decide +kernel

theorem built_left : PathTo built.node built.root.toNat 1 [false] := by
  have h := PathTo.left .here built_internal
  have e : (arenaGet built.node built.root.toNat).left.toNat = 1 := by decide +kernel
  rw [e] at h
  exact h

theorem built_right : PathTo built.node built.root.toNat 0 [true] := by
  have h := PathTo.right .here built_internal
  have e : (arenaGet built.node built.root.toNat).right.toNat = 0 := by decide +kernel
  rw [e] at h
  exact h

/-- Without a root, with a root leaf, and with an internal root and both its leaves. -/
theorem witness_AssignWritesLeafPaths :
    (builtEmpty.Inv ∧ builtEmpty.treeBuilt = true ∧ builtEmpty.rootValid = false) ∧
    (builtLeaf.Inv ∧ builtLeaf.treeBuilt = true ∧ builtLeaf.rootValid = true ∧
      (arenaGet builtLeaf.node builtLeaf.root.toNat).internal = false) ∧
    (built.Inv ∧ built.treeBuilt = true ∧ built.rootValid = true ∧
      (arenaGet built.node built.root.toNat).internal = true ∧ PathTo built.node built.root.toNat 1 [false] ∧
      (arenaGet built.node 1).internal = false ∧ PathTo built.node built.root.toNat 0 [true]) :=
  ⟨⟨builtEmpty_inv, rfl, rfl⟩, ⟨builtLeaf_inv, rfl, rfl, by decide +kernel⟩,
    ⟨built_inv, rfl, rfl, built_internal, built_left, by decide +kernel, built_right⟩⟩

/-- The invariant holds with a tree current; the tree of `built` gives codes. -/
theorem witness_AssignedCodesArePrefixFree : built.Inv ∧ built.treeBuilt = true := ⟨built_inv, rfl⟩

theorem witness_AssignedCodesFillCodeSpace :
    (built.Inv ∧ built.treeBuilt = true ∧ (∃ t, exec .assign built = .next t) ∧ 2 ≤ presentCount built.freq) ∧
    (builtLeaf.Inv ∧ builtLeaf.treeBuilt = true ∧ (∃ t, exec .assign builtLeaf = .next t) ∧
      presentCount builtLeaf.freq = 1) :=
  ⟨⟨built_inv, rfl, next_of_runs (by decide +kernel), by decide +kernel⟩, ⟨builtLeaf_inv, rfl, next_of_runs (by decide +kernel), by decide +kernel⟩⟩

/-! ## Witnesses: ENCODE and DECODE -/

/-- "ab" with the codes a:"0", b:"1". -/
def toEncode : State := { machine [0x61#8, 0x62#8] with code := abCodes, outLen := 63#32 }

/-- The payload fits the last byte of OBUF exactly. -/
theorem witness_EncodePacksCodes :
    toEncode.params.wf ∧ IbufHolds toEncode [0x61#8, 0x62#8] ∧
    [0x61#8, 0x62#8].length ≤ toEncode.params.ibufBytes ∧ Covers toEncode.code [0x61#8, 0x62#8] ∧
    toEncode.outLen.toNat + ceil8 (codeBits toEncode.code [0x61#8, 0x62#8]).length ≤ toEncode.params.obufBytes := by
  decide +kernel

/-- "ac" with no code for c. -/
def toEncodeMissing : State := { toEncode with ibuf := [(0, 0x61#8), (1, 0x63#8)] }

/-- The payload is one byte too long for OBUF. -/
def toEncodeFull : State := { toEncode with outLen := 64#32 }

theorem witness_EncodeChecksInOrder :
    ({ toEncode with inLen := 33#32 } : State).params.ibufBytes < ({ toEncode with inLen := 33#32 } : State).inLen.toNat ∧
    (({ toEncode with outLen := 65#32 } : State).inLen.toNat ≤ ({ toEncode with outLen := 65#32 } : State).params.ibufBytes ∧
      ({ toEncode with outLen := 65#32 } : State).params.obufBytes <
        ({ toEncode with outLen := 65#32 } : State).outLen.toNat) ∧
    (toEncodeMissing.inLen.toNat ≤ toEncodeMissing.params.ibufBytes ∧
      toEncodeMissing.outLen.toNat ≤ toEncodeMissing.params.obufBytes ∧ 1 < toEncodeMissing.inLen.toNat ∧
      toEncodeMissing.ibuf.read 1 = some 0x63#8 ∧ (codeAt toEncodeMissing 0x63#8).valid = false ∧
      ∀ j < 1, ∃ c ∈ [0x61#8], toEncodeMissing.ibuf.read j = some c ∧ (codeAt toEncodeMissing c).valid = true) ∧
    (toEncodeFull.inLen.toNat ≤ toEncodeFull.params.ibufBytes ∧ toEncodeFull.outLen.toNat ≤ toEncodeFull.params.obufBytes ∧
      IbufHolds toEncodeFull [0x61#8, 0x62#8] ∧ Covers toEncodeFull.code [0x61#8, 0x62#8] ∧
      toEncodeFull.params.obufBytes <
        toEncodeFull.outLen.toNat + ceil8 (codeBits toEncodeFull.code [0x61#8, 0x62#8]).length) := by decide +kernel

/-- The codes "0" and "1" are prefix-free. -/
theorem abCodes_prefixFree : PrefixFree abCodes := by
  intro a b ha hb hab
  rcases twoCodes_valid ha with rfl | rfl <;> rcases twoCodes_valid hb with rfl | rfl
  · exact absurd rfl hab
  · decide +kernel
  · decide +kernel
  · exact absurd rfl hab

theorem abCodes_nonEmpty {sym : Symbol} (h : (tableGet abCodes sym).valid = true) : (tableGet abCodes sym).len ≠ 0#8 := by
  rcases twoCodes_valid h with rfl | rfl <;> decide +kernel

/-- Payload 0x40 at PAY_OFF = 1, bits "01", with the codes a:"0", b:"1" and BV = 1. -/
def toDecode : State :=
  { machine [0xFF#8, 0x40#8] with code := abCodes, payOff := 1#32, payBits := 2#32, decBV := true }

theorem witness_DecodeRecoversMessage :
    toDecode.params.wf ∧ PrefixFree toDecode.code ∧
    (∀ sym, (codeAt toDecode sym).valid = true → (codeAt toDecode sym).len ≠ 0#8) ∧
    Covers toDecode.code [0x61#8, 0x62#8] ∧ [0x61#8, 0x62#8].length ≤ toDecode.params.obufBytes ∧
    toDecode.inLen.toNat ≤ toDecode.params.ibufBytes ∧ toDecode.payOff.toNat ≤ toDecode.inLen.toNat ∧
    (codeBits toDecode.code [0x61#8, 0x62#8]).length ≤ 8 * (toDecode.inLen.toNat - toDecode.payOff.toNat) ∧
    (codeBits toDecode.code [0x61#8, 0x62#8]).length =
      (if toDecode.decBV then toDecode.payBits.toNat else 8 * (toDecode.inLen.toNat - toDecode.payOff.toNat)) ∧
    BitsAt toDecode.ibuf toDecode.payOff.toNat (codeBits toDecode.code [0x61#8, 0x62#8]) :=
  ⟨by decide, abCodes_prefixFree, fun _ h => abCodes_nonEmpty h, by decide +kernel, by decide, by decide, by decide,
    by decide +kernel, by decide +kernel, by decide +kernel⟩

/-- Vector L2-D12, a repeated code: a:"0", b:"0", payload 00, one bit, the least symbol. -/
def toDecodeTwice : State :=
  { machine [0x00#8] with code := twoCodes 0x61#8 [false] 0x62#8 [false], payBits := 1#32, decBV := true }

theorem witness_DecodeRecoversMessage_repeated :
    toDecodeTwice.params.wf ∧ (∀ x ∈ [(([false] : BitStr), (0x61#8 : Symbol))], FirstMatch toDecodeTwice.code x) ∧
    1 ≤ toDecodeTwice.params.obufBytes ∧ toDecodeTwice.inLen.toNat ≤ toDecodeTwice.params.ibufBytes ∧
    toDecodeTwice.payOff.toNat ≤ toDecodeTwice.inLen.toNat ∧
    [false].length ≤ 8 * (toDecodeTwice.inLen.toNat - toDecodeTwice.payOff.toNat) ∧
    [false].length = (if toDecodeTwice.decBV then toDecodeTwice.payBits.toNat
      else 8 * (toDecodeTwice.inLen.toNat - toDecodeTwice.payOff.toNat)) ∧
    BitsAt toDecodeTwice.ibuf toDecodeTwice.payOff.toNat [false] := by
  refine ⟨by decide, fun x hx => ?_, by decide, by decide, by decide, by decide, by decide, by decide⟩
  rw [List.mem_singleton.1 hx]
  refine ⟨by decide, by decide +kernel, fun r hr h => ?_, fun d r hp h0 h1 _ => ?_⟩
  · rcases twoCodes_valid h.1 with rfl | rfl <;> exact absurd hr (by decide)
  · obtain ⟨w, hw⟩ := hp
    cases d with
    | nil => exact h0 rfl
    | cons y ys => simp_all

/-- The state of `toDecode` with BV = 0: every bit of the byte is a symbol. -/
theorem witness_DecodeRecoversMessage_legacy :
    (codeBits abCodes [0x61#8, 0x62#8, 0x61#8, 0x61#8, 0x61#8, 0x61#8, 0x61#8, 0x61#8]).length =
      (if ({ toDecode with decBV := false } : State).decBV then toDecode.payBits.toNat
        else 8 * (toDecode.inLen.toNat - toDecode.payOff.toNat)) ∧
    BitsAt toDecode.ibuf toDecode.payOff.toNat
      (codeBits abCodes [0x61#8, 0x62#8, 0x61#8, 0x61#8, 0x61#8, 0x61#8, 0x61#8, 0x61#8]) := by decide +kernel

/-- IN_LEN beyond the buffer, PAY_OFF beyond IN_LEN, and a bit count one over the bits there are. -/
theorem witness_DecodeChecksInOrder :
    toDecode.params.ibufBytes < (33#32).toNat ∧
    (toDecode.inLen.toNat ≤ toDecode.params.ibufBytes ∧ toDecode.inLen.toNat < (3#32).toNat) ∧
    (toDecode.payOff.toNat ≤ toDecode.inLen.toNat ∧ toDecode.decBV = true ∧
      8 * (toDecode.inLen.toNat - toDecode.payOff.toNat) < (9#32).toNat) := by decide

/-- The codes a:"0", b:"10", and the payload 0x60, bits "011": "a" and then "11", which no code begins. -/
def tailCodes : Vector CodeEntry 256 := twoCodes 0x61#8 [false] 0x62#8 [true, false]

def toFail : State := { machine [0x60#8] with code := tailCodes, payBits := 3#32, decBV := true }

/-- The codes of a table with two codes. -/
theorem twoCodes_hasCode {a b sym : Symbol} {c d e : BitStr} (h : HasCode (twoCodes a c b d) sym e) (hab : a ≠ b)
    (hc : (CodeEntry.ofBits c).effective = c) (hd : (CodeEntry.ofBits d).effective = d) :
    (sym = a ∧ e = c) ∨ (sym = b ∧ e = d) := by
  obtain ⟨h1, h2⟩ := h
  rcases twoCodes_valid h1 with rfl | rfl
  · rw [twoCodes, tableGet_set_other _ _ hab, tableGet_set_same, hc] at h2
    exact .inl ⟨rfl, h2.symm⟩
  · rw [twoCodes, tableGet_set_same, hd] at h2
    exact .inr ⟨rfl, h2.symm⟩

theorem tailCodes_hasCode {sym : Symbol} {e : BitStr} (h : HasCode tailCodes sym e) :
    (sym = 0x61#8 ∧ e = [false]) ∨ (sym = 0x62#8 ∧ e = [true, false]) :=
  twoCodes_hasCode h (by decide) (by decide) (by decide)

theorem tailCodes_firstMatch : FirstMatch tailCodes ([false], 0x61#8) := by
  refine ⟨by decide, by decide +kernel, fun r hr h => ?_, fun d r hp h0 h1 _ => ?_⟩
  · rcases tailCodes_hasCode h with ⟨rfl, -⟩ | ⟨rfl, -⟩ <;> exact absurd hr (by decide)
  · obtain ⟨w, hw⟩ := hp
    cases d with
    | nil => exact h0 rfl
    | cons x xs => simp_all

/-- "a" and the bits 11 left over. -/
theorem witness_DecodeReportsIncompleteCode :
    toFail.params.wf ∧ (∀ x ∈ [(([false] : BitStr), (0x61#8 : Symbol))], FirstMatch toFail.code x) ∧
    toFail.inLen.toNat ≤ toFail.params.ibufBytes ∧ toFail.payOff.toNat ≤ toFail.inLen.toNat ∧
    ([false] ++ [true, true]).length ≤ 8 * (toFail.inLen.toNat - toFail.payOff.toNat) ∧
    ([false] ++ [true, true]).length =
      (if toFail.decBV then toFail.payBits.toNat else 8 * (toFail.inLen.toNat - toFail.payOff.toNat)) ∧
    BitsAt toFail.ibuf toFail.payOff.toNat ([false] ++ [true, true]) ∧ 1 ≤ toFail.params.obufBytes ∧
    ([true, true] : BitStr) ≠ [] ∧ ∀ d sym, d <+: [true, true] → d ≠ [] → ¬HasCode toFail.code sym d := by
  refine ⟨by decide, fun x hx => ?_, by decide, by decide, by decide, by decide, by decide, by decide, by decide,
    fun d sym hp _ h => ?_⟩
  · rw [List.mem_singleton.1 hx]
    exact tailCodes_firstMatch
  · rcases tailCodes_hasCode h with ⟨-, rfl⟩ | ⟨-, rfl⟩ <;> exact absurd hp (by decide)

/-- "a" and "a" with one byte of OBUF. -/
def toOverflow : State :=
  { machine [0x20#8] with code := tailCodes, payBits := 3#32, decBV := true, params := ⟨32, 1⟩ }

theorem witness_DecodeReportsIncompleteCode_overflow :
    toOverflow.params.wf ∧
    (∀ x ∈ [(([false] : BitStr), (0x61#8 : Symbol)), ([false], 0x61#8)], FirstMatch toOverflow.code x) ∧
    ([false] ++ [false] ++ [true]).length =
      (if toOverflow.decBV then toOverflow.payBits.toNat else 8 * (toOverflow.inLen.toNat - toOverflow.payOff.toNat)) ∧
    BitsAt toOverflow.ibuf toOverflow.payOff.toNat ([false] ++ [false] ++ [true]) ∧
    2 = toOverflow.params.obufBytes + 1 := by
  refine ⟨by decide, fun x hx => ?_, by decide, by decide, by decide⟩
  have : x = ([false], 0x61#8) := by simpa using hx
  rw [this]
  exact tailCodes_firstMatch

/-! ## Witnesses: HDRW and HDRP -/

/-- A machine in which only a has a count and a code. -/
def onlyA (count : Word) (e : CodeEntry) (p : Params) : State :=
  { builtLeaf with
    params := p, freq := tableSet (Vector.replicate 256 0#32) 0x61#8 count, code := tableSet emptyCodeTable 0x61#8 e }

theorem onlyA_covers {count : Word} {e : CodeEntry} {p : Params} (he : e.valid = true) (sym : Symbol)
    (h : freqAt (onlyA count e p) sym ≠ 0#32) : (codeAt (onlyA count e p) sym).valid = true := by
  by_cases hs : sym = 0x61#8
  · subst hs
    show (tableGet (tableSet emptyCodeTable 0x61#8 e) 0x61#8).valid = true
    rw [tableGet_set_same, he]
  · refine absurd ?_ h
    show tableGet (tableSet (Vector.replicate 256 0#32) 0x61#8 count) sym = 0#32
    rw [tableGet_set_other _ _ hs, tableGet_replicate]

theorem witness_HdrwWritesHeader :
    codedA.params.wf ∧ (∀ sym, freqAt codedA sym ≠ 0#32 → (codeAt codedA sym).valid = true) ∧
    bitCount codedA.freq codedA.code ≤ 2 ^ 32 - 1 ∧
    (headerOf (codeLines codedA.code) (some (bitCount codedA.freq codedA.code))).length ≤ codedA.params.obufBytes ∧
    (headerOf (codeLines codedA.code) none).length ≤ codedA.params.obufBytes :=
  ⟨by decide, onlyA_covers (count := 4#32) (e := ⟨true, 1#8, 0#256⟩) (p := ⟨32, 64⟩) rfl, by decide +kernel,
    by decide +kernel, by decide +kernel⟩

/-- FREQ[0] > 0 without a code. -/
def uncoded : State := { codedA with freq := tableSet codedA.freq 0#8 1#32 }

/-- A count of 2^32 − 1 under a code of two bits. -/
def tooMany : State := onlyA 0xFFFFFFFF#32 ⟨true, 2#8, 0#256⟩ ⟨32, 64⟩

/-- Headers one byte longer than OBUF. -/
def tooLong : State := onlyA 4#32 ⟨true, 1#8, 0#256⟩ ⟨32, 13⟩
def tooLongL : State := onlyA 4#32 ⟨true, 1#8, 0#256⟩ ⟨32, 11⟩

theorem witness_HdrwChecksInOrder :
    (freqAt uncoded 0#8 ≠ 0#32 ∧ (codeAt uncoded 0#8).valid = false ∧ ∀ r : Symbol, ¬r.toNat < (0#8 : Symbol).toNat) ∧
    ((∀ sym, freqAt tooMany sym ≠ 0#32 → (codeAt tooMany sym).valid = true) ∧
      2 ^ 32 - 1 < bitCount tooMany.freq tooMany.code) ∧
    ((∀ sym, freqAt tooLong sym ≠ 0#32 → (codeAt tooLong sym).valid = true) ∧
      bitCount tooLong.freq tooLong.code ≤ 2 ^ 32 - 1 ∧
      tooLong.params.obufBytes < (headerOf (codeLines tooLong.code) (some (bitCount tooLong.freq tooLong.code))).length) ∧
    tooLongL.params.obufBytes < (headerOf (codeLines tooLongL.code) none).length :=
  ⟨⟨by decide +kernel, by decide +kernel, fun _ => Nat.not_lt_zero _⟩, ⟨onlyA_covers rfl, by decide +kernel⟩,
    ⟨onlyA_covers rfl, by decide +kernel, by decide +kernel⟩, by decide +kernel⟩

/-- Two good lines, prefix-free, one of them for the symbol ','. -/
def twoLines : List (BitStr × Symbol) := [([false], 0x61#8), ([true, false], 0x2C#8)]

theorem witness_HdrpReadsHeader :
    GoodLines twoLines ∧ GoodLines [] ∧ 9 < 2 ^ 32 ∧ [1#8, 2#8].length = ceil8 9 ∧
    (IbufHolds (machine (headerOf twoLines (some 9) ++ [1#8, 2#8])) (headerOf twoLines (some 9) ++ [1#8, 2#8]) ∧
      (machine (headerOf twoLines (some 9) ++ [1#8, 2#8])).inLen.toNat ≤ (machine []).params.ibufBytes) ∧
    (IbufHolds (machine (headerOf twoLines none ++ [1#8])) (headerOf twoLines none ++ [1#8]) ∧
      (machine (headerOf twoLines none ++ [1#8])).inLen.toNat ≤ (machine []).params.ibufBytes) := by decide +kernel

theorem witness_HdrpErrorsLeaveNoTable :
    (∃ t, exec .hdrp (machine [0x48#8]) = .next t ∧ (t.errcode != 0#8) = true) ∧
    ∃ t, exec .hdrpL (machine [0x48#8]) = .next t ∧ (t.errcode != 0#8) = true :=
  ⟨next_of_after (p := fun t => t.errcode != 0#8) (by decide +kernel),
    next_of_after (p := fun t => t.errcode != 0#8) (by decide +kernel)⟩

/-- A machine with a larger input buffer. -/
def wide (bs : List Byte) : State := { machine bs with params := ⟨512, 64⟩ }

/-- IN_LEN beyond the buffer; the empty input and an input one byte short, in both formats; each byte of "HS" LF wrong. -/
theorem witness_HdrpReportsTruncation :
    (machine []).params.ibufBytes < ({ machine [] with inLen := 33#32 } : State).inLen.toNat ∧
    GoodLines twoLines ∧ (IbufHolds (machine []) [] ∧ [] <+: headerOf twoLines (formatBits .extended 9)) ∧
    (∀ f ∈ [Format.extended, .legacy],
      IbufHolds (wide (headerOf twoLines (formatBits f 9)).dropLast) (headerOf twoLines (formatBits f 9)).dropLast ∧
      (wide (headerOf twoLines (formatBits f 9)).dropLast).inLen.toNat ≤ (wide []).params.ibufBytes ∧
      (headerOf twoLines (formatBits f 9)).dropLast <+: headerOf twoLines (formatBits f 9) ∧
      (headerOf twoLines (formatBits f 9)).dropLast ≠ headerOf twoLines (formatBits f 9)) ∧
    (∀ p ∈ [[], [chH], [chH, chS]], p <+: [chH, chS, chLF] ∧ p ≠ [chH, chS, chLF] ∧
      ¬(p ++ [chE]) <+: [chH, chS, chLF] ∧ InputStarts (machine (p ++ [chE])) (p ++ [chE])) ∧
    InputStarts (machine ([chH, chS, chLF] ++ dec 257 ++ [chLF])) ([chH, chS, chLF] ++ dec 257 ++ [chLF]) ∧
    InputStarts (machine ([chH, chS, chLF] ++ dec 999 ++ [chLF])) ([chH, chS, chLF] ++ dec 999 ++ [chLF]) := by
  decide +kernel

/-- No digit, "12:", a fourth digit, and "007" (vectors L2-P12, L2-P11, L2-P9). -/
theorem witness_HdrpReportsTruncation_count :
    BadDecimal 3 [0x78#8] 0 ∧ BadDecimal 3 [0x31#8, 0x32#8, 0x3A#8] 2 ∧ BadDecimal 3 [0x31#8, 0x30#8, 0x30#8, 0x30#8] 3 ∧
    BadDecimal 3 [0x30#8, 0x30#8, 0x37#8, chLF] 0 ∧
    ∀ x ∈ [[0x78#8], [0x31#8, 0x32#8, 0x3A#8], [0x31#8, 0x30#8, 0x30#8, 0x30#8], [0x30#8, 0x30#8, 0x37#8, chLF]],
      InputStarts (machine ([chH, chS, chLF] ++ x)) ([chH, chS, chLF] ++ x) :=
  ⟨.inl ⟨[], 0x78#8, by decide⟩, .inl ⟨[0x31#8, 0x32#8], 0x3A#8, by decide⟩,
    .inl ⟨[0x31#8, 0x30#8, 0x30#8], 0x30#8, by decide⟩, .inr ⟨[0x30#8, 0x30#8, 0x37#8], by decide⟩, by decide +kernel⟩

/-- After two good lines of three: "H", a repeated symbol, a repeated code, an empty code field, a wrong byte after one bit,
no LF after the symbol; and in the first line of one, a code of 255 bits and one bit more. -/
theorem witness_HdrpReportsTruncation_line :
    twoLines.length < 3 ∧ GoodLines twoLines ∧ GoodLines [] ∧
    InputStarts (machine (headerStart 3 twoLines ++ [chH])) (headerStart 3 twoLines ++ [chH]) ∧
    (0x2C#8 ∈ twoLines.map Prod.snd ∧ InputStarts (machine (headerStart 3 twoLines ++ tableLine [true, true] 0x2C#8))
      (headerStart 3 twoLines ++ tableLine [true, true] 0x2C#8)) ∧
    ([true, false] ∈ twoLines.map Prod.fst ∧ InputStarts (machine (headerStart 3 twoLines ++ tableLine [true, false] 0x62#8))
      (headerStart 3 twoLines ++ tableLine [true, false] 0x62#8)) ∧
    (chComma ≠ chH ∧ chComma ≠ chZero ∧ chComma ≠ chOne ∧
      InputStarts (machine (headerStart 3 twoLines ++ ([] : BitStr).map bitChar ++ [chComma]))
        (headerStart 3 twoLines ++ ([] : BitStr).map bitChar ++ [chComma])) ∧
    (chE ≠ chComma ∧ chE ≠ chZero ∧ chE ≠ chOne ∧
      InputStarts (machine (headerStart 3 twoLines ++ [true].map bitChar ++ [chE]))
        (headerStart 3 twoLines ++ [true].map bitChar ++ [chE])) ∧
    (InputStarts (machine (headerStart 3 twoLines ++ [true].map bitChar ++ [chComma, chLF, chE]))
        (headerStart 3 twoLines ++ [true].map bitChar ++ [chComma, chLF, chE])) ∧
    ((List.replicate 255 false).length = 255 ∧ chZero ≠ chComma ∧
      InputStarts (wide (headerStart 1 [] ++ (List.replicate 255 false).map bitChar ++ [chZero]))
        (headerStart 1 [] ++ (List.replicate 255 false).map bitChar ++ [chZero])) := by
  decide +kernel

/-- After the two lines of two, extended: the bit counts of vectors L2-P25 to L2-P28, each byte of the "HE" line wrong, and a
payload of two bytes where the bit count wants one. -/
theorem witness_HdrpReportsTruncation_end :
    twoLines.length = 2 ∧
    (BadDecimal 10 [0x30#8, 0x34#8, chLF] 0 ∧ InputStarts (wide (headerStart 2 twoLines ++ [0x30#8, 0x34#8, chLF]))
      (headerStart 2 twoLines ++ [0x30#8, 0x34#8, chLF])) ∧
    (BadDecimal 10 [0x2D#8] 0 ∧ InputStarts (wide (headerStart 2 twoLines ++ [0x2D#8])) (headerStart 2 twoLines ++ [0x2D#8])) ∧
    BadDecimal 10 (dec 12345678901) 10 ∧
    InputStarts (wide (headerStart 2 twoLines ++ bitCountLine (2 ^ 32))) (headerStart 2 twoLines ++ bitCountLine (2 ^ 32)) ∧
    (∀ x ∈ [[chE], [chH, chH], [chH, chE, chE]],
      InputStarts (wide (headerStart 2 twoLines ++ bitCountLine (2 ^ 32 - 1) ++ x))
        (headerStart 2 twoLines ++ bitCountLine (2 ^ 32 - 1)) ∧
      InputStarts (wide (headerStart 2 twoLines ++ bitCountLine (2 ^ 32 - 1) ++ x))
        (headerStart 2 twoLines ++ bitCountLine (2 ^ 32 - 1) ++ x)) ∧
    (InputStarts (wide (headerOf twoLines (some 8) ++ [0#8, 0#8])) (headerOf twoLines (some 8)) ∧
      ceil8 8 ≠ (wide (headerOf twoLines (some 8) ++ [0#8, 0#8])).inLen.toNat - (headerOf twoLines (some 8)).length) :=
  ⟨by decide, ⟨.inr ⟨[0x30#8, 0x34#8], by decide⟩, by decide +kernel⟩, ⟨.inl ⟨[], 0x2D#8, by decide⟩, by decide +kernel⟩,
    .inl ⟨dec 1234567890, 0x31#8, by decide +kernel⟩, by decide +kernel, by decide +kernel, by decide +kernel⟩

/-- The same in the legacy format: a further line, and each byte of the "HE" line wrong. -/
theorem witness_HdrpReportsTruncation_endL :
    ∀ x ∈ [[chZero], [chOne], [chE], [chH, chH], [chH, chE, chE]],
      InputStarts (machine (headerStart 2 twoLines ++ x)) (headerStart 2 twoLines ++ x) ∧
      (machine (headerStart 2 twoLines ++ x)).inLen.toNat ≤ (machine []).params.ibufBytes := by decide +kernel

/-- The header of `codedA` copied, with room for its payload byte, into a machine of its own. -/
theorem witness_HeaderRoundTrip :
    codedA.params.wf ∧ (∀ sym, (codeAt codedA sym).valid = true → (codeAt codedA sym).len ≠ 0#8) ∧
    (∀ a b, (codeAt codedA a).valid = true → (codeAt codedA b).valid = true → a ≠ b →
      (codeAt codedA a).effective ≠ (codeAt codedA b).effective) ∧
    (∃ t, exec .hdrw codedA = .next t ∧ (t.errcode == 0#8 &&
      (t.outLen + 1#32).toNat == t.outLen.toNat + ceil8 (bitCount codedA.freq codedA.code) &&
      decide ((t.outLen + 1#32).toNat ≤ (machine []).params.ibufBytes) &&
      (List.range t.outLen.toNat).all (fun j => ({ machine [] with ibuf := t.obuf } : State).ibuf.read j == t.obuf.read j)) =
        true) ∧
    ∃ t, exec .hdrwL codedA = .next t ∧
      (t.errcode == 0#8 && decide (t.outLen.toNat ≤ (machine []).params.ibufBytes)) = true := by
  have hv : ∀ sym, (codeAt codedA sym).valid = true → sym = 0x61#8 := by
    intro sym h
    by_contra hs
    have : codeAt codedA sym = CodeEntry.empty := by
      show tableGet (tableSet emptyCodeTable 0x61#8 ⟨true, 1#8, 0#256⟩) sym = _
      rw [tableGet_set_other _ _ hs, tableGet_empty]
    simp [this, CodeEntry.empty] at h
  refine ⟨by decide, ?_, ?_, next_of_after (p := fun t => t.errcode == 0#8 &&
    (t.outLen + 1#32).toNat == t.outLen.toNat + ceil8 (bitCount codedA.freq codedA.code) &&
    decide ((t.outLen + 1#32).toNat ≤ (machine []).params.ibufBytes) &&
    (List.range t.outLen.toNat).all (fun j => ({ machine [] with ibuf := t.obuf } : State).ibuf.read j == t.obuf.read j))
    (by decide +kernel), next_of_after (p := fun t => t.errcode == 0#8 && decide (t.outLen.toNat ≤
      (machine []).params.ibufBytes)) (by decide +kernel)⟩
  · intro sym h
    obtain rfl := hv sym h
    decide +kernel
  · intro a b ha hb hab
    exact absurd ((hv a ha).trans (hv b hb).symm) hab

/-! ## Witnesses: the composites, errors, frames -/

theorem witness_CompressWritesContainer :
    (machine [0x61#8, 0x61#8, 0x62#8]).params.wf ∧ IbufHolds (machine [0x61#8, 0x61#8, 0x62#8]) [0x61#8, 0x61#8, 0x62#8] ∧
    3 ≤ (machine []).params.ibufBytes ∧
    (containerOf .extended [0x61#8, 0x61#8, 0x62#8]).length ≤ (machine []).params.obufBytes ∧
    (containerOf .legacy [0x61#8, 0x61#8, 0x62#8]).length ≤ (machine []).params.obufBytes := by decide +kernel

/-- Every premise of the chain: the five steps, the step that raises, the step that stops. -/
theorem witness_CompositesEqualTheirSteps :
    (∃ t1 t2 t3 t4, exec .freq (machine [0x61#8]) = .next t1 ∧ t1.errcode = 0#8 ∧ exec .build t1 = .next t2 ∧
      exec .assign t2 = .next t3 ∧ exec .hdrw t3 = .next t4) ∧
    (∃ t, exec .freq { machine [] with inLen := 33#32 } = .next t ∧ (t.errcode != 0#8) = true) ∧
    exec .freq { machine [] with inLen := 1#32 } = .fault (.uninitByte .input 0) ∧
    (∃ t, exec .hdrp (machine []) = .next t) ∧
    exec .hdrp { machine [] with inLen := 1#32 } = .fault (.uninitByte .input 0) := by
  refine ⟨?_, next_of_after (p := fun t => t.errcode != 0#8) (by decide +kernel), rfl, next_of_runs (by decide +kernel), rfl⟩
  obtain ⟨t1, h1, e1⟩ := next_of_after (o := exec .freq (machine [0x61#8])) (p := fun t => t.errcode == 0#8 &&
    after (exec .build t) (fun t2 => after (exec .assign t2) (fun t3 => after (exec .hdrw t3) (fun _ => true))))
    (by decide +kernel)
  rw [Bool.and_eq_true, beq_iff_eq] at e1
  obtain ⟨t2, h2, e2⟩ := next_of_after e1.2
  obtain ⟨t3, h3, e3⟩ := next_of_after e2
  obtain ⟨t4, h4, -⟩ := next_of_after e3
  exact ⟨t1, t2, t3, t4, h1, e1.1, h2, h3, h4⟩

/-- "aa," under the two lines: bits 0010, payload 0x20; and eight bits 00100000 for the legacy form. -/
theorem witness_DecompressRecoversMessage :
    (machine []).params.wf ∧ GoodLines twoLines ∧ PrefixFreeLines twoLines ∧
    (∀ b ∈ [0x61#8, 0x61#8, 0x2C#8], (lineCode twoLines b).isSome = true) ∧
    (∀ k < (lineBits twoLines [0x61#8, 0x61#8, 0x2C#8]).length,
      (([0x20#8] : List Byte)[k / 8]?).map (fun b => payloadBit b k) = (lineBits twoLines [0x61#8, 0x61#8, 0x2C#8])[k]?) ∧
    ([0x20#8].length = ceil8 (lineBits twoLines [0x61#8, 0x61#8, 0x2C#8]).length ∧
      IbufHolds (machine (headerOf twoLines (some 4) ++ [0x20#8]))
        (headerOf twoLines (some (lineBits twoLines [0x61#8, 0x61#8, 0x2C#8]).length) ++ [0x20#8]) ∧
      (machine (headerOf twoLines (some 4) ++ [0x20#8])).inLen.toNat ≤ (machine []).params.ibufBytes) ∧
    (8 * [0x20#8].length = (lineBits twoLines [0x61#8, 0x61#8, 0x2C#8, 0x61#8, 0x61#8, 0x61#8, 0x61#8]).length ∧
      IbufHolds (machine (headerOf twoLines none ++ [0x20#8])) (headerOf twoLines none ++ [0x20#8])) := by
  decide +kernel

/-- The container of "aab", copied into a machine of its own. -/
theorem witness_ContainerRoundTrip :
    (machine [0x61#8, 0x61#8, 0x62#8]).params.wf ∧ IbufHolds (machine [0x61#8, 0x61#8, 0x62#8]) [0x61#8, 0x61#8, 0x62#8] ∧
    (containerOf .extended [0x61#8, 0x61#8, 0x62#8]).length ≤ (machine []).params.obufBytes ∧
    ∃ t, exec .compress (machine [0x61#8, 0x61#8, 0x62#8]) = .next t ∧
      (decide (t.outLen.toNat ≤ ({ machine [] with ibuf := t.obuf, inLen := t.outLen } : State).params.ibufBytes) &&
        decide (3 ≤ (machine []).params.obufBytes)) = true :=
  ⟨by decide, by decide, by decide +kernel, next_of_after (p := fun t =>
    decide (t.outLen.toNat ≤ ({ machine [] with ibuf := t.obuf, inLen := t.outLen } : State).params.ibufBytes) &&
      decide (3 ≤ (machine []).params.obufBytes)) (by decide +kernel)⟩

theorem witness_AllOrNothingErrors :
    (∃ t, exec .freq { machine [] with inLen := 33#32 } = .next t ∧ (t.errcode != 0#8) = true) ∧
    (∃ t, exec .assign (machine []) = .next t ∧ (t.errcode != 0#8) = true) ∧
    (∃ t, exec .encode (machine [0x61#8]) = .next t ∧ (t.errcode != 0#8) = true) ∧
    (∃ t, exec .hdrw builtLeaf = .next t ∧ (t.errcode != 0#8) = true) ∧
    ∃ t, exec .hdrwL { codedA with params := ⟨32, 11⟩ } = .next t ∧ (t.errcode != 0#8) = true :=
  ⟨next_of_after (p := fun t => t.errcode != 0#8) (by decide +kernel),
    next_of_after (p := fun t => t.errcode != 0#8) (by decide +kernel),
    next_of_after (p := fun t => t.errcode != 0#8) (by decide +kernel),
    next_of_after (p := fun t => t.errcode != 0#8) (by decide +kernel),
    next_of_after (p := fun t => t.errcode != 0#8) (by decide +kernel)⟩

theorem witness_FrameOfNonStoringCommands :
    ∀ i ∈ [Instr.nop, .clear, .freq, .build, .assign, .hdrp, .hdrpL], ∃ t, exec i built = .next t := by
  intro i hi
  have : ([Instr.nop, .clear, .freq, .build, .assign, .hdrp, .hdrpL].all
      (fun i => after (exec i built) (fun _ => true))) = true := by decide +kernel
  exact next_of_runs (List.all_eq_true.1 this i hi)

theorem witness_FrameOfStoringCommands :
    codedA.params.wf ∧
    ∀ i ∈ [Instr.encode, .decode, .hdrw, .hdrwL, .compress, .compressL, .decompress, .decompressL],
      ∃ t, exec i codedA = .next t := by
  refine ⟨by decide, fun i hi => ?_⟩
  have : ([Instr.encode, .decode, .hdrw, .hdrwL, .compress, .compressL, .decompress, .decompressL].all
      (fun i => after (exec i codedA) (fun _ => true))) = true := by decide +kernel
  exact next_of_runs (List.all_eq_true.1 this i hi)

end Sys2Proof.Tests
end

section
/-! PROOFS. Decimal text: the equations of `dec`, and 00_scope.md R16 (O49). -/

namespace Sys2Proof.Machine

/-! ## The equations of `dec` -/

theorem decDigits_of_lt {n : Nat} (h : n < 10) (fuel : Nat) (tail : List Byte) :
    decDigits (fuel + 1) n tail = digitChar n :: tail := if_pos h

theorem decDigits_of_ge {n : Nat} (h : 10 ≤ n) (fuel : Nat) (tail : List Byte) :
    decDigits (fuel + 1) n tail = decDigits fuel (n / 10) (digitChar (n % 10) :: tail) :=
  if_neg (Nat.not_lt.2 h)

/-- The accumulator only stands behind the digits. -/
theorem decDigits_eq_append (fuel n : Nat) (tail : List Byte) :
    decDigits fuel n tail = decDigits fuel n [] ++ tail := by
  induction fuel generalizing n tail with
  | zero => rfl
  | succ fuel ih =>
    obtain h | h := Nat.lt_or_ge n 10
    · rw [decDigits_of_lt h, decDigits_of_lt h, List.singleton_append]
    · rw [decDigits_of_ge h, decDigits_of_ge h, ih, ih _ [_], List.append_assoc, List.singleton_append]

/-- Any fuel above n is enough, and more changes nothing. -/
theorem decDigits_congr_fuel {fuel fuel' n : Nat} (h : n < fuel) (h' : n < fuel') (tail : List Byte) :
    decDigits fuel n tail = decDigits fuel' n tail := by
  induction fuel generalizing fuel' n tail with
  | zero => omega
  | succ fuel ih =>
    cases fuel' with
    | zero => omega
    | succ fuel' =>
      obtain hn | hn := Nat.lt_or_ge n 10
      · rw [decDigits_of_lt hn, decDigits_of_lt hn]
      · rw [decDigits_of_ge hn, decDigits_of_ge hn]
        exact ih (by omega) (by omega) _

theorem dec_of_lt {n : Nat} (h : n < 10) : dec n = [digitChar n] := decDigits_of_lt h n []

theorem dec_of_ge {n : Nat} (h : 10 ≤ n) : dec n = dec (n / 10) ++ [digitChar (n % 10)] := by
  have hfuel : n / 10 < n := by omega
  calc dec n = decDigits n (n / 10) [digitChar (n % 10)] := decDigits_of_ge h n []
    _ = decDigits n (n / 10) [] ++ [digitChar (n % 10)] := decDigits_eq_append ..
    _ = dec (n / 10) ++ [digitChar (n % 10)] := by
      rw [dec, decDigits_congr_fuel hfuel (Nat.lt_succ_self _)]

/-- Induction along the digits of `dec`: one digit, or one more behind those of `n / 10`. -/
theorem decimal_induction {P : Nat → Prop} (digit : ∀ n < 10, P n) (more : ∀ n, 10 ≤ n → P (n / 10) → P n)
    (n : Nat) : P n := by
  induction n using Nat.strongRecOn with
  | _ n ih =>
    obtain h | h := Nat.lt_or_ge n 10
    · exact digit n h
    · exact more n h (ih _ (by omega))

/-! ## What `dec` writes -/

theorem digitChar_toNat {n : Nat} (h : n < 10) : (digitChar n).toNat = 0x30 + n := by
  rw [digitChar, BitVec.toNat_ofNat, show chZero.toNat = 0x30 from rfl]
  omega

theorem dec_ne_nil (n : Nat) : dec n ≠ [] := by
  obtain h | h := Nat.lt_or_ge n 10
  · simp [dec_of_lt h]
  · simp [dec_of_ge h]

theorem digit_of_mem_dec {n : Nat} {d : Byte} (hd : d ∈ dec n) : ∃ k < 10, d = digitChar k := by
  induction n using decimal_induction with
  | digit n h => exact ⟨n, h, by simpa [dec_of_lt h] using hd⟩
  | more n h ih =>
    rw [dec_of_ge h, List.mem_append, List.mem_singleton] at hd
    exact hd.elim ih fun hlast => ⟨n % 10, Nat.mod_lt _ (by decide), hlast⟩

/-- Read most significant digit first, the digits give the number back. -/
theorem foldl_dec (n : Nat) : (dec n).foldl (fun v d => 10 * v + (d.toNat - 0x30)) 0 = n := by
  induction n using decimal_induction with
  | digit n h => simp [dec_of_lt h, digitChar_toNat h]
  | more n h ih =>
    have hlast : (digitChar (n % 10)).toNat = 0x30 + n % 10 := digitChar_toNat (Nat.mod_lt _ (by decide))
    rw [dec_of_ge h, List.foldl_append, ih, List.foldl_cons, List.foldl_nil, hlast]
    omega

theorem head?_dec_ne_zero {n : Nat} (hn : 0 < n) : (dec n).head? ≠ some 0x30#8 := by
  induction n using decimal_induction with
  | digit n h =>
    have hval := digitChar_toNat h
    rw [dec_of_lt h, List.head?_cons, Ne, Option.some_inj]
    intro hzero
    rw [hzero, show (0x30#8).toNat = 0x30 from rfl] at hval
    omega
  | more n h ih =>
    rw [dec_of_ge h, List.head?_append_of_ne_nil _ (dec_ne_nil _)]
    exact ih (by omega)

/-- Settles O49: each part by induction along the digits; only `dec 0` begins with a zero, and it is one digit. -/
theorem decimalTextIsCanonical : Obligations.DecimalTextIsCanonical := by
  refine fun n => ⟨dec_ne_nil n, fun d hd => ?_, foldl_dec n, fun hlen => ?_⟩
  · obtain ⟨k, hk, rfl⟩ := digit_of_mem_dec hd
    rw [digitChar_toNat hk]
    omega
  · have hn : n ≠ 0 := by rintro rfl; exact absurd hlen (by decide)
    exact head?_dec_ne_zero (Nat.pos_of_ne_zero hn)

end Sys2Proof.Machine
end

section
/-! PROOFS. The tree BUILD makes: an induction rule for the MERGE loop, and what it gives of `buildTree` (42_tree_builder.md
R184 to R190): its number of nodes, the indexes in it, and the weight of its root. -/

namespace Sys2Proof.Machine

/-! ## Extraction and the MERGE loop -/

/-- Extraction takes one entry out and leaves the others (42_tree_builder.md R182). -/
theorem extractMin_perm {pq : List PQEntry} {m : PQEntry} {rest : List PQEntry} (h : extractMin pq = some (m, rest)) :
    (m :: rest).Perm pq := by
  induction pq generalizing m rest with
  | nil => simp [extractMin] at h
  | cons e es ih =>
    unfold extractMin at h
    split at h
    · next hnone =>
      rw [extractMin_eq_none.1 hnone]
      obtain ⟨rfl, rfl⟩ : e = m ∧ [] = rest := by simpa using h
      exact .refl _
    · next m' rest' hsome =>
      split at h
      · obtain ⟨rfl, rfl⟩ : m' = m ∧ e :: rest' = rest := by simpa using h
        exact (List.Perm.swap ..).trans ((ih hsome).cons e)
      · obtain ⟨rfl, rfl⟩ : e = m ∧ es = rest := by simpa using h
        exact .refl _

/-- Induction along the merges: what one merge keeps, the loop keeps. -/
theorem mergeLoop_keeps {P : List PQEntry → List Node → Prop}
    (merge : ∀ pq nodes a b rest, P pq nodes → (a :: b :: rest).Perm pq →
      P (⟨a.weight + b.weight, nodes.length⟩ :: rest) (nodes ++ [mergeNode a b]))
    (fuel : Nat) {pq : List PQEntry} {nodes : List Node} (h : P pq nodes) :
    P (mergeLoop fuel pq nodes).1 (mergeLoop fuel pq nodes).2 := by
  induction fuel generalizing pq nodes with
  | zero => exact h
  | succ fuel ih =>
    unfold mergeLoop
    split
    · exact h
    · next a pq1 ha =>
      split
      · exact h
      · next b pq2 hb =>
        exact ih (merge _ _ a b pq2 h (((extractMin_perm hb).cons a).trans (extractMin_perm ha)))

/-- Every live entry and every child names a node that has been placed. -/
structure IndexesPlaced (pq : List PQEntry) (nodes : List Node) : Prop where
  live : ∀ e ∈ pq, e.index < nodes.length
  children : ∀ nd ∈ nodes, nd.internal = true → nd.left.toNat < nodes.length ∧ nd.right.toNat < nodes.length

theorem indexesPlaced_merge {pq : List PQEntry} {nodes : List Node} {a b : PQEntry} {rest : List PQEntry}
    (h : IndexesPlaced pq nodes) (hperm : (a :: b :: rest).Perm pq) :
    IndexesPlaced (⟨a.weight + b.weight, nodes.length⟩ :: rest) (nodes ++ [mergeNode a b]) := by
  have live : ∀ e ∈ a :: b :: rest, e.index < nodes.length := fun e he => h.live e (hperm.mem_iff.1 he)
  obtain ⟨ha, hb, hrest⟩ : a.index < nodes.length ∧ b.index < nodes.length ∧ ∀ e ∈ rest, e.index < nodes.length := by
    simpa using live
  have hlen : (nodes ++ [mergeNode a b]).length = nodes.length + 1 := by simp
  refine ⟨fun e he => ?_, fun nd hnd hint => ?_⟩ <;> rw [hlen]
  · obtain rfl | he := List.mem_cons.1 he
    · exact Nat.lt_succ_self _
    · exact (hrest e he).trans (Nat.lt_succ_self _)
  · obtain hnd | hnd := List.mem_append.1 hnd
    · have := h.children nd hnd hint
      omega
    · obtain rfl := List.mem_singleton.1 hnd
      have hl : (mergeNode a b).left.toNat ≤ a.index := Nat.mod_le ..
      have hr : (mergeNode a b).right.toNat ≤ b.index := Nat.mod_le ..
      omega

/-- The sum of the live entries' weights. -/
def liveWeight (pq : List PQEntry) : Nat := (pq.map PQEntry.weight).sum

theorem liveWeight_merge {pq : List PQEntry} {a b : PQEntry} {rest : List PQEntry} (n : Nat)
    (hperm : (a :: b :: rest).Perm pq) : liveWeight (⟨a.weight + b.weight, n⟩ :: rest) = liveWeight pq := by
  have := (hperm.map PQEntry.weight).sum_nat
  simp only [liveWeight, List.map_cons, List.sum_cons] at this ⊢
  omega

/-! ## The seed -/

theorem seedQueue_length (leaves : List (Symbol × Word)) : (seedQueue leaves).length = leaves.length := by
  simp [seedQueue]

theorem mem_seedQueue {leaves : List (Symbol × Word)} {e : PQEntry} (h : e ∈ seedQueue leaves) :
    ∃ x ∈ leaves, e.weight = x.2.toNat ∧ e.index < leaves.length := by
  obtain ⟨⟨x, i⟩, hx, rfl⟩ := List.mem_map.1 h
  obtain ⟨-, hlt, heq⟩ := List.mem_zipIdx hx
  have hi : i < leaves.length := by omega
  exact ⟨x, heq ▸ List.getElem_mem _, rfl, hi⟩

theorem indexesPlaced_seed (leaves : List (Symbol × Word)) :
    IndexesPlaced (seedQueue leaves) (leaves.map leafNode) := by
  refine ⟨fun e he => ?_, fun nd hnd hint => ?_⟩
  · obtain ⟨-, -, -, hi⟩ := mem_seedQueue he
    simpa using hi
  · obtain ⟨x, -, rfl⟩ := List.mem_map.1 hnd
    cases hint

/-- The leaves weigh less than 2^40: there are at most 256 of them, each below 2^32 (42_tree_builder.md R189). -/
theorem liveWeight_seed_lt (freq : Vector Word 256) : liveWeight (seedQueue (presentSymbols freq)) < 2 ^ 40 := by
  have hbound : ∀ w ∈ (seedQueue (presentSymbols freq)).map PQEntry.weight, w ≤ 2 ^ 32 - 1 := by
    intro w hw
    obtain ⟨e, he, rfl⟩ := List.mem_map.1 hw
    obtain ⟨x, -, hweight, -⟩ := mem_seedQueue he
    have := x.2.isLt
    omega
  have hsum := List.sum_le_card_nsmul _ _ hbound
  have hlen := presentSymbols_length_le freq
  rw [List.length_map, seedQueue_length, smul_eq_mul] at hsum
  rw [liveWeight]
  omega

/-! ## The tree -/

theorem buildTree_indexesPlaced (freq : Vector Word 256) : IndexesPlaced (buildTree freq).1 (buildTree freq).2 :=
  mergeLoop_keeps (fun _ _ _ _ _ => indexesPlaced_merge) _ (indexesPlaced_seed _)

/-- No merge changes the live weight, so what is left in the arbiter weighs what the leaves weigh. -/
theorem buildTree_liveWeight (freq : Vector Word 256) :
    liveWeight (buildTree freq).1 = liveWeight (seedQueue (presentSymbols freq)) :=
  mergeLoop_keeps (P := fun pq _ => liveWeight pq = liveWeight (seedQueue (presentSymbols freq)))
    (fun _ nodes _ _ _ h hperm => (liveWeight_merge nodes.length hperm).trans h) _ rfl

/-- Without a present symbol there is neither an entry nor a node (42_tree_builder.md R188). -/
theorem buildTree_of_no_symbol {freq : Vector Word 256} (h : presentSymbols freq = []) : buildTree freq = ([], []) := by
  rw [buildTree, h]
  rfl

/-- With k present symbols one entry is left and 2k − 1 nodes are placed (42_tree_builder.md R186). -/
theorem buildTree_lengths {freq : Vector Word 256} (h : presentSymbols freq ≠ []) :
    (buildTree freq).1.length = 1 ∧ (buildTree freq).2.length + 1 = 2 * (presentSymbols freq).length := by
  have hne : seedQueue (presentSymbols freq) ≠ [] := by
    rwa [← List.length_pos_iff, seedQueue_length, List.length_pos_iff]
  obtain ⟨hone, hnodes⟩ := mergeLoop_length (presentSymbols freq).length (seedQueue (presentSymbols freq))
    ((presentSymbols freq).map leafNode) (by rw [seedQueue_length]; omega) hne
  rw [List.length_map, seedQueue_length] at hnodes
  exact ⟨hone, by rw [buildTree]; omega⟩

theorem buildTree_nodes_length_le (freq : Vector Word 256) : (buildTree freq).2.length ≤ 511 := by
  by_cases h : presentSymbols freq = []
  · simp [buildTree_of_no_symbol h]
  · have := (buildTree_lengths h).2
    have := presentSymbols_length_le freq
    omega

/-- The arbiter is empty exactly where there is no tree. -/
theorem buildTree_nodes_of_empty {freq : Vector Word 256} (h : (buildTree freq).1 = []) : (buildTree freq).2 = [] := by
  by_cases hp : presentSymbols freq = []
  · rw [buildTree_of_no_symbol hp]
  · have := (buildTree_lengths hp).1
    simp [h] at this

theorem rootEntry_mem {pq : List PQEntry} (h : pq ≠ []) : rootEntry pq ∈ pq := by
  cases pq with
  | nil => exact absurd rfl h
  | cons e es => exact List.mem_cons_self

theorem buildTree_root_index_lt {freq : Vector Word 256} (h : (buildTree freq).1 ≠ []) :
    (rootEntry (buildTree freq).1).index < (buildTree freq).2.length :=
  (buildTree_indexesPlaced freq).live _ (rootEntry_mem h)

theorem rootEntry_weight_le (pq : List PQEntry) : (rootEntry pq).weight ≤ liveWeight pq := by
  cases pq with
  | nil => exact Nat.zero_le _
  | cons e es => simp [rootEntry, liveWeight]

/-- ROOT_W holds the root's weight (10_state.md R51). -/
theorem buildTree_root_weight_lt (freq : Vector Word 256) : (rootEntry (buildTree freq).1).weight < 2 ^ 40 :=
  calc (rootEntry (buildTree freq).1).weight
    _ ≤ liveWeight (buildTree freq).1 := rootEntry_weight_le _
    _ = liveWeight (seedQueue (presentSymbols freq)) := buildTree_liveWeight freq
    _ < 2 ^ 40 := liveWeight_seed_lt freq

/-! ## The arena after a BUILD -/

/-- An entry below the first one written reads as before. -/
theorem arenaGet_arenaWrite_below (arena : Vector Node 511) {k : Nat} (nodes : List Node) {n : Nat} (hn : n < k) :
    arenaGet (arenaWrite arena k nodes) n = arenaGet arena n := by
  induction nodes generalizing arena k with
  | nil => rfl
  | cons nd nds ih =>
    rw [arenaWrite, ih _ (by omega)]
    obtain hk | hk := Nat.lt_or_ge k 511
    · rw [arenaGet_setIfInBounds _ _ _ _ hk, if_neg (by omega)]
    · rw [Vector.setIfInBounds_eq_of_size_le hk]

/-- A written entry reads as what was written to it. -/
theorem arenaGet_arenaWrite_inside (arena : Vector Node 511) {k : Nat} (nodes : List Node) {j : Nat}
    (hj : j < nodes.length) (hsize : k + j < 511) : arenaGet (arenaWrite arena k nodes) (k + j) = nodes[j] := by
  induction nodes generalizing arena k j with
  | nil => simp at hj
  | cons nd nds ih =>
    rw [arenaWrite]
    cases j with
    | zero =>
      rw [arenaGet_arenaWrite_below _ _ (by omega), arenaGet_setIfInBounds _ _ _ _ (by omega), if_pos (Nat.add_zero k)]
      rfl
    | succ j =>
      rw [show k + (j + 1) = k + 1 + j by omega, ih _ (by simpa using hj) (by omega)]
      rfl

end Sys2Proof.Machine
end

section
/-! PROOFS. The input scans: they read IBUF, IN_LEN, IBUF_BYTES and CODE of a state and nothing else, and the table a header
gives has no empty code (46_container_codec.md R248 to R252). -/

namespace Sys2Proof.Machine

/-! ## The equations of the parser's two loops -/

theorem decLoop_zero (s : State) (err : ErrCode) (start : Nat) (first : Byte) (n v p : Nat) :
    decLoop s err start first 0 n v p = (peekByte s p >>= fun d =>
      if d = chLF then if 1 < n ∧ first = chZero then .error (.raise err start) else .ok (v, p + 1)
      else if !isDigit d then .error (.raise err p)
      else .error (.raise err p)) := rfl

theorem decLoop_succ (s : State) (err : ErrCode) (start : Nat) (first : Byte) (left n v p : Nat) :
    decLoop s err start first (left + 1) n v p = (peekByte s p >>= fun d =>
      if d = chLF then if 1 < n ∧ first = chZero then .error (.raise err start) else .ok (v, p + 1)
      else if !isDigit d then .error (.raise err p)
      else decLoop s err start first left (n + 1) (10 * v + digitVal d) (p + 1)) := rfl

theorem codeField_zero (s : State) (len v p : Nat) :
    codeField s 0 len v p = (peekByte s p >>= fun b =>
      if b = chComma ∧ 1 ≤ len then .ok (len, v, p + 1)
      else if b = chZero ∨ b = chOne then .error (.raise .hdrLine p)
      else .error (.raise .hdrLine p)) := rfl

theorem codeField_succ (s : State) (left len v p : Nat) :
    codeField s (left + 1) len v p = (peekByte s p >>= fun b =>
      if b = chComma ∧ 1 ≤ len then .ok (len, v, p + 1)
      else if b = chZero ∨ b = chOne then codeField s left (len + 1) (pushBit v (b == chOne)) (p + 1)
      else .error (.raise .hdrLine p)) := rfl

/-! ## What a scan depends on -/

/-- Two states hold the same input. -/
structure SameInput (t s : State) : Prop where
  params : t.params = s.params
  inLen : t.inLen = s.inLen
  ibuf : t.ibuf = s.ibuf

section
variable {s t : State}

theorem inputByte_congr (h : SameInput t s) : inputByte t = inputByte s := by
  funext i
  rw [inputByte, h.ibuf, inputByte]

theorem inputBytes_congr (h : SameInput t s) : inputBytes t = inputBytes s := by
  funext n
  induction n with
  | zero => rfl
  | succ n ih =>
    funext i
    simp only [inputBytes, ih, inputByte_congr h]

theorem encodeScan_congr (h : SameInput t s) (hcode : t.code = s.code) : encodeScan t = encodeScan s := by
  have hcodeAt : codeAt t = codeAt s := by
    funext sym
    rw [codeAt, hcode, codeAt]
  funext n
  induction n with
  | zero => rfl
  | succ n ih =>
    funext i
    rw [encodeScan, encodeScan, inputByte_congr h, hcodeAt, ih]

theorem peekByte_congr (h : SameInput t s) : peekByte t = peekByte s := by
  funext p
  simp only [peekByte, h.inLen, inputByte_congr h]

theorem expectByte_congr (h : SameInput t s) : expectByte t = expectByte s := by
  funext ch err p
  simp only [expectByte, peekByte_congr h]

theorem decLoop_congr (h : SameInput t s) : decLoop t = decLoop s := by
  funext err start first left
  induction left with
  | zero =>
    funext n v p
    rw [decLoop_zero, decLoop_zero, peekByte_congr h]
  | succ left ih =>
    funext n v p
    rw [decLoop_succ, decLoop_succ, peekByte_congr h, ih]

theorem decField_congr (h : SameInput t s) : decField t = decField s := by
  funext err maxDigits p
  simp only [decField, peekByte_congr h, decLoop_congr h]

theorem codeField_congr (h : SameInput t s) : codeField t = codeField s := by
  funext left
  induction left with
  | zero =>
    funext len v p
    rw [codeField_zero, codeField_zero, peekByte_congr h]
  | succ left ih =>
    funext len v p
    rw [codeField_succ, codeField_succ, peekByte_congr h, ih]

theorem parseLine_congr (h : SameInput t s) : parseLine t = parseLine s := by
  funext q
  simp only [parseLine, peekByte_congr h, codeField_congr h, expectByte_congr h]

theorem parseLines_congr (h : SameInput t s) : parseLines t = parseLines s := by
  funext n
  induction n with
  | zero => rfl
  | succ n ih =>
    funext table q
    simp only [parseLines, parseLine_congr h, ih]

theorem parseBitCount_congr (h : SameInput t s) (f : Format) (p : Nat) : parseBitCount t p f = parseBitCount s p f := by
  cases f with
  | extended => simp only [parseBitCount, decField_congr h]
  | legacy => rfl

theorem parseEnd_congr (h : SameInput t s) : parseEnd t = parseEnd s := by
  funext f q
  simp only [parseEnd, peekByte_congr h, expectByte_congr h]

theorem parsedPayBits_congr (h : SameInput t s) (f : Format) (B hl : Nat) :
    parsedPayBits t B hl f = parsedPayBits s B hl f := by
  cases f <;> simp only [parsedPayBits, h.inLen]

/-- A header is parsed alike from every state with the same input. -/
theorem parseHeader_congr (h : SameInput t s) (f : Format) : parseHeader f t = parseHeader f s := by
  simp only [parseHeader, h.params, h.inLen, expectByte_congr h, decField_congr h, parseLines_congr h,
    parseBitCount_congr h, parseEnd_congr h, parsedPayBits_congr h]

end

/-! ## The table of a parsed header -/

/-- No valid entry has an empty code (10_state.md R58, 30_encoding.md R138). -/
abbrev NoEmptyCode (code : Vector CodeEntry 256) : Prop := ∀ e ∈ code.toList, e.valid = true → e.len ≠ 0#8

theorem noEmptyCode_iff {code : Vector CodeEntry 256} :
    NoEmptyCode code ↔ ∀ sym, (tableGet code sym).valid = true → (tableGet code sym).len ≠ 0#8 := by
  constructor
  · exact fun h sym => h _ (by simp [tableGet])
  · intro h e he
    obtain ⟨n, hn, rfl⟩ := List.getElem_of_mem he
    have hn' : n < 256 := by simpa using hn
    simpa [tableGet, Nat.mod_eq_of_lt hn'] using h (BitVec.ofNat 8 n)

theorem noEmptyCode_empty : NoEmptyCode emptyCodeTable :=
  noEmptyCode_iff.2 fun sym hvalid => by simp [CodeEntry.empty] at hvalid

theorem noEmptyCode_tableSet {code : Vector CodeEntry 256} (h : NoEmptyCode code) (sym : Symbol) {e : CodeEntry}
    (he : e.valid = true → e.len ≠ 0#8) : NoEmptyCode (tableSet code sym e) := by
  refine noEmptyCode_iff.2 fun r => ?_
  by_cases hr : r = sym
  · rw [hr, tableGet_set_same]
    exact he
  · rw [tableGet_set_other _ _ hr]
    exact noEmptyCode_iff.1 h r

/-- A code field holds 1 to 255 characters (46_container_codec.md R249). -/
theorem codeField_length {s : State} {left len v p len' v' p' : Nat} (h : codeField s left len v p = .ok (len', v', p')) :
    1 ≤ len' ∧ len' ≤ len + left := by
  induction left generalizing len v p with
  | zero =>
    rw [codeField_zero] at h
    obtain ⟨b, -, h⟩ := bind_eq_ok.1 h
    split at h
    · next hcomma =>
      obtain ⟨rfl, -⟩ : len = len' ∧ v = v' ∧ p + 1 = p' := by simpa using h
      exact ⟨hcomma.2, Nat.le_add_right _ _⟩
    · split at h <;> cases h
  | succ left ih =>
    rw [codeField_succ] at h
    obtain ⟨b, -, h⟩ := bind_eq_ok.1 h
    split at h
    · next hcomma =>
      obtain ⟨rfl, -⟩ : len = len' ∧ v = v' ∧ p + 1 = p' := by simpa using h
      exact ⟨hcomma.2, Nat.le_add_right _ _⟩
    · split at h
      · have := ih h
        omega
      · cases h

theorem parseLine_length {s : State} {q : Nat} {l : ParsedLine} (h : parseLine s q = .ok l) :
    1 ≤ l.len ∧ l.len ≤ 255 := by
  obtain ⟨b, -, h⟩ := bind_eq_ok.1 h
  split at h
  · cases h
  · obtain ⟨⟨len, v, p⟩, hfield, h⟩ := bind_eq_ok.1 h
    obtain ⟨sym, -, h⟩ := bind_eq_ok.1 h
    obtain ⟨p', -, h⟩ := bind_eq_ok.1 h
    cases h
    simpa using codeField_length hfield

theorem parsedLine_entry_nonEmpty {l : ParsedLine} (h : 1 ≤ l.len ∧ l.len ≤ 255) : l.entry.len ≠ 0#8 := by
  intro hzero
  have := congrArg BitVec.toNat hzero
  simp only [ParsedLine.entry, BitVec.toNat_ofNat] at this
  omega

theorem parseLines_noEmptyCode {s : State} {n q q' : Nat} {table table' : Vector CodeEntry 256}
    (h : parseLines s n table q = .ok (table', q')) (htable : NoEmptyCode table) : NoEmptyCode table' := by
  induction n generalizing table q with
  | zero =>
    cases h
    exact htable
  | succ n ih =>
    obtain ⟨l, hline, h⟩ := bind_eq_ok.1 h
    split at h
    · cases h
    · exact ih h (noEmptyCode_tableSet htable _ fun _ => parsedLine_entry_nonEmpty (parseLine_length hline))

theorem parseHeader_noEmptyCode {f : Format} {s : State} {h : ParsedHeader} (hparse : parseHeader f s = .ok h) :
    NoEmptyCode h.code := by
  rw [parseHeader] at hparse
  split at hparse
  · cases hparse
  · obtain ⟨p1, -, hparse⟩ := bind_eq_ok.1 hparse
    obtain ⟨p2, -, hparse⟩ := bind_eq_ok.1 hparse
    obtain ⟨nstart, -, hparse⟩ := bind_eq_ok.1 hparse
    obtain ⟨⟨N, p3⟩, -, hparse⟩ := bind_eq_ok.1 hparse
    dsimp only at hparse
    split at hparse
    · cases hparse
    · obtain ⟨⟨table, p4⟩, hlines, hparse⟩ := bind_eq_ok.1 hparse
      obtain ⟨⟨B, p5⟩, -, hparse⟩ := bind_eq_ok.1 hparse
      obtain ⟨hl, -, hparse⟩ := bind_eq_ok.1 hparse
      obtain ⟨bits, -, hparse⟩ := bind_eq_ok.1 hparse
      cases hparse
      exact parseLines_noEmptyCode hlines noEmptyCode_empty

/-! ## The table of a tree -/

theorem writeCodes_noEmptyCode {codes : List (Symbol × BitStr)} {table : Vector CodeEntry 256} (htable : NoEmptyCode table)
    (h : ∀ x ∈ codes, 1 ≤ x.2.length ∧ x.2.length ≤ 255) : NoEmptyCode (writeCodes table codes) := by
  induction codes generalizing table with
  | nil => exact htable
  | cons x codes ih =>
    obtain ⟨hx, hcodes⟩ := List.forall_mem_cons.1 h
    refine ih (noEmptyCode_tableSet htable _ fun _ hzero => ?_) hcodes
    have := congrArg BitVec.toNat hzero
    simp only [CodeEntry.ofBits, BitVec.toNat_ofNat] at this
    omega

/-- ASSIGN's codes have 1 to 255 bits, whatever the arena holds (43_code_assigner.md R201, R202). -/
theorem treeCodes_length {arena : Vector Node 511} {root : Nat} {x : Symbol × BitStr} (h : x ∈ treeCodes arena root) :
    1 ≤ x.2.length ∧ x.2.length ≤ 255 := by
  rw [treeCodes] at h
  split at h
  · next hint =>
    rw [leafPaths, if_pos hint, List.mem_append] at h
    obtain h | h := h <;>
    · have := leafPaths_length h
      simp only [List.length_append, List.length_cons, List.length_nil] at this
      omega
  · rw [List.mem_singleton.1 h]
    simp

end Sys2Proof.Machine
end

section
/-! PROOFS. What a command's body can do: one rule per body for a property of every state it can end in, with an error or
without one, and what follows of the tree registers. -/

namespace Sys2Proof.Machine

/-! ## Every end of a body -/

/-- The property holds of the state a body ends in, at its `complete()` or at a `raise`. -/
def CmdResult.All (P : State → Prop) : CmdResult → Prop
  | .done s => P s
  | .raise s _ _ => P s
  | .fault _ => True

theorem all_stop_result {P : State → Prop} {s : State} (h : P s) (stop : Stop) : (stop.result s).All P := by
  cases stop with
  | raise e n => exact h
  | fault f => trivial

theorem all_andThen {P Q : State → Prop} {r : CmdResult} {k : State → CmdResult} (h : r.All P) (raised : ∀ s, P s → Q s)
    (next : ∀ s, P s → (k s).All Q) : (r.andThen k).All Q := by
  cases r with
  | done s => exact next s h
  | raise s e n => exact raised s h
  | fault f => trivial

theorem all_mono {P Q : State → Prop} {r : CmdResult} (h : r.All P) (imp : ∀ s, P s → Q s) : r.All Q := by
  cases r with
  | done s => exact imp s h
  | raise s e n => exact imp s h
  | fault f => trivial

theorem andThen_assoc (r : CmdResult) (k l : State → CmdResult) :
    (r.andThen k).andThen l = r.andThen fun s => (k s).andThen l := by
  cases r <;> rfl

/-- COMPRESS's steps, each followed by all that come after it (47_composite.md R270). -/
theorem compressBody_eq (f : Format) : compressBody f = fun s => (freqBody s).andThen fun s => (buildBody s).andThen
    fun s => (assignBody s).andThen fun s => (hdrwBody f s).andThen encodeBody := by
  funext s
  simp only [compressBody, andThen_assoc]

/-! ## The body of each command -/

/-- The body of a command, before its `complete()` (spec/40_control.md R165). -/
def commandBody : Instr → State → CmdResult
  | .nop => .done
  | .clear => fun s => .done (clearWork s)
  | .freq => freqBody
  | .build => buildBody
  | .assign => assignBody
  | .encode => encodeBody
  | .decode => decodeBody
  | .hdrw => hdrwBody .extended
  | .hdrwL => hdrwBody .legacy
  | .hdrp => hdrpBody .extended
  | .hdrpL => hdrpBody .legacy
  | .compress => compressBody .extended
  | .compressL => compressBody .legacy
  | .decompress => decompressBody .extended
  | .decompressL => decompressBody .legacy

/-- A command is its body and the shared end of every command. -/
theorem exec_eq_finish (i : Instr) (s : State) : exec i s = (commandBody i s).finish := by
  cases i <;> rfl

/-- What holds at every end of the body, and after either completion, holds after the command. -/
theorem exec_next_of_all {i : Instr} {s t : State} {P Q : State → Prop} (h : (commandBody i s).All P)
    (completed : ∀ u, P u → Q (complete u)) (raised : ∀ u e n, P u → Q (raiseError e n u)) (hexec : exec i s = .next t) :
    Q t := by
  rw [exec_eq_finish] at hexec
  obtain ⟨u, hbody, rfl⟩ | ⟨u, e, n, hbody, rfl⟩ := finish_eq_next hexec <;> rw [hbody] at h
  · exact completed u h
  · exact raised u e n h

/-- What BUILD writes before it completes (42_tree_builder.md R184). -/
def buildWork (s : State) : State :=
  { s with
    node := arenaWrite s.node 0 (buildTree s.freq).2
    nodeCnt := BitVec.ofNat 9 (buildTree s.freq).2.length
    root := BitVec.ofNat 9 (rootEntry (buildTree s.freq).1).index
    rootW := BitVec.ofNat 40 (rootEntry (buildTree s.freq).1).weight
    rootValid := !(buildTree s.freq).1.isEmpty
    treeBuilt := true }

theorem buildBody_eq (s : State) : buildBody s = .done (buildWork s) := rfl

section
variable {P : State → Prop} {s : State}

theorem freqBody_all (kept : P s) (counted : ∀ F, P { s with freq := F, treeBuilt := false }) : (freqBody s).All P := by
  rw [freqBody]
  split
  · exact kept
  · split
    · exact all_stop_result kept _
    · exact counted _

theorem assignBody_all (kept : P s) (assigned : ∀ C, NoEmptyCode C → P { s with code := C }) : (assignBody s).All P := by
  rw [assignBody]
  split
  · exact kept
  · split
    · exact assigned _ noEmptyCode_empty
    · exact assigned _ (writeCodes_noEmptyCode noEmptyCode_empty fun _ => treeCodes_length)

theorem pack_length (S : BitStr) : (pack S).length = ceil8 S.length := by simp [pack]

theorem encodeBody_all (kept : P s)
    (stored : ∀ (bs : List Byte) (l b : Word), s.outLen.toNat + bs.length ≤ s.params.obufBytes →
      P { s with obuf := s.obuf.writeBytes s.outLen.toNat bs, outLen := l, encBits := b }) : (encodeBody s).All P := by
  rw [encodeBody]
  split
  · exact kept
  · split
    · exact kept
    · split
      · exact all_stop_result kept _
      · split
        · exact kept
        · next hroom => exact stored _ _ _ (by rw [pack_length]; omega)

/-- The bit loop changes its state by emitted symbols only, each where OBUF has room. -/
theorem decodeLoop_all {n k : Nat} {acc : BitStr}
    (emitted : ∀ u m, P u → u.outLen.toNat ≠ u.params.obufBytes → P (emitSymbol m u)) (kept : P s) :
    (decodeLoop n k acc s).All P := by
  induction n generalizing k acc s with
  | zero =>
    rw [decodeLoop]
    split <;> exact kept
  | succ n ih =>
    rw [decodeLoop]
    split
    · exact kept
    · split
      · exact all_stop_result kept _
      · split
        · exact ih kept
        · split
          · exact kept
          · next hroom => exact ih (emitted _ _ kept hroom)

/-- DECODE raises at one of its checks, or runs the bit loop from OUT_LEN = 0 (45_bit_decoder.md R227). -/
theorem decodeBody_cases (s : State) :
    (∃ e n, decodeBody s = .raise s e n) ∨
      decodeBody s = decodeLoop (payloadTotal s) 0 [] { s with outLen := 0#32 } := by
  rw [decodeBody]
  split
  · exact .inl ⟨_, _, rfl⟩
  · split
    · exact .inl ⟨_, _, rfl⟩
    · split
      · exact .inl ⟨_, _, rfl⟩
      · exact .inr rfl

theorem decodeBody_all (kept : P s) (started : P { s with outLen := 0#32 })
    (emitted : ∀ u m, P u → u.outLen.toNat ≠ u.params.obufBytes → P (emitSymbol m u)) : (decodeBody s).All P := by
  obtain ⟨e, n, hraise⟩ | hloop := decodeBody_cases s
  · rw [hraise]
    exact kept
  · rw [hloop]
    exact decodeLoop_all emitted started

theorem hdrwBody_all (f : Format) (kept : P s)
    (stored : ∀ (bs : List Byte) (l : Word), bs.length ≤ s.params.obufBytes →
      P { s with obuf := s.obuf.writeBytes 0 bs, outLen := l, hdrLen := l }) : (hdrwBody f s).All P := by
  rw [hdrwBody]
  split
  · exact all_stop_result kept _
  · dsimp only
    split
    · exact kept
    · next hroom => exact stored _ _ (Nat.le_of_not_lt hroom)

theorem hdrpBody_all (f : Format) (failed : P (hdrpFailure s))
    (parsed : ∀ h, NoEmptyCode h.code → P (hdrpSuccess f h s)) : (hdrpBody f s).All P := by
  rw [hdrpBody]
  split
  · exact all_stop_result failed _
  · next h hparse => exact parsed h (parseHeader_noEmptyCode hparse)

end

/-! ## The tree registers -/

theorem treeKept_refl (s : State) : TreeKept s s := ⟨rfl, rfl, rfl, rfl, rfl, rfl, rfl⟩

theorem assignBody_treeKept (s : State) : (assignBody s).All (TreeKept s) :=
  assignBody_all (treeKept_refl s) fun _ _ => treeKept_refl s

theorem encodeBody_treeKept (s : State) : (encodeBody s).All (TreeKept s) :=
  encodeBody_all (treeKept_refl s) fun _ _ _ _ => treeKept_refl s

theorem decodeBody_treeKept (s : State) : (decodeBody s).All (TreeKept s) :=
  decodeBody_all (treeKept_refl s) (treeKept_refl s) fun _ _ h _ => h

theorem hdrwBody_treeKept (f : Format) (s : State) : (hdrwBody f s).All (TreeKept s) :=
  hdrwBody_all f (treeKept_refl s) fun _ _ _ => treeKept_refl s

theorem hdrpBody_treeKept (f : Format) (s : State) : (hdrpBody f s).All (TreeKept s) :=
  hdrpBody_all f (treeKept_refl s) fun _ _ => treeKept_refl s

theorem treeKept_trans {s t u : State} (h : TreeKept s t) (h' : TreeKept t u) : TreeKept s u := by
  obtain ⟨hfreq, hbuilt, hvalid, hcnt, hroot, hweight, hnode⟩ := h
  obtain ⟨hfreq', hbuilt', hvalid', hcnt', hroot', hweight', hnode'⟩ := h'
  exact ⟨hfreq'.trans hfreq, hbuilt'.trans hbuilt, hvalid'.trans hvalid, hcnt'.trans hcnt, hroot'.trans hroot,
    hweight'.trans hweight, hnode'.trans hnode⟩

theorem decompressBody_treeKept (f : Format) (s : State) : (decompressBody f s).All (TreeKept s) :=
  all_andThen (hdrpBody_treeKept f s) (fun _ h => h) fun u h => all_mono (decodeBody_treeKept u) fun _ => treeKept_trans h

end Sys2Proof.Machine
end

section
/-! PROOFS. The register window: which slot an offset names, and what a step is when the next event is a host access while
idle (20_memory.md R101, R102, R110, R111). -/

namespace Sys2Proof.Machine

/-! ## The slot of an offset -/

section
variable (p : Params)

/-- FREQ[s] (10_state.md R55). -/
theorem slotAt_freq (sym : Symbol) : slotAt p (0x1000 + 4 * sym.toNat) = .freq sym := by
  have hsym := sym.isLt
  rw [slotAt, if_neg (by omega), if_pos (by omega), Nat.add_sub_cancel_left, Nat.mul_div_cancel_left _ (by decide),
    BitVec.ofNat_toNat, BitVec.setWidth_eq]

/-- Word w of CODE[s] (10_state.md R57). -/
theorem slotAt_code (sym : Symbol) {w : Nat} (hw : w < 16) : slotAt p (0x4000 + 64 * sym.toNat + 4 * w) = .code sym w := by
  have hsym := sym.isLt
  have hindex : (0x4000 + 64 * sym.toNat + 4 * w - 0x4000) / 64 = sym.toNat := by omega
  have hword : (0x4000 + 64 * sym.toNat + 4 * w) % 64 / 4 = w := by omega
  rw [slotAt, if_neg (by omega), if_neg (by omega), if_pos (by omega), hindex, hword, BitVec.ofNat_toNat, BitVec.setWidth_eq]

/-- The node arena (10_state.md R61). -/
theorem slotAt_node {a : Nat} (hlow : 0x8000 ≤ a) (hhigh : a < 0x8000 + 16 * 511) :
    slotAt p a = .node ((a - 0x8000) / 16) (a % 16 / 4) := by
  rw [slotAt, if_neg (by omega), if_neg (by omega), if_neg (by omega), if_pos ⟨hlow, hhigh⟩]

end

/-- The window names no byte beyond a buffer's size (20_memory.md R102). -/
theorem slotAt_buffer_lt (p : Params) (a : Nat) :
    (∀ i, slotAt p a = .ibuf i → i < p.ibufBytes) ∧ ∀ i, slotAt p a = .obuf i → i < p.obufBytes := by
  unfold slotAt
  split_ifs with hreg hfreq hcode hnode hibuf hobuf
  · split <;> simp
  · simp
  · simp
  · simp
  · simp
    omega
  · simp
    omega
  · simp

/-! ## A host access while idle -/

section
variable {s : State} {a : Offset} {rest : List Event}

theorem step_of_write {v : Word} (hscript : s.script = .write a v :: rest) :
    step s = .next (hostWrite a v { s with script := rest }) := by
  rw [step, nextEvent, hscript]
  rfl

theorem step_of_read (hscript : s.script = .read a :: rest) : step s = hostRead a { s with script := rest } := by
  rw [step, nextEvent, hscript]
  rfl

/-- An idle write reaches its slot (20_memory.md R110). -/
theorem step_of_idle_write {v : Word} {n : Nat} (hidle : s.pending = none) (hscript : s.script = .write a v :: rest)
    (hn : wordOffset a = n) : step s = .next (writeSlot (slotAt s.params n) v { s with script := rest }) := by
  rw [step_of_write hscript, hostWrite, if_neg (by simp [State.busy, hidle]), slotOf, hn]

/-- An idle read records the value of its slot (20_memory.md R111). -/
theorem step_of_idle_read {v : Word} {n : Nat} (hidle : s.pending = none) (hscript : s.script = .read a :: rest)
    (hn : wordOffset a = n) (hv : slotWord { s with script := rest } (slotAt s.params n) = .ok v) :
    step s = .next { s with script := rest, reads := v :: s.reads } := by
  rw [step_of_read hscript, hostRead, if_neg (by simp [State.busy, hidle]), slotOf, hn, hv]
  rfl

end

/-- Settles O12: the slot of each offset, and what a write to it does. -/
theorem idleWritesReachTheirRegister : Obligations.IdleWritesReachTheirRegister := by
  intro s a v rest hidle hscript
  have write : ∀ {n}, wordOffset a = n → step s = .next (writeSlot (slotAt s.params n) v { s with script := rest }) :=
    step_of_idle_write hidle hscript
  refine ⟨write, write, write, write, write, write, write, fun hreadOnly => ?_, fun sym hn => ?_, fun hlow hhigh => ?_⟩
  · simp only [List.mem_cons, List.not_mem_nil, or_false] at hreadOnly
    rcases hreadOnly with h | h | h | h | h | h | h | h | h | h | h | h | h <;> exact write h
  · refine ⟨tableSet s.freq sym v, ?_, tableGet_set_same .., fun r hr => tableGet_set_other _ _ hr⟩
    rw [write hn, slotAt_freq]
    rfl
  · rw [write rfl, slotAt_node _ hlow hhigh]
    rfl

/-! ## The bits of a word as read -/

theorem getLsbD_bitAt {i : Nat} (hi : i < 32) (b : Bool) (j : Nat) : (bitAt i b).getLsbD j = (b && decide (j = i)) := by
  cases b with
  | false => simp [bitAt]
  | true =>
    simp only [bitAt, if_true, BitVec.getLsbD_shiftLeft, BitVec.getLsbD_one, Bool.true_and]
    by_cases h : j = i
    · simp [h, hi]
    · simp [h]
      omega

theorem getLsbD_statusWord (s : State) (j : Nat) :
    (statusWord s).getLsbD j = (s.busy && decide (j = 0) || s.done && decide (j = 1) || s.err && decide (j = 2) ||
      s.werr && decide (j = 3) || s.treeBuilt && decide (j = 4) || s.rootValid && decide (j = 5)) := by
  simp only [statusWord, BitVec.getLsbD_or, getLsbD_bitAt (show 0 < 32 by decide), getLsbD_bitAt (show 1 < 32 by decide),
    getLsbD_bitAt (show 2 < 32 by decide), getLsbD_bitAt (show 3 < 32 by decide), getLsbD_bitAt (show 4 < 32 by decide),
    getLsbD_bitAt (show 5 < 32 by decide)]

/-- A flag in bit 31 above a byte: word 0 of a code entry and of a node (10_state.md R57, R61). -/
theorem flagged_byte (b : Bool) (x : BitVec 8) :
    (bitAt 31 b ||| x.zeroExtend 32).getLsbD 31 = b ∧ (bitAt 31 b ||| x.zeroExtend 32).toNat % 2 ^ 31 = x.toNat := by
  constructor
  · rw [BitVec.getLsbD_or, getLsbD_bitAt (by decide)]
    simp
  · refine Nat.eq_of_testBit_eq fun j => ?_
    rw [Nat.testBit_mod_two_pow, BitVec.testBit_toNat, BitVec.testBit_toNat, BitVec.getLsbD_or,
      getLsbD_bitAt (by decide)]
    by_cases hj : j < 31
    · simp [hj, show j ≠ 31 by omega]
      omega
    · simp [hj, BitVec.getLsbD_of_ge x j (by omega)]

/-- NSYM counts the symbols with a valid entry (10_state.md R53). -/
theorem nsym_eq (code : Vector CodeEntry 256) :
    nsym code = (allSymbols.filter (fun sym => (tableGet code sym).valid)).length := by
  have hlist : code.toList = allSymbols.map (tableGet code) := by
    refine List.ext_getElem (by simp [allSymbols_length]) fun n hn _ => ?_
    have hn' : n < 256 := by simpa using hn
    simp [allSymbols, tableGet, Nat.mod_eq_of_lt hn']
  rw [nsym, hlist, List.countP_map, List.countP_eq_length_filter]
  rfl

theorem toNat_nsym (code : Vector CodeEntry 256) : (BitVec.ofNat 32 (nsym code)).toNat = nsym code := by
  have hle : nsym code ≤ code.toList.length := List.countP_le_length
  rw [Vector.length_toList] at hle
  rw [BitVec.toNat_ofNat]
  omega

theorem toNat_low32 (x : BitVec 40) : (x.extractLsb' 0 32).toNat = x.toNat % 2 ^ 32 := by
  rw [BitVec.extractLsb'_toNat, Nat.shiftRight_zero]

theorem toNat_high8 (x : BitVec 40) : ((x.extractLsb' 32 8).zeroExtend 32).toNat = x.toNat / 2 ^ 32 := by
  have hx := x.isLt
  rw [BitVec.zeroExtend, BitVec.toNat_setWidth, BitVec.extractLsb'_toNat, Nat.shiftRight_eq_div_pow]
  omega

theorem toNat_zeroExtend {n : Nat} (hn : n ≤ 32) (x : BitVec n) : (x.zeroExtend 32).toNat = x.toNat :=
  BitVec.toNat_setWidth_of_le hn

/-- A register of one flag: CTRL, DEC_CFG (10_state.md R34, R46). -/
theorem flag_only (b : Bool) : (bitAt 0 b).getLsbD 0 = b ∧ ∀ i, 1 ≤ i → (bitAt 0 b).getLsbD i = false := by
  refine ⟨by rw [getLsbD_bitAt (by decide), decide_eq_true rfl, Bool.and_true], fun i hi => ?_⟩
  rw [getLsbD_bitAt (by decide), decide_eq_false (by omega), Bool.and_false]

/-- STATUS while idle (10_state.md R35). -/
theorem idle_statusWord {s : State} (hidle : s.pending = none) :
    (statusWord s).getLsbD 0 = false ∧ (statusWord s).getLsbD 1 = s.done ∧
      (statusWord s).getLsbD 2 = (s.errcode != 0#8) ∧ (statusWord s).getLsbD 3 = s.werr ∧
      (statusWord s).getLsbD 4 = s.treeBuilt ∧ (statusWord s).getLsbD 5 = s.rootValid ∧
      ∀ i, 6 ≤ i → (statusWord s).getLsbD i = false := by
  simp only [getLsbD_statusWord]
  refine ⟨by simp [State.busy, hidle], by simp, by simp [State.err], by simp, by simp, by simp, fun i hi => ?_⟩
  simp only [Bool.or_eq_false_iff, Bool.and_eq_false_iff, decide_eq_false_iff_not]
  omega

/-- Words 1 to 8 of a code entry hold its code value, 32 bits each (10_state.md R57). -/
theorem getLsbD_codeWord (e : CodeEntry) {w i : Nat} (hlow : 1 ≤ w) (hhigh : w ≤ 8) (hi : i < 32) :
    (codeWord e w).getLsbD i = e.bits.getLsbD (32 * (w - 1) + i) := by
  rw [codeWord, if_neg (by omega), if_pos hhigh, BitVec.getLsbD_extractLsb', decide_eq_true hi, Bool.true_and]

/-- The registers from 0x000 to 0x050, one word each (10_state.md R32). -/
theorem slotAt_reg (p : Params) {n : Nat} (hn : n < 0x054) : slotAt p n = .reg (regOrder.getD (n / 4) .id) := by
  have hlen : n / 4 < regOrder.length := by
    rw [show regOrder.length = 21 from rfl]
    omega
  rw [slotAt, if_pos hn, List.getD_eq_getElem?_getD, List.getElem?_eq_getElem hlen]
  rfl

/-- Settles O15: the slot of each offset, and its value field by field. -/
theorem idleRegisterReads : Obligations.IdleRegisterReads := by
  intro s a rest hidle hscript
  refine ⟨fun sym hn => ?_, fun sym w hw hn => ?_, ?_⟩
  · exact step_of_idle_read hidle hscript hn (by rw [slotAt_freq]; rfl)
  · refine ⟨codeWord (codeAt s sym) w, step_of_idle_read hidle hscript hn (by rw [slotAt_code _ _ (by omega)]; rfl), ?_,
      fun hlow i hi => getLsbD_codeWord _ hlow hw hi⟩
    rintro rfl
    exact flagged_byte (codeAt s sym).valid (codeAt s sym).len
  · generalize hn : wordOffset a = n
    intro hreg
    refine ⟨regWord s (regOrder.getD (n / 4) .id), step_of_idle_read hidle hscript hn (by rw [slotAt_reg _ hreg]; rfl), ?_⟩
    clear hreg hn
    refine ⟨?id, ?version, ?ctrl, ?status, ?cmd, ?errcode, ?errInfo, ?inLen, ?outLen, ?payOff, ?payBits,
      ?decCfg, ?encBits, ?hdrLen, ?nsym, ?nodeCnt, ?root, ?rootWLo, ?rootWHi, ?ibufSize, ?obufSize⟩ <;> rintro rfl
    case ctrl => exact flag_only s.ctrlIE
    case status => exact idle_statusWord hidle
    case errcode => exact toNat_zeroExtend (by decide) s.errcode
    case decCfg => exact flag_only s.decBV
    case nsym => exact (toNat_nsym s.code).trans (nsym_eq s.code)
    case nodeCnt => exact toNat_zeroExtend (by decide) s.nodeCnt
    case root => exact toNat_zeroExtend (by decide) s.root
    case rootWLo => exact toNat_low32 s.rootW
    case rootWHi => exact toNat_high8 s.rootW
    all_goals rfl

/-! ## The words of a node -/

/-- Word 3 of a node: the left child in bits 8:0, the right child in bits 24:16 (10_state.md R61). -/
theorem toNat_children (l r : BitVec 9) :
    (l.zeroExtend 32 ||| (r.zeroExtend 32 <<< 16)).toNat = l.toNat + 2 ^ 16 * r.toNat := by
  have hl := l.isLt
  have hr := r.isLt
  have hshift : (r.zeroExtend 32 <<< 16).toNat = 2 ^ 16 * r.toNat := by
    rw [BitVec.toNat_shiftLeft, toNat_zeroExtend (by decide), Nat.shiftLeft_eq]
    omega
  rw [BitVec.toNat_or, toNat_zeroExtend (by decide), hshift, Nat.or_comm, ← Nat.two_pow_add_eq_or_of_lt (by omega),
    Nat.add_comm]

theorem wordOffset_ofNat {n : Nat} (haligned : n % 4 = 0) (hn : n < 2 ^ 24) : wordOffset (BitVec.ofNat 24 n) = n := by
  rw [wordOffset, BitVec.toNat_ofNat]
  omega

/-- Settles O18: the slot is word w of NODE[n], which is hidden from NODE_CNT on. -/
theorem nodeReadsStopAtNodeCount : Obligations.NodeReadsStopAtNodeCount := by
  intro s n w rest hidle hn hw hscript
  have hslot : slotAt s.params (0x8000 + 16 * n + 4 * w) = .node n w := by
    rw [slotAt_node _ (by omega) (by omega)]
    congr 1 <;> omega
  refine ⟨if n < s.nodeCnt.toNat then nodeWord (arenaGet s.node n) w else 0#32,
    step_of_idle_read hidle hscript (wordOffset_ofNat (by omega) (by omega)) (by rw [hslot]; rfl),
    fun hhidden => if_neg (by omega), fun hbelow => ?_⟩
  rw [if_pos hbelow]
  refine ⟨?head, ?low, ?high, ?children⟩ <;> rintro rfl
  case head => exact flagged_byte (arenaGet s.node n).internal (arenaGet s.node n).symbol
  case low => exact toNat_low32 (arenaGet s.node n).weight
  case high => exact toNat_high8 (arenaGet s.node n).weight
  case children => exact toNat_children (arenaGet s.node n).left (arenaGet s.node n).right

/-! ## Writes to the words of a code entry -/

theorem getLsbD_shifted (x : Word) (k j : Nat) :
    (x.zeroExtend 256 <<< k).getLsbD j = (decide (j < 256) && !decide (j < k) && x.getLsbD (j - k)) := by
  rw [BitVec.getLsbD_shiftLeft, BitVec.zeroExtend, BitVec.getLsbD_setWidth]
  by_cases hj : j < 256
  · simp [show j - k < 256 by omega]
  · simp [hj]

theorem getLsbD_writeCodeBits (w : Nat) (v : Word) (e : CodeEntry) (j : Nat) :
    (writeCodeBits w v e).bits.getLsbD j =
      if j < 256 ∧ 32 * (w - 1) ≤ j ∧ j < 32 * (w - 1) + 32 then v.getLsbD (j - 32 * (w - 1)) else e.bits.getLsbD j := by
  have hones : (0xFFFFFFFF#32).getLsbD (j - 32 * (w - 1)) = decide (j - 32 * (w - 1) < 32) :=
    BitVec.getLsbD_allOnes
  rw [writeCodeBits, BitVec.getLsbD_or, BitVec.getLsbD_and, BitVec.getLsbD_not, getLsbD_shifted, getLsbD_shifted, hones]
  split
  · next h =>
    obtain ⟨hj, hlow, hhigh⟩ := h
    have hin : j - 32 * (w - 1) < 32 := by omega
    simp [hj, Nat.not_lt.2 hlow, hin]
  · next h =>
    obtain hj | hj := Nat.lt_or_ge j 256
    · obtain hlow | hhigh : j < 32 * (w - 1) ∨ 32 ≤ j - 32 * (w - 1) := by omega
      · simp [hj, hlow]
      · simp [hj, Nat.not_lt.2 hhigh, BitVec.getLsbD_of_ge v _ hhigh]
    · simp [Nat.not_lt.2 hj, BitVec.getLsbD_of_ge e.bits _ hj]

/-- Settles O17: the write to the entry's word, and that it leaves the other entries. -/
theorem codeEntryWriteRule : Obligations.CodeEntryWriteRule := by
  intro s a sym w v rest hidle hw hn hscript
  have hstep := step_of_idle_write hidle hscript hn
  rw [slotAt_code _ _ (by omega)] at hstep
  refine ⟨_, hstep, fun r hr => tableGet_set_other _ _ hr, ?_⟩
  simp only [codeAt, tableGet_set_same]
  refine ⟨?_, fun hlow => ?_⟩
  · rintro rfl
    rfl
  · rw [writeCodeWord, if_neg (by omega), if_pos hw]
    refine ⟨rfl, rfl, fun i hi => ?_, fun j hj => ?_⟩
    · rw [getLsbD_writeCodeBits, if_pos (by omega), Nat.add_sub_cancel_left]
    · exact (getLsbD_writeCodeBits ..).trans (if_neg (by omega))

end Sys2Proof.Machine
end

section
/-! PROOFS. The invariant of the machine: every command's body keeps its part about the data, every end of a command
establishes its part about the completion state, and every event of the script keeps the whole (O26). -/

namespace Sys2Proof.Machine

/-! ## The two parts of the invariant -/

/-- The part of the invariant that a command's body keeps: sizes, buffers, code table and tree. -/
structure DataInv (s : State) : Prop where
  sizes : s.params.wf
  ibufWf : s.ibuf.wf
  ibufBelow : s.ibuf.below s.params.ibufBytes
  obufWf : s.obuf.wf
  obufBelow : s.obuf.below s.params.obufBytes
  codeNonEmpty : NoEmptyCode s.code
  treeCurrent : s.treeBuilt = true → TreeMatches s s.freq
  noRoot : s.rootValid = false → s.nodeCnt = 0#9 ∧ s.root = 0#9 ∧ s.rootW = 0#40
  nodeCntBound : s.nodeCnt.toNat ≤ 511
  rootBound : s.rootValid = true → s.root.toNat < s.nodeCnt.toNat

/-- The part of the invariant that acceptance and completion establish: BUSY, DONE and the error registers. -/
structure CompletionInv (s : State) : Prop where
  oneStatus : ¬(s.busy = true ∧ s.done = true)
  pendingClear : ∀ w, s.pending = some w → s.cmd = w ∧ s.errcode = 0#8 ∧ s.errInfo = 0#32
  errListed : s.errcode ∈ listedCodes
  noErrInfo : s.errcode = 0#8 → s.errInfo = 0#32

section
variable {s : State}

theorem dataInv_of_inv (h : s.Inv) : DataInv s := { h with }

theorem inv_of_parts (hdata : DataInv s) (hcompletion : CompletionInv s) : s.Inv := { hdata, hcompletion with }

theorem completionInv_accept (v : Word) (s : State) : CompletionInv (accept v s) where
  oneStatus := by simp
  pendingClear w hw := ⟨by simpa using hw, rfl, rfl⟩
  errListed := by simp [listedCodes]
  noErrInfo _ := rfl

theorem completionInv_complete (s : State) : CompletionInv (complete s) where
  oneStatus := by simp [State.busy]
  pendingClear w hw := by simp at hw
  errListed := by simp [listedCodes]
  noErrInfo _ := rfl

theorem errCode_listed (e : ErrCode) : e.code ∈ listedCodes := by cases e <;> decide

theorem errCode_ne_zero (e : ErrCode) : e.code ≠ 0#8 := by cases e <;> decide

theorem completionInv_raiseError (e : ErrCode) (n : Nat) (s : State) : CompletionInv (raiseError e n s) where
  oneStatus := by simp [State.busy]
  pendingClear w hw := by simp at hw
  errListed := errCode_listed e
  noErrInfo hzero := absurd hzero (errCode_ne_zero e)

theorem inv_complete (h : DataInv s) : (complete s).Inv := inv_of_parts { h with } (completionInv_complete s)

theorem inv_raiseError (e : ErrCode) (n : Nat) (h : DataInv s) : (raiseError e n s).Inv :=
  inv_of_parts { h with } (completionInv_raiseError e n s)

theorem inv_accept (v : Word) (h : s.Inv) : (accept v s).Inv := inv_of_parts { h with } (completionInv_accept v s)

/-! ## BUILD -/

theorem buildWork_nodeCnt (s : State) : (buildWork s).nodeCnt.toNat = (buildTree s.freq).2.length :=
  Nat.mod_eq_of_lt (Nat.lt_succ_of_le (buildTree_nodes_length_le s.freq))

theorem buildWork_node (s : State) {n : Nat} (hn : n < (buildTree s.freq).2.length) :
    (buildTree s.freq).2[n]? = some (arenaGet (buildWork s).node n) := by
  have hsize := buildTree_nodes_length_le s.freq
  have hread := arenaGet_arenaWrite_inside s.node (k := 0) _ hn (by omega)
  rw [Nat.zero_add] at hread
  rw [List.getElem?_eq_getElem hn, buildWork, hread]

theorem buildWork_root (s : State) : (buildWork s).root.toNat = (rootEntry (buildTree s.freq).1).index := by
  refine Nat.mod_eq_of_lt ?_
  by_cases hempty : (buildTree s.freq).1 = []
  · rw [hempty]
    decide
  · have := buildTree_root_index_lt hempty
    have := buildTree_nodes_length_le s.freq
    omega

theorem buildWork_rootW (s : State) : (buildWork s).rootW.toNat = (rootEntry (buildTree s.freq).1).weight :=
  Nat.mod_eq_of_lt (buildTree_root_weight_lt s.freq)

/-- After BUILD the tree registers and the arena are those of the tree of FREQ (10_state.md R52). -/
theorem buildWork_treeMatches (s : State) : TreeMatches (buildWork s) s.freq :=
  ⟨buildWork_nodeCnt s, fun _ hn => buildWork_node s hn, buildWork_root s, buildWork_rootW s, rfl⟩

theorem buildWork_noRoot (h : (buildWork s).rootValid = false) :
    (buildWork s).nodeCnt = 0#9 ∧ (buildWork s).root = 0#9 ∧ (buildWork s).rootW = 0#40 := by
  have hempty : (buildTree s.freq).1 = [] := by simpa [buildWork] using h
  simp [buildWork, hempty, buildTree_nodes_of_empty hempty, rootEntry]

theorem buildWork_rootBound (h : (buildWork s).rootValid = true) :
    (buildWork s).root.toNat < (buildWork s).nodeCnt.toNat := by
  rw [buildWork_root, buildWork_nodeCnt]
  exact buildTree_root_index_lt (by simpa [buildWork] using h)

theorem buildWork_dataInv (h : DataInv s) : DataInv (buildWork s) :=
  { h with
    treeCurrent := fun _ => buildWork_treeMatches s
    noRoot := buildWork_noRoot
    nodeCntBound := buildWork_nodeCnt s ▸ buildTree_nodes_length_le s.freq
    rootBound := buildWork_rootBound }

theorem buildBody_dataInv (h : DataInv s) : (buildBody s).All DataInv := by
  rw [buildBody_eq]
  exact buildWork_dataInv h

/-! ## The other commands -/

theorem clearWork_dataInv (h : DataInv s) : DataInv (clearWork s) :=
  { h with
    codeNonEmpty := noEmptyCode_empty
    treeCurrent := by simp
    noRoot := fun _ => ⟨rfl, rfl, rfl⟩
    nodeCntBound := by simp
    rootBound := by simp }

theorem freqBody_dataInv (h : DataInv s) : (freqBody s).All DataInv :=
  freqBody_all h fun _ => { h with treeCurrent := by simp }

theorem assignBody_dataInv (h : DataInv s) : (assignBody s).All DataInv :=
  assignBody_all h fun _ hC => { h with codeNonEmpty := hC }

theorem encodeBody_dataInv (h : DataInv s) : (encodeBody s).All DataInv :=
  encodeBody_all h fun bs _ _ hroom =>
    { h with obufWf := wf_writeBytes h.obufWf _ bs, obufBelow := below_writeBytes h.obufBelow _ bs hroom }

theorem hdrwBody_dataInv (f : Format) (h : DataInv s) : (hdrwBody f s).All DataInv :=
  hdrwBody_all f h fun bs _ hroom =>
    { h with obufWf := wf_writeBytes h.obufWf _ bs, obufBelow := below_writeBytes h.obufBelow _ bs (by omega) }

theorem hdrpBody_dataInv (f : Format) (h : DataInv s) : (hdrpBody f s).All DataInv :=
  hdrpBody_all f { h with codeNonEmpty := noEmptyCode_empty } fun _ hcode => { h with codeNonEmpty := hcode }

/-- An emitted symbol keeps OUT_LEN inside OBUF, which has at most 2^20 bytes. -/
theorem emitSymbol_dataInv {m : Symbol} (h : DataInv s ∧ s.outLen.toNat ≤ s.params.obufBytes)
    (hroom : s.outLen.toNat ≠ s.params.obufBytes) :
    DataInv (emitSymbol m s) ∧ (emitSymbol m s).outLen.toNat ≤ (emitSymbol m s).params.obufBytes := by
  obtain ⟨hdata, hlen⟩ := h
  obtain ⟨-, hsize⟩ := hdata.sizes.2
  refine ⟨{ hdata with
    obufWf := wf_write hdata.obufWf _ m
    obufBelow := below_write hdata.obufBelow (by omega) m }, ?_⟩
  rw [emitSymbol_outLen, BitVec.toNat_ofNat, emitSymbol_params]
  omega

theorem decodeBody_dataInv (h : DataInv s) : (decodeBody s).All DataInv := by
  obtain ⟨e, n, hraise⟩ | hloop := decodeBody_cases s
  · rw [hraise]
    exact h
  · rw [hloop]
    refine all_mono (decodeLoop_all (P := fun u => DataInv u ∧ u.outLen.toNat ≤ u.params.obufBytes)
      (fun _ _ => emitSymbol_dataInv) ⟨{ h with }, ?_⟩) fun _ => And.left
    exact Nat.zero_le _

theorem compressBody_dataInv (f : Format) (h : DataInv s) : (compressBody f s).All DataInv := by
  have keep : ∀ u, DataInv u → DataInv u := fun _ => id
  have hbuild := all_andThen (freqBody_dataInv h) keep fun _ => buildBody_dataInv
  have hassign := all_andThen hbuild keep fun _ => assignBody_dataInv
  have hhdrw := all_andThen hassign keep fun _ => hdrwBody_dataInv f
  exact all_andThen hhdrw keep fun _ => encodeBody_dataInv

theorem decompressBody_dataInv (f : Format) (h : DataInv s) : (decompressBody f s).All DataInv :=
  all_andThen (hdrpBody_dataInv f h) (fun _ => id) fun _ => decodeBody_dataInv

theorem commandBody_dataInv (i : Instr) (h : DataInv s) : (commandBody i s).All DataInv :=
  match i with
  | .nop => h
  | .clear => clearWork_dataInv h
  | .freq => freqBody_dataInv h
  | .build => buildBody_dataInv h
  | .assign => assignBody_dataInv h
  | .encode => encodeBody_dataInv h
  | .decode => decodeBody_dataInv h
  | .hdrw => hdrwBody_dataInv .extended h
  | .hdrwL => hdrwBody_dataInv .legacy h
  | .hdrp => hdrpBody_dataInv .extended h
  | .hdrpL => hdrpBody_dataInv .legacy h
  | .compress => compressBody_dataInv .extended h
  | .compressL => compressBody_dataInv .legacy h
  | .decompress => decompressBody_dataInv .extended h
  | .decompressL => decompressBody_dataInv .legacy h

/-! ## The core's turn and the reset -/

theorem exec_inv {i : Instr} {t : State} (h : s.Inv) (hexec : exec i s = .next t) : t.Inv :=
  exec_next_of_all (commandBody_dataInv i (dataInv_of_inv h)) (fun _ => inv_complete) (fun _ => inv_raiseError) hexec

theorem coreStep_inv {w : Word} {t : State} (h : s.Inv) (hstep : coreStep w s = .next t) : t.Inv := by
  obtain ⟨i, -, hexec⟩ | ⟨e, -, hraise⟩ := coreStep_cases w s
  · exact exec_inv h (hexec ▸ hstep)
  · cases hraise.symm.trans hstep
    exact inv_raiseError _ _ (dataInv_of_inv h)

theorem coreTurn_inv {t : State} (h : s.Inv) (hstep : coreTurn s = .next t) : t.Inv := by
  rw [coreTurn] at hstep
  split at hstep
  · exact coreStep_inv h hstep
  · cases hstep
    exact h

theorem resetWith_inv {p : Params} (h : p.wf) : (State.resetWith p).Inv where
  sizes := h
  ibufWf := .nil
  ibufBelow _ hc := by cases hc
  obufWf := .nil
  obufBelow _ hc := by cases hc
  oneStatus := by simp [State.resetWith]
  pendingClear _ hw := by cases hw
  errListed := by simp [State.resetWith, listedCodes]
  noErrInfo _ := rfl
  codeNonEmpty := noEmptyCode_empty
  treeCurrent hbuilt := by cases hbuilt
  noRoot _ := ⟨rfl, rfl, rfl⟩
  nodeCntBound := Nat.zero_le _
  rootBound hvalid := by cases hvalid

theorem resetInput_inv (h : s.Inv) : (resetInput s).Inv := { resetWith_inv h.sizes with }

/-! ## Host accesses -/

theorem hostRead_inv {a : Offset} {t : State} (h : s.Inv) (hread : hostRead a s = .next t) : t.Inv := by
  obtain hdraw | ⟨v, hrecord⟩ | ⟨f, hfault, -⟩ := hostRead_cases a s
  · cases hdraw.symm.trans hread
    exact { h with }
  · cases hrecord.symm.trans hread
    exact { h with }
  · cases hfault.symm.trans hread

theorem acknowledge_inv (v : Word) (h : s.Inv) : (acknowledge v s).Inv :=
  { h with oneStatus := fun ⟨hbusy, hdone⟩ => h.oneStatus ⟨hbusy, (Bool.and_eq_true_iff.1 hdone).1⟩ }

theorem writeReg_inv (r : Reg) (v : Word) (h : s.Inv) : (writeReg r v s).Inv :=
  match r with
  | .ctrl | .inLen | .outLen | .payOff | .payBits | .decCfg => { h with }
  | .status => acknowledge_inv v h
  | .cmd => inv_accept v h
  | .id | .version | .errcode | .errInfo | .encBits | .hdrLen | .nsym | .nodeCnt | .root | .rootWLo | .rootWHi
  | .ibufSize | .obufSize => h

/-- A write to a word of a code entry makes no empty code valid (10_state.md R58). -/
theorem writeCodeWord_nonEmpty {w : Nat} {v : Word} {e : CodeEntry} (h : e.valid = true → e.len ≠ 0#8)
    (hvalid : (writeCodeWord w v e).valid = true) : (writeCodeWord w v e).len ≠ 0#8 := by
  rw [writeCodeWord] at hvalid ⊢
  split at hvalid
  · next hw =>
    rw [if_pos hw]
    exact (by simpa [writeCodeHead] using hvalid : v.getLsbD 31 = true ∧ _).2
  · next hw =>
    rw [if_neg hw]
    split at hvalid
    · next hw8 =>
      rw [if_pos hw8]
      exact h hvalid
    · next hw8 =>
      rw [if_neg hw8]
      exact h hvalid

theorem writeSlot_inv (a : Offset) (v : Word) (h : s.Inv) : (writeSlot (slotOf s.params a) v s).Inv := by
  cases hslot : slotOf s.params a with
  | reg r => exact writeReg_inv r v h
  | freq sym => exact { h with treeCurrent := by simp [writeSlot] }
  | code sym w =>
    exact { h with
      codeNonEmpty := noEmptyCode_tableSet h.codeNonEmpty _
        (writeCodeWord_nonEmpty (noEmptyCode_iff.1 h.codeNonEmpty sym)) }
  | node n w => exact h
  | ibuf i =>
    exact { h with ibufWf := wf_write h.ibufWf _ _, ibufBelow := below_write h.ibufBelow ((slotAt_buffer_lt ..).1 i hslot) _ }
  | obuf i =>
    exact { h with obufWf := wf_write h.obufWf _ _, obufBelow := below_write h.obufBelow ((slotAt_buffer_lt ..).2 i hslot) _ }
  | unmapped => exact h

theorem hostWrite_inv (a : Offset) (v : Word) (h : s.Inv) : (hostWrite a v s).Inv := by
  obtain hslot | ⟨-, -, hdropped⟩ := hostWrite_cases a v s
  · rw [hslot]
    exact writeSlot_inv a v h
  · rw [hdropped]
    exact { h with }

/-! ## The step -/

theorem runEvent_inv {e : Event} {t : State} (h : s.Inv) (hrun : runEvent e s = .next t) : t.Inv := by
  cases e with
  | write a v =>
    cases hrun
    exact hostWrite_inv a v h
  | read a => exact hostRead_inv h hrun
  | core => exact coreTurn_inv h hrun
  | reset =>
    cases hrun
    exact resetInput_inv h

end

/-- Settles O26: the script's events and the core's step each keep the invariant. -/
theorem stepKeepsInvariant : Obligations.StepKeepsInvariant := by
  intro s t h hstep
  obtain ⟨e, rest, -, hrun⟩ | ⟨w, -, -, hcore⟩ | ⟨-, -, hstuck⟩ := step_cases s
  · exact runEvent_inv (s := { s with script := rest }) { h with } (hrun ▸ hstep)
  · exact coreStep_inv h (hcore ▸ hstep)
  · cases hstuck.symm.trans hstep

end Sys2Proof.Machine
end

section
/-! PROOFS. Who sets TREE_BUILT: a word decodes only to the command it encodes, no host access and no other command than BUILD
and the COMPRESSes sets the bit (O27). -/

namespace Sys2Proof.Machine

/-! ## The word of a decoded command -/

/-- A format-C row matches its own word only (30_encoding.md R133). -/
theorem eq_of_and_allOnes {w pattern : Word} (h : w &&& 0xFFFFFFFF#32 = pattern) : w = pattern :=
  (BitVec.and_allOnes (x := w)).symm.trans h

/-- A format-CL row leaves bit 8 of the word open (30_encoding.md R131, R133). -/
theorem eq_of_and_mask {w pattern : Word} (h : w &&& 0xFFFFFEFF#32 = pattern) :
    w = pattern ||| if w.getLsbD 8 then 0x100#32 else 0#32 := by
  have hsplit : w = (w &&& 0xFFFFFEFF#32) ||| (w &&& 0x100#32) := by
    rw [← BitVec.and_or_distrib_left]
    exact BitVec.and_allOnes.symm
  have hbit : w &&& 0x100#32 = if w.getLsbD 8 then 0x100#32 else 0#32 := BitVec.and_twoPow w 8
  rw [← hbit, ← h]
  exact hsplit

/-- Each row's command is encoded as the row's pattern, the .L form of a format-CL row with bit 8 set besides. -/
theorem opcodeMap_encode : ∀ r ∈ opcodeMap, encode r.ext = r.pattern ∧
    (r.mask = 0xFFFFFFFF#32 ∧ r.leg = r.ext ∨ r.mask = 0xFFFFFEFF#32 ∧ encode r.leg = r.pattern ||| 0x100#32) := by
  decide

/-- A word decodes only to the command whose encoding it is. -/
theorem eq_encode_of_decode {w : Word} {i : Instr} (h : decode w = .ok i) : w = encode i := by
  rw [decode] at h
  split at h
  · next r hfind =>
    have hhits : w &&& r.mask = r.pattern := by simpa [OpRow.hits] using List.find?_some hfind
    cases h
    obtain ⟨hext, ⟨hmask, hleg⟩ | ⟨hmask, hleg⟩⟩ := opcodeMap_encode r (List.mem_of_find?_eq_some hfind)
    · rw [hleg, ite_self, hext]
      exact eq_of_and_allOnes (hmask ▸ hhits)
    · have hw := eq_of_and_mask (hmask ▸ hhits)
      split
      · next hbit =>
        rw [if_pos hbit] at hw
        rw [hleg, ← hw]
      · next hbit =>
        rw [if_neg hbit, BitVec.or_zero] at hw
        rw [hext, ← hw]
  · cases h

/-! ## TREE_BUILT -/

section
variable {s t : State}

/-- TREE_BUILT is not set on the way from s to t. -/
abbrev TreeNotSet (s t : State) : Prop := t.treeBuilt = true → s.treeBuilt = true

theorem treeNotSet_of_treeKept (h : TreeKept s t) : TreeNotSet s t := by
  obtain ⟨-, hbuilt, -⟩ := h
  exact fun ht => hbuilt ▸ ht

/-- Every command but BUILD and the COMPRESSes leaves TREE_BUILT or clears it (10_state.md R35, R52). -/
theorem commandBody_treeNotSet (i : Instr) (s : State) :
    (i = .build ∨ i = .compress ∨ i = .compressL) ∨ (commandBody i s).All (TreeNotSet s) := by
  have kept {r : CmdResult} (h : r.All (TreeKept s)) : r.All (TreeNotSet s) := all_mono h fun _ => treeNotSet_of_treeKept
  cases i with
  | build | compress | compressL => simp
  | nop => exact .inr id
  | clear => exact .inr (nofun)
  | freq => exact .inr (freqBody_all id fun _ => nofun)
  | assign => exact .inr (kept (assignBody_treeKept s))
  | encode => exact .inr (kept (encodeBody_treeKept s))
  | decode => exact .inr (kept (decodeBody_treeKept s))
  | hdrw => exact .inr (kept (hdrwBody_treeKept .extended s))
  | hdrwL => exact .inr (kept (hdrwBody_treeKept .legacy s))
  | hdrp => exact .inr (kept (hdrpBody_treeKept .extended s))
  | hdrpL => exact .inr (kept (hdrpBody_treeKept .legacy s))
  | decompress => exact .inr (kept (decompressBody_treeKept .extended s))
  | decompressL => exact .inr (kept (decompressBody_treeKept .legacy s))

/-- Every command that reaches a next state has completed, with an error or without one (60_exceptions.md R282, R283). -/
theorem exec_completes {i : Instr} (h : exec i s = .next t) : t.pending = none ∧ t.done = true := by
  rw [exec_eq_finish] at h
  obtain ⟨u, -, rfl⟩ | ⟨u, e, n, -, rfl⟩ := finish_eq_next h <;> exact ⟨rfl, rfl⟩

theorem coreStep_setsTree {w : Word} (h : coreStep w s = .next t) (hs : s.treeBuilt = false) (ht : t.treeBuilt = true) :
    t.pending = none ∧ t.done = true ∧ (w = encode .build ∨ w = encode .compress ∨ w = encode .compressL) := by
  obtain ⟨i, hdecode, hexec⟩ | ⟨e, -, hraise⟩ := coreStep_cases w s
  · rw [hexec] at h
    obtain ⟨hpending, hdone⟩ := exec_completes h
    refine ⟨hpending, hdone, ?_⟩
    rw [eq_encode_of_decode hdecode]
    obtain hi | hkept := commandBody_treeNotSet i s
    · obtain rfl | rfl | rfl := hi <;> simp
    · have := exec_next_of_all hkept (Q := TreeNotSet s) (fun _ => id) (fun _ _ _ => id) h ht
      simp [hs] at this
  · cases hraise.symm.trans h
    simp [hs] at ht

theorem writeSlot_treeNotSet (slot : Slot) (v : Word) (s : State) : TreeNotSet s (writeSlot slot v s) := by
  cases slot with
  | reg r => cases r <;> exact id
  | freq sym => exact nofun
  | code | node | ibuf | obuf | unmapped => exact id

theorem hostWrite_treeNotSet (a : Offset) (v : Word) (s : State) : TreeNotSet s (hostWrite a v s) := by
  obtain hslot | ⟨-, -, hdropped⟩ := hostWrite_cases a v s
  · rw [hslot]
    exact writeSlot_treeNotSet _ v s
  · rw [hdropped]
    exact id

theorem hostRead_treeNotSet {a : Offset} (h : hostRead a s = .next t) : TreeNotSet s t := by
  obtain hdraw | ⟨v, hrecord⟩ | ⟨f, hfault, -⟩ := hostRead_cases a s
  · cases hdraw.symm.trans h
    exact id
  · cases hrecord.symm.trans h
    exact id
  · cases hfault.symm.trans h

/-- Only the core's turn can set TREE_BUILT, and only with a command pending. -/
theorem runEvent_setsTree {e : Event} (h : runEvent e s = .next t) (hs : s.treeBuilt = false) (ht : t.treeBuilt = true) :
    e = .core ∧ ∃ w, s.pending = some w ∧ coreStep w s = .next t := by
  have absurd_of (hkept : TreeNotSet s t) : False := Bool.false_ne_true (hs.symm.trans (hkept ht))
  cases e with
  | write a v =>
    cases h
    exact (absurd_of (hostWrite_treeNotSet a v s)).elim
  | read a => exact (absurd_of (hostRead_treeNotSet h)).elim
  | core =>
    refine ⟨rfl, ?_⟩
    rw [runEvent, coreTurn] at h
    split at h
    · next w hw => exact ⟨w, hw, h⟩
    · cases h
      exact (absurd_of id).elim
  | reset =>
    cases h
    cases ht

end

/-- Settles O27: of all events the core's turn alone sets TREE_BUILT, and there the pending word decodes to a command that
builds a tree. -/
theorem onlyBuildSetsTreeBuilt : Obligations.OnlyBuildSetsTreeBuilt := by
  intro s t hstep hs ht
  obtain ⟨e, rest, hscript, hrun⟩ | ⟨w, hscript, hw, hcore⟩ | ⟨-, -, hstuck⟩ := step_cases s
  · obtain ⟨rfl, w, hw, hcore⟩ := runEvent_setsTree (s := { s with script := rest }) (hrun ▸ hstep) hs ht
    obtain ⟨hpending, hdone, hword⟩ := coreStep_setsTree hcore hs ht
    exact ⟨.inr ⟨rest, hscript⟩, hpending, hdone, w, hw, hword⟩
  · obtain ⟨hpending, hdone, hword⟩ := coreStep_setsTree (hcore ▸ hstep) hs ht
    exact ⟨.inl hscript, hpending, hdone, w, hw, hword⟩
  · cases hstuck.symm.trans hstep

end Sys2Proof.Machine
end

section
/-! PROOFS. Hidden arena entries: no command's body depends on an entry at or beyond NODE_CNT (10_state.md R62, O19). Only
ASSIGN reads the arena, and its walk stays below NODE_CNT. -/

namespace Sys2Proof.Machine

/-! ## Bodies that end alike but for hidden entries -/

/-- The arenas agree below the node count. -/
abbrev SameBelow (A B : Vector Node 511) (count : Nat) : Prop := ∀ n < count, arenaGet A n = arenaGet B n

/-- The second result is the first but for the arena, which agrees below NODE_CNT. -/
inductive SameButHidden : CmdResult → CmdResult → Prop where
  | done {s : State} {A : Vector Node 511} (h : SameBelow A s.node s.nodeCnt.toNat) :
      SameButHidden (.done s) (.done { s with node := A })
  | raise {s : State} {A : Vector Node 511} (e : ErrCode) (n : Nat) (h : SameBelow A s.node s.nodeCnt.toNat) :
      SameButHidden (.raise s e n) (.raise { s with node := A } e n)
  | fault (f : Fault) : SameButHidden (.fault f) (.fault f)

/-- From a state of the data invariant the body ends alike whatever the hidden entries are. -/
def IgnoresHidden (body : State → CmdResult) : Prop :=
  ∀ (s : State) (A : Vector Node 511), DataInv s → SameBelow A s.node s.nodeCnt.toNat →
    SameButHidden (body s) (body { s with node := A })

theorem sameButHidden_stop {s : State} {A : Vector Node 511} (h : SameBelow A s.node s.nodeCnt.toNat) (stop : Stop) :
    SameButHidden (stop.result s) (stop.result { s with node := A }) := by
  cases stop with
  | raise e n => exact .raise e n h
  | fault f => exact .fault f

theorem sameButHidden_ite_of {c : Prop} [Decidable c] {a a' b b' : CmdResult} (ha : c → SameButHidden a a')
    (hb : ¬c → SameButHidden b b') : SameButHidden (if c then a else b) (if c then a' else b') := by
  split
  · next hc => exact ha hc
  · next hc => exact hb hc

theorem sameButHidden_ite {c : Prop} [Decidable c] {a a' b b' : CmdResult} (ha : SameButHidden a a')
    (hb : SameButHidden b b') : SameButHidden (if c then a else b) (if c then a' else b') :=
  sameButHidden_ite_of (fun _ => ha) fun _ => hb

theorem sameButHidden_andThen {r r' : CmdResult} {next : State → CmdResult} (h : SameButHidden r r') (hdata : r.All DataInv)
    (hnext : IgnoresHidden next) : SameButHidden (r.andThen next) (r'.andThen next) := by
  cases h with
  | done h => exact hnext _ _ hdata h
  | raise e n h => exact .raise e n h
  | fault f => exact .fault f

theorem ignoresHidden_andThen {first next : State → CmdResult} (hfirst : IgnoresHidden first)
    (hkeeps : ∀ {s}, DataInv s → (first s).All DataInv) (hnext : IgnoresHidden next) :
    IgnoresHidden fun s => (first s).andThen next :=
  fun s A hs hA => sameButHidden_andThen (hfirst s A hs hA) (hkeeps hs) hnext

/-- The shared end of a command reads no arena entry. -/
theorem finish_of_sameButHidden {r r' : CmdResult} {t : State} (h : SameButHidden r r') (hr : r.finish = .next t) :
    ∃ B, r'.finish = .next { t with node := B } ∧ SameBelow B t.node t.nodeCnt.toNat := by
  cases h with
  | done h =>
    cases hr
    exact ⟨_, rfl, h⟩
  | raise e n h =>
    cases hr
    exact ⟨_, rfl, h⟩
  | fault f => cases hr

/-! ## The bodies that do not read the arena -/

theorem sameInput_node (s : State) (A : Vector Node 511) : SameInput { s with node := A } s := ⟨rfl, rfl, rfl⟩

theorem freqBody_ignoresHidden : IgnoresHidden freqBody := by
  intro s A _ hA
  rw [freqBody, freqBody, inputBytes_congr (sameInput_node s A)]
  refine sameButHidden_ite (.raise _ _ hA) ?_
  cases inputBytes s s.inLen.toNat 0 with
  | error stop => exact sameButHidden_stop hA stop
  | ok bs => exact .done hA

theorem encodeBody_ignoresHidden : IgnoresHidden encodeBody := by
  intro s A _ hA
  rw [encodeBody, encodeBody, encodeScan_congr (sameInput_node s A) rfl]
  refine sameButHidden_ite (.raise _ _ hA) (sameButHidden_ite (.raise _ _ hA) ?_)
  cases encodeScan s s.inLen.toNat 0 with
  | error stop => exact sameButHidden_stop hA stop
  | ok S => exact sameButHidden_ite (.raise _ _ hA) (.done hA)

theorem decodeLoop_sameButHidden {s : State} {A : Vector Node 511} (hA : SameBelow A s.node s.nodeCnt.toNat)
    (n k : Nat) (acc : BitStr) : SameButHidden (decodeLoop n k acc s) (decodeLoop n k acc { s with node := A }) := by
  induction n generalizing k acc s with
  | zero => exact sameButHidden_ite (.done hA) (.raise _ _ hA)
  | succ n ih =>
    rw [decodeLoop, decodeLoop, inputByte_congr (sameInput_node s A)]
    refine sameButHidden_ite (.raise _ _ hA) ?_
    cases inputByte s (s.payOff.toNat + k / 8) with
    | error stop => exact sameButHidden_stop hA stop
    | ok b =>
      dsimp only
      cases lookup s.code (acc ++ [payloadBit b k]) with
      | none => exact ih hA _ _
      | some m => exact sameButHidden_ite (.raise _ _ hA) (ih (s := emitSymbol m s) hA _ _)

theorem decodeBody_ignoresHidden : IgnoresHidden decodeBody := by
  intro s A _ hA
  exact sameButHidden_ite (.raise _ _ hA) (sameButHidden_ite (.raise _ _ hA) (sameButHidden_ite (.raise _ _ hA)
    (decodeLoop_sameButHidden (s := { s with outLen := 0#32 }) hA _ _ _)))

theorem hdrwBody_ignoresHidden (f : Format) : IgnoresHidden (hdrwBody f) := by
  intro s A _ hA
  have hline : headerBitLine { s with node := A } f = headerBitLine s f := by cases f <;> rfl
  rw [hdrwBody, hdrwBody, hline]
  cases headerBitLine s f with
  | error stop => exact sameButHidden_stop hA stop
  | ok line => exact sameButHidden_ite (.raise _ _ hA) (.done hA)

theorem hdrpBody_ignoresHidden (f : Format) : IgnoresHidden (hdrpBody f) := by
  intro s A _ hA
  rw [hdrpBody, hdrpBody, parseHeader_congr (sameInput_node s A)]
  cases parseHeader f s with
  | error stop => exact sameButHidden_stop (s := hdrpFailure s) hA stop
  | ok h => exact .done (s := hdrpSuccess f h s) hA

/-! ## BUILD and ASSIGN -/

/-- BUILD writes every entry below the new NODE_CNT. -/
theorem buildBody_ignoresHidden : IgnoresHidden buildBody := by
  intro s A _ _
  rw [buildBody_eq, buildBody_eq]
  refine .done (s := buildWork s) (A := arenaWrite A 0 (buildTree s.freq).2) fun n hn => ?_
  rw [buildWork_nodeCnt] at hn
  exact Option.some_inj.1 ((buildWork_node { s with node := A } hn).symm.trans (buildWork_node s hn))

/-- In a current tree the children of a node below NODE_CNT lie below it too. -/
theorem children_lt_nodeCnt {s : State} (h : TreeMatches s s.freq) {n : Nat} (hn : n < s.nodeCnt.toNat)
    (hint : (arenaGet s.node n).internal = true) :
    (arenaGet s.node n).left.toNat < s.nodeCnt.toNat ∧ (arenaGet s.node n).right.toNat < s.nodeCnt.toNat := by
  obtain ⟨hcnt, hnodes, -⟩ := h
  rw [hcnt] at hn ⊢
  exact (buildTree_indexesPlaced s.freq).children _ (List.mem_of_getElem? (hnodes n hn)) hint

/-- A walk that stays below the node count reads alike in arenas that agree there. -/
theorem leafPaths_congr {A B : Vector Node 511} {count : Nat} (same : SameBelow A B count)
    (closed : ∀ n < count, (arenaGet B n).internal = true →
      (arenaGet B n).left.toNat < count ∧ (arenaGet B n).right.toNat < count)
    (depth : Nat) {m : Nat} (hm : m < count) (c : BitStr) : leafPaths A depth m c = leafPaths B depth m c := by
  induction depth generalizing m c with
  | zero => rfl
  | succ depth ih =>
    rw [leafPaths, leafPaths, same m hm]
    split
    · next hint =>
      obtain ⟨hleft, hright⟩ := closed m hm hint
      rw [ih hleft, ih hright]
    · rfl

/-- The codes of a current tree do not depend on hidden entries. -/
theorem treeCodes_of_sameBelow {s : State} {A : Vector Node 511} (hs : DataInv s) (hbuilt : s.treeBuilt = true)
    (hroot : s.rootValid = true) (hA : SameBelow A s.node s.nodeCnt.toNat) :
    treeCodes A s.root.toNat = treeCodes s.node s.root.toNat := by
  have hbelow := hs.rootBound hroot
  rw [treeCodes, treeCodes, hA _ hbelow,
    leafPaths_congr hA (fun _ hn => children_lt_nodeCnt (hs.treeCurrent hbuilt) hn) 256 hbelow]

theorem assignBody_ignoresHidden : IgnoresHidden assignBody := by
  intro s A hs hA
  rw [assignBody, assignBody]
  refine sameButHidden_ite_of (fun _ => .raise _ _ hA) fun hbuilt => sameButHidden_ite_of (fun _ => .done hA) fun hroot => ?_
  rw [treeCodes_of_sameBelow hs (by simpa using hbuilt) (by simpa using hroot) hA]
  exact .done hA

/-! ## Every command -/

theorem compressBody_ignoresHidden (f : Format) : IgnoresHidden (compressBody f) := by
  have encode := ignoresHidden_andThen (hdrwBody_ignoresHidden f) (hdrwBody_dataInv f) encodeBody_ignoresHidden
  have assign := ignoresHidden_andThen assignBody_ignoresHidden assignBody_dataInv encode
  have build := ignoresHidden_andThen buildBody_ignoresHidden buildBody_dataInv assign
  rw [compressBody_eq]
  exact ignoresHidden_andThen freqBody_ignoresHidden freqBody_dataInv build

theorem decompressBody_ignoresHidden (f : Format) : IgnoresHidden (decompressBody f) :=
  ignoresHidden_andThen (hdrpBody_ignoresHidden f) (hdrpBody_dataInv f) decodeBody_ignoresHidden

theorem commandBody_ignoresHidden (i : Instr) : IgnoresHidden (commandBody i) :=
  match i with
  | .nop => fun _ _ _ hA => .done hA
  | .clear => fun s _ _ _ => .done (s := clearWork s) nofun
  | .freq => freqBody_ignoresHidden
  | .build => buildBody_ignoresHidden
  | .assign => assignBody_ignoresHidden
  | .encode => encodeBody_ignoresHidden
  | .decode => decodeBody_ignoresHidden
  | .hdrw => hdrwBody_ignoresHidden .extended
  | .hdrwL => hdrwBody_ignoresHidden .legacy
  | .hdrp => hdrpBody_ignoresHidden .extended
  | .hdrpL => hdrpBody_ignoresHidden .legacy
  | .compress => compressBody_ignoresHidden .extended
  | .compressL => compressBody_ignoresHidden .legacy
  | .decompress => decompressBody_ignoresHidden .extended
  | .decompressL => decompressBody_ignoresHidden .legacy

/-- Settles O19: the two bodies end alike, and so do the two commands. -/
theorem hiddenNodesNeverMatter : Obligations.HiddenNodesNeverMatter := by
  intro i s t A hs hA hexec
  rw [exec_eq_finish] at hexec ⊢
  exact finish_of_sameButHidden (commandBody_ignoresHidden i s A (dataInv_of_inv hs) hA) hexec

end Sys2Proof.Machine
end

section
/-! PROOFS. The register window while busy, its inert words, and its buffer bytes (20_memory.md R101 to R121; O11, O13, O14,
O16, O21, O22). -/

namespace Sys2Proof.Machine

/-! ## The slots that are registers -/

/-- From 0x054 on no offset names a register (20_memory.md R102). -/
theorem slotAt_ne_reg (p : Params) {n : Nat} (hn : 0x054 ≤ n) (r : Reg) : slotAt p n ≠ .reg r := by
  rw [slotAt, if_neg (by omega)]
  split_ifs <;> exact nofun

/-- A class of registers holds the slot of no offset but those of its registers. -/
theorem slotOf_not_in_class {inClass : Slot → Bool} {offsets : List Nat} (hreg : ∀ t, inClass t = true → ∃ r, t = .reg r)
    (hoffsets : ∀ k < 21, inClass (.reg (regOrder.getD k .id)) = true → 4 * k ∈ offsets) (p : Params) {a : Offset}
    (ha : wordOffset a ∉ offsets) : inClass (slotOf p a) = false := by
  refine Bool.eq_false_iff.2 fun hin => ?_
  rw [slotOf] at hin
  obtain hlow | hhigh := Nat.lt_or_ge (wordOffset a) 0x054
  · rw [slotAt_reg p hlow] at hin
    have hword : 4 * (wordOffset a / 4) = wordOffset a := by
      rw [wordOffset]
      omega
    exact ha (hword ▸ hoffsets _ (by omega) hin)
  · obtain ⟨r, hr⟩ := hreg _ hin
    exact slotAt_ne_reg p hhigh r hr

theorem busyWritable_eq_true {t : Slot} (h : busyWritable t = true) : t = .reg .ctrl ∨ t = .reg .status := by
  unfold busyWritable at h
  split at h
  · exact .inl rfl
  · exact .inr rfl
  · cases h

theorem busyReadable_reg {t : Slot} (h : busyReadable t = true) : ∃ r, t = .reg r := by
  cases t with
  | reg r => exact ⟨r, rfl⟩
  | freq | code | node | ibuf | obuf | unmapped => cases h

theorem busyWritable_slotOf (p : Params) {a : Offset} (ha : wordOffset a ∉ [0x008, 0x00C]) :
    busyWritable (slotOf p a) = false :=
  slotOf_not_in_class (fun _ h => (busyWritable_eq_true h).elim (⟨_, ·⟩) (⟨_, ·⟩)) (by decide) p ha

theorem busyReadable_slotOf (p : Params) {a : Offset}
    (ha : wordOffset a ∉ [0x000, 0x004, 0x008, 0x00C, 0x010, 0x014, 0x018, 0x04C, 0x050]) :
    busyReadable (slotOf p a) = false :=
  slotOf_not_in_class (fun _ => busyReadable_reg) (by decide) p ha

/-! ## Host accesses while busy -/

section
variable {s : State} {w : Word} {a : Offset} {rest : List Event}

theorem busy_of_pending (hpending : s.pending = some w) : s.busy = true := by
  rw [State.busy, hpending, Option.isSome_some]

/-- A busy write outside CTRL and STATUS sets WERR only (20_memory.md R110). -/
theorem step_of_dropped_write {v : Word} (hpending : s.pending = some w) (hscript : s.script = .write a v :: rest)
    (hslot : busyWritable (slotOf s.params a) = false) : step s = .next { s with script := rest, werr := true } := by
  have hbusy : State.busy { s with script := rest } = true := busy_of_pending hpending
  rw [step_of_write hscript, hostWrite, hbusy, hslot]
  rfl

/-- A busy write to CTRL or STATUS reaches its register (20_memory.md R110). -/
theorem step_of_busy_write {v : Word} {n : Nat} (hscript : s.script = .write a v :: rest) (hn : wordOffset a = n)
    (hslot : busyWritable (slotAt s.params n) = true) :
    step s = .next (writeSlot (slotAt s.params n) v { s with script := rest }) := by
  rw [step_of_write hscript, hostWrite, slotOf, hn, hslot, Bool.not_true, Bool.and_false, if_neg Bool.false_ne_true]

/-- A busy read of an exempt register records its value (20_memory.md R111). -/
theorem step_of_exempt_read {n : Nat} {r : Reg} (hscript : s.script = .read a :: rest) (hn : wordOffset a = n)
    (hslot : slotAt s.params n = .reg r) (hexempt : busyReadable (.reg r) = true) :
    step s = .next { s with script := rest, reads := regWord s r :: s.reads } := by
  rw [step_of_read hscript, hostRead, slotOf, hn, hslot, hexempt, Bool.not_true, Bool.and_false, if_neg Bool.false_ne_true]
  rfl

/-- Any other busy read draws a free value (20_memory.md R111). -/
theorem step_of_free_read (hpending : s.pending = some w) (hscript : s.script = .read a :: rest)
    (hslot : busyReadable (slotOf s.params a) = false) :
    step s = .next { s with script := rest, reads := Config.busyRead s.draws :: s.reads, draws := s.draws + 1 } := by
  have hbusy : State.busy { s with script := rest } = true := busy_of_pending hpending
  rw [step_of_read hscript, hostRead, hbusy, hslot]
  rfl

end

/-- Settles O11: the two registers a busy write reaches, and that no other offset names one of them. -/
theorem busyWritesAreDropped : Obligations.BusyWritesAreDropped := by
  intro s w a v rest hpending hscript
  refine ⟨fun hn => step_of_busy_write hscript hn rfl, fun hn => step_of_busy_write hscript hn rfl, fun hctrl hstatus => ?_⟩
  exact step_of_dropped_write hpending hscript (busyWritable_slotOf _ (by simp [hctrl, hstatus]))

theorem bitAt_zero (b : Bool) : bitAt 0 b = if b then 1#32 else 0#32 := by cases b <;> rfl

/-- STATUS field by field (10_state.md R35). -/
theorem statusWord_fields (s : State) :
    (statusWord s).getLsbD 0 = s.busy ∧ (statusWord s).getLsbD 1 = s.done ∧
      (statusWord s).getLsbD 2 = (s.errcode != 0#8) ∧ (statusWord s).getLsbD 3 = s.werr ∧
      (statusWord s).getLsbD 4 = s.treeBuilt ∧ (statusWord s).getLsbD 5 = s.rootValid ∧
      ∀ i, 6 ≤ i → (statusWord s).getLsbD i = false := by
  simp only [getLsbD_statusWord]
  refine ⟨by simp, by simp, by simp [State.err], by simp, by simp, by simp, fun i hi => ?_⟩
  simp only [Bool.or_eq_false_iff, Bool.and_eq_false_iff, decide_eq_false_iff_not]
  omega

/-- Settles O14: the nine exempt registers by their slots, every other offset by not naming one of them. -/
theorem busyReadsAreExemptOrFree : Obligations.BusyReadsAreExemptOrFree := by
  intro s w a rest hpending hscript
  have read {n : Nat} {r : Reg} (hslot : slotAt s.params n = .reg r) (hexempt : busyReadable (.reg r) = true)
      (hn : wordOffset a = n) : step s = .next { s with script := rest, reads := regWord s r :: s.reads } :=
    step_of_exempt_read hscript hn hslot hexempt
  refine ⟨read (r := .id) rfl rfl, read (r := .version) rfl rfl, fun hn => ?ctrl,
    fun hn => ⟨statusWord s, read (r := .status) rfl rfl hn, busy_of_pending hpending ▸ statusWord_fields s⟩,
    read (r := .cmd) rfl rfl, read (r := .errcode) rfl rfl, read (r := .errInfo) rfl rfl, read (r := .ibufSize) rfl rfl,
    read (r := .obufSize) rfl rfl, fun hn => step_of_free_read hpending hscript (busyReadable_slotOf _ hn)⟩
  rw [← bitAt_zero]
  exact read (r := .ctrl) rfl rfl hn

/-! ## Unmapped offsets and reserved words -/

/-- A slot that holds nothing: an unmapped one, or a reserved word of a code entry (20_memory.md R102, 10_state.md R57). -/
def Slot.Inert : Slot → Prop
  | .unmapped => True
  | .code _ w => 9 ≤ w
  | _ => False

theorem slotWord_inert (s : State) {t : Slot} (h : t.Inert) : slotWord s t = .ok 0#32 := by
  cases t with
  | unmapped => rfl
  | code sym w =>
    replace h : 9 ≤ w := h
    rw [slotWord, codeWord, if_neg (by omega), if_neg (by omega)]
  | reg | freq | node | ibuf | obuf => exact h.elim

theorem tableSet_get {α : Type} (t : Vector α 256) (s : Symbol) : tableSet t s (tableGet t s) = t :=
  Vector.set_getElem_self _

theorem writeSlot_inert (v : Word) (s : State) {t : Slot} (h : t.Inert) : writeSlot t v s = s := by
  cases t with
  | unmapped => rfl
  | code sym w =>
    replace h : 9 ≤ w := h
    rw [writeSlot, writeCodeWord, if_neg (by omega), if_neg (by omega), codeAt, tableSet_get]
  | reg | freq | node | ibuf | obuf => exact h.elim

theorem busyWritable_inert {t : Slot} (h : t.Inert) : busyWritable t = false := by
  refine Bool.eq_false_iff.2 fun hw => ?_
  obtain rfl | rfl := busyWritable_eq_true hw <;> exact h

/-- The unmapped ranges of 20_memory.md R102 and words 9 to 15 of the code entries. -/
theorem slotAt_inert {p : Params} (hp : p.wf) {n : Nat}
    (h : (0x054 ≤ n ∧ n < 0x1000) ∨ (0x1400 ≤ n ∧ n < 0x4000) ∨ (0x4000 ≤ n ∧ n < 0x8000 ∧ 0x24 ≤ n % 64) ∨
      (0x9FF0 ≤ n ∧ n < 0x400000) ∨ (0x400000 + 4 * p.ibufBytes ≤ n ∧ n < 0x800000) ∨ 0x800000 + 4 * p.obufBytes ≤ n) :
    (slotAt p n).Inert := by
  obtain ⟨⟨-, hibuf⟩, -⟩ := hp
  rw [slotAt, if_neg (by omega), if_neg (by omega)]
  split
  · show 9 ≤ n % 64 / 4
    omega
  · rw [if_neg (by omega), if_neg (by omega), if_neg (by omega)]
    trivial

/-- Settles O13: each range names an inert slot. -/
theorem unmappedOffsetsAreInert : Obligations.UnmappedOffsetsAreInert := by
  intro s a v rest hp hranges
  have hinert : (slotAt s.params (wordOffset a)).Inert := slotAt_inert hp hranges
  refine ⟨fun hidle hscript => ?read, fun hidle hscript => ?write, fun u hbusy hscript => ?busy⟩
  case read => exact step_of_idle_read hidle hscript rfl (slotWord_inert _ hinert)
  case write => rw [step_of_idle_write hidle hscript rfl, writeSlot_inert _ _ hinert]
  case busy => exact step_of_dropped_write hbusy hscript (busyWritable_inert hinert)

/-! ## Buffer bytes -/

/-- Byte i of IBUF (20_memory.md R102, R106). -/
theorem slotAt_ibuf (p : Params) {i : Nat} (hi : i < p.ibufBytes) : slotAt p (0x400000 + 4 * i) = .ibuf i := by
  rw [slotAt, if_neg (by omega), if_neg (by omega), if_neg (by omega), if_neg (by omega), if_pos (by omega)]
  congr 1
  omega

/-- Byte i of OBUF, which lies behind the whole of IBUF (20_memory.md R102, R106). -/
theorem slotAt_obuf {p : Params} (hp : p.wf) {i : Nat} (hi : i < p.obufBytes) : slotAt p (0x800000 + 4 * i) = .obuf i := by
  obtain ⟨⟨-, hibuf⟩, -⟩ := hp
  rw [slotAt, if_neg (by omega), if_neg (by omega), if_neg (by omega), if_neg (by omega), if_neg (by omega),
    if_pos (by omega)]
  congr 1
  omega

theorem sameOutside_write (m : Memory) (i : Nat) (v : Byte) : SameOutside m (m.write i v) i 1 :=
  fun _ ha => read_write_other m v (by omega)

/-- An idle read of a buffer's slot records the byte where one is written, and stops where none is (20_memory.md R116). -/
theorem step_of_idle_buffer_read {s : State} {a : Offset} {rest : List Event} {m : Memory} {buf : Buffer} {i : Nat}
    (hidle : s.pending = none) (hslot : slotWord { s with script := rest } (slotOf s.params a) = bufferWord m buf i) :
    (∀ b, m.read i = some b → s.script = .read a :: rest →
      step s = .next { s with script := rest, reads := b.zeroExtend 32 :: s.reads }) ∧
    (m.read i = none → s.script = .read a :: rest → step s = .fault (.uninitByte buf i)) := by
  rw [bufferWord] at hslot
  refine ⟨fun b hb hscript => ?_, fun hnone hscript => ?_⟩
  · rw [hb] at hslot
    exact step_of_idle_read hidle hscript rfl hslot
  · rw [hnone] at hslot
    rw [step_of_read hscript, hostRead, if_neg (by simp [State.busy, hidle]), hslot]

/-- Settles O16: the slot of the byte, and the laws of a buffer. -/
theorem bufferBytesThroughTheWindow : Obligations.BufferBytesThroughTheWindow := by
  intro s a i v rest hp hidle
  refine ⟨fun hi hn => ?input, fun hi hn => ?output⟩
  case input =>
    have hslot : slotOf s.params a = .ibuf i := by rw [slotOf, hn, slotAt_ibuf _ hi]
    refine ⟨fun hscript => ⟨s.ibuf.write i (v.extractLsb' 0 8), ?_, read_write_same .., sameOutside_write _ _ _⟩,
      step_of_idle_buffer_read hidle (by rw [hslot, slotWord])⟩
    rw [step_of_idle_write hidle hscript rfl, ← slotOf, hslot, writeSlot]
  case output =>
    have hslot : slotOf s.params a = .obuf i := by rw [slotOf, hn, slotAt_obuf hp hi]
    refine ⟨fun hscript => ⟨s.obuf.write i (v.extractLsb' 0 8), ?_, read_write_same .., sameOutside_write _ _ _⟩,
      step_of_idle_buffer_read hidle (by rw [hslot, slotWord])⟩
    rw [step_of_idle_write hidle hscript rfl, ← slotOf, hslot, writeSlot]

/-! ## What a host access leaves -/

/-- Settles O21: a read records a value, a free one with a draw, or stops. -/
theorem hostReadsChangeNothing : Obligations.HostReadsChangeNothing := by
  intro s t a rest hscript hstep
  rw [step_of_read hscript] at hstep
  obtain hdraw | ⟨v, hrecord⟩ | ⟨f, hfault, -⟩ := hostRead_cases a { s with script := rest }
  · cases hdraw.symm.trans hstep
    exact ⟨Config.busyRead s.draws, s.draws + 1, rfl⟩
  · cases hrecord.symm.trans hstep
    exact ⟨v, s.draws, rfl⟩
  · cases hfault.symm.trans hstep

/-- Settles O22: a busy write reaches IE, DONE or WERR only, and a read nothing. -/
theorem busyInputsAreFrozen : Obligations.BusyInputsAreFrozen := by
  rintro s t w e rest hpending hscript (⟨a, v, rfl⟩ | ⟨a, rfl⟩) hstep
  · by_cases hslot : busyWritable (slotOf s.params a) = true
    · rw [step_of_busy_write hscript rfl hslot] at hstep
      cases hstep
      obtain hctrl | hstatus := busyWritable_eq_true hslot
      · exact ⟨v.getLsbD 0, s.done, s.werr, s.reads, s.draws, by rw [← slotOf, hctrl]; rfl⟩
      · exact ⟨s.ctrlIE, s.done && !v.getLsbD 1, s.werr && !v.getLsbD 3, s.reads, s.draws, by rw [← slotOf, hstatus]; rfl⟩
    · rw [step_of_dropped_write hpending hscript (Bool.eq_false_iff.2 hslot)] at hstep
      cases hstep
      exact ⟨s.ctrlIE, s.done, true, s.reads, s.draws, rfl⟩
  · obtain ⟨v, d, rfl⟩ := hostReadsChangeNothing s t a rest hscript hstep
    exact ⟨s.ctrlIE, s.done, s.werr, v :: s.reads, d, rfl⟩

end Sys2Proof.Machine
end

section
/-! PROOFS. What the commands leave unchanged, whether they complete or raise (20_memory.md R115, 60_exceptions.md R284; O59,
O60): the parts of the state a body keeps, and the bytes of OBUF from OUT_LEN on. -/

namespace Sys2Proof.Machine

/-! ## Parts of the state that a body keeps -/

/-- The body leaves this part of the state as it is, at its `complete()` and at every `raise`. -/
def Keeps {α : Type} (part : State → α) (body : State → CmdResult) : Prop :=
  ∀ s, (body s).All fun t => part t = part s

theorem keeps_andThen {α : Type} {part : State → α} {first next : State → CmdResult} (hfirst : Keeps part first)
    (hnext : Keeps part next) : Keeps part fun s => (first s).andThen next :=
  fun s => all_andThen (hfirst s) (fun _ => id) fun u hu => all_mono (hnext u) fun _ ht => ht.trans hu

/-- COMPRESS keeps what each of its steps keeps (47_composite.md R270). -/
theorem keeps_compressBody {α : Type} {part : State → α} {f : Format} (hfreq : Keeps part freqBody)
    (hbuild : Keeps part buildBody) (hassign : Keeps part assignBody) (hhdrw : Keeps part (hdrwBody f))
    (hencode : Keeps part encodeBody) : Keeps part (compressBody f) := by
  rw [compressBody_eq]
  exact keeps_andThen hfreq (keeps_andThen hbuild (keeps_andThen hassign (keeps_andThen hhdrw hencode)))

/-- The sizes, CTRL, WERR, CMD, IN_LEN, IBUF and the outside world: what no command writes (20_memory.md R115). -/
def inputPart (s : State) : Params × Bool × Bool × Word × Word × Memory × List Event × List Word × Nat :=
  (s.params, s.ctrlIE, s.werr, s.cmd, s.inLen, s.ibuf, s.script, s.reads, s.draws)

theorem inputsKept_of_inputPart {s t : State} (h : inputPart t = inputPart s) : InputsKept s t := by
  simp only [inputPart, Prod.mk.injEq] at h
  obtain ⟨hparams, hie, hwerr, hcmd, hinLen, hibuf, hscript, hreads, hdraws⟩ := h
  exact ⟨hparams, hie, hwerr, hcmd, hinLen, fun a => by rw [hibuf], hscript, hreads, hdraws⟩

theorem freqBody_keeps_inputPart : Keeps inputPart freqBody := fun _ => freqBody_all rfl fun _ => rfl

theorem buildBody_keeps_inputPart : Keeps inputPart buildBody := fun _ => rfl

theorem assignBody_keeps_inputPart : Keeps inputPart assignBody := fun _ => assignBody_all rfl fun _ _ => rfl

theorem encodeBody_keeps_inputPart : Keeps inputPart encodeBody := fun _ => encodeBody_all rfl fun _ _ _ _ => rfl

theorem decodeBody_keeps_inputPart : Keeps inputPart decodeBody := fun _ => decodeBody_all rfl rfl fun _ _ h _ => h

theorem hdrwBody_keeps_inputPart (f : Format) : Keeps inputPart (hdrwBody f) := fun _ => hdrwBody_all f rfl fun _ _ _ => rfl

theorem hdrpBody_keeps_inputPart (f : Format) : Keeps inputPart (hdrpBody f) := fun _ => hdrpBody_all f rfl fun _ _ => rfl

theorem compressBody_keeps_inputPart (f : Format) : Keeps inputPart (compressBody f) :=
  keeps_compressBody freqBody_keeps_inputPart buildBody_keeps_inputPart assignBody_keeps_inputPart
    (hdrwBody_keeps_inputPart f) encodeBody_keeps_inputPart

theorem decompressBody_keeps_inputPart (f : Format) : Keeps inputPart (decompressBody f) :=
  keeps_andThen (hdrpBody_keeps_inputPart f) decodeBody_keeps_inputPart

theorem commandBody_keeps_inputPart (i : Instr) : Keeps inputPart (commandBody i) :=
  match i with
  | .nop | .clear => fun _ => rfl
  | .freq => freqBody_keeps_inputPart
  | .build => buildBody_keeps_inputPart
  | .assign => assignBody_keeps_inputPart
  | .encode => encodeBody_keeps_inputPart
  | .decode => decodeBody_keeps_inputPart
  | .hdrw => hdrwBody_keeps_inputPart .extended
  | .hdrwL => hdrwBody_keeps_inputPart .legacy
  | .hdrp => hdrpBody_keeps_inputPart .extended
  | .hdrpL => hdrpBody_keeps_inputPart .legacy
  | .compress => compressBody_keeps_inputPart .extended
  | .compressL => compressBody_keeps_inputPart .legacy
  | .decompress => decompressBody_keeps_inputPart .extended
  | .decompressL => decompressBody_keeps_inputPart .legacy

/-- PAY_OFF, PAY_BITS and DEC_CFG. -/
def decodeSetup (s : State) : Word × Word × Bool := (s.payOff, s.payBits, s.decBV)

theorem compressBody_decodeSetupKept (f : Format) (s : State) : (compressBody f s).All (DecodeSetupKept s) := by
  have hkeeps : Keeps decodeSetup (compressBody f) :=
    keeps_compressBody (fun _ => freqBody_all rfl fun _ => rfl) (fun _ => rfl) (fun _ => assignBody_all rfl fun _ _ => rfl)
      (fun _ => hdrwBody_all f rfl fun _ _ _ => rfl) (fun _ => encodeBody_all rfl fun _ _ _ _ => rfl)
  exact all_mono (hkeeps s) fun t ht => by simpa [decodeSetup] using ht

theorem decompressBody_keeps_encBits (f : Format) : Keeps State.encBits (decompressBody f) :=
  keeps_andThen (fun _ => hdrpBody_all f rfl fun _ _ => rfl) fun _ => decodeBody_all rfl rfl fun _ _ h _ => h

/-! ## From the body to the command -/

section
variable {i : Instr} {s t : State}

/-- What holds at every end of the body, and which neither completion touches, holds after the command. -/
theorem exec_frame {P : State → Prop} (hexec : exec i s = .next t) (h : (commandBody i s).All P)
    (completed : ∀ u, P u → P (complete u) := by exact fun _ => id)
    (raised : ∀ u e n, P u → P (raiseError e n u) := by exact fun _ _ _ => id) : P t :=
  exec_next_of_all h completed raised hexec

theorem exec_inputsKept (hexec : exec i s = .next t) : InputsKept s t :=
  inputsKept_of_inputPart (exec_frame hexec (commandBody_keeps_inputPart i s))

end

/-! ## The commands that store nothing to OBUF -/

theorem commandBody_keeps_obuf {i : Instr} (hi : i ∈ [Instr.nop, .clear, .freq, .build, .assign, .hdrp, .hdrpL]) :
    Keeps State.obuf (commandBody i) := by
  cases i with
  | nop | clear | build => exact fun _ => rfl
  | freq => exact fun _ => freqBody_all rfl fun _ => rfl
  | assign => exact fun _ => assignBody_all rfl fun _ _ => rfl
  | hdrp => exact fun _ => hdrpBody_all .extended rfl fun _ _ => rfl
  | hdrpL => exact fun _ => hdrpBody_all .legacy rfl fun _ _ => rfl
  | encode | decode | hdrw | hdrwL | compress | compressL | decompress | decompressL => simp at hi

section
variable (s : State)

theorem decodeSetupKept_refl : DecodeSetupKept s s := ⟨rfl, rfl, rfl⟩

theorem outputKept_refl : OutputKept s s := ⟨rfl, rfl, fun _ => rfl⟩

theorem freqBody_frame : (freqBody s).All fun t => t.rootValid = s.rootValid ∧ t.nodeCnt = s.nodeCnt ∧ t.root = s.root ∧
    t.rootW = s.rootW ∧ t.node = s.node ∧ t.code = s.code ∧ DecodeSetupKept s t ∧ OutputKept s t ∧ t.hdrLen = s.hdrLen :=
  freqBody_all ⟨rfl, rfl, rfl, rfl, rfl, rfl, decodeSetupKept_refl s, outputKept_refl s, rfl⟩
    fun _ => ⟨rfl, rfl, rfl, rfl, rfl, rfl, decodeSetupKept_refl s, outputKept_refl s, rfl⟩

theorem buildBody_frame : (buildBody s).All fun t =>
    t.freq = s.freq ∧ t.code = s.code ∧ DecodeSetupKept s t ∧ OutputKept s t ∧ t.hdrLen = s.hdrLen := by
  rw [buildBody_eq]
  exact ⟨rfl, rfl, decodeSetupKept_refl s, outputKept_refl s, rfl⟩

theorem assignBody_frame : (assignBody s).All fun t =>
    TreeKept s t ∧ DecodeSetupKept s t ∧ OutputKept s t ∧ t.hdrLen = s.hdrLen :=
  assignBody_all ⟨treeKept_refl s, decodeSetupKept_refl s, outputKept_refl s, rfl⟩
    fun _ _ => ⟨treeKept_refl s, decodeSetupKept_refl s, outputKept_refl s, rfl⟩

theorem hdrpBody_frame (f : Format) : (hdrpBody f s).All fun t => TreeKept s t ∧ OutputKept s t :=
  hdrpBody_all f ⟨treeKept_refl s, outputKept_refl s⟩ fun _ _ => ⟨treeKept_refl s, outputKept_refl s⟩

end

/-- Settles O59: each command's row of 20_memory.md R115, from the frame of its body. -/
theorem frameOfNonStoringCommands : Obligations.FrameOfNonStoringCommands := by
  intro i s t hi hexec
  have hobuf : t.obuf = s.obuf := exec_frame hexec (commandBody_keeps_obuf hi s)
  refine ⟨exec_inputsKept hexec, fun a => by rw [hobuf], ?nop, ?clear, ?freq, ?build, ?assign, ?hdrp⟩
  case nop =>
    rintro rfl
    cases hexec
    exact ⟨treeKept_refl s, rfl, decodeSetupKept_refl s, outputKept_refl s, rfl⟩
  case clear =>
    rintro rfl
    cases hexec
    rfl
  case freq =>
    rintro rfl
    exact exec_frame hexec (freqBody_frame s)
  case build =>
    rintro rfl
    exact exec_frame hexec (buildBody_frame s)
  case assign =>
    rintro rfl
    exact exec_frame hexec (assignBody_frame s)
  case hdrp =>
    rintro (rfl | rfl)
    · exact exec_frame hexec (hdrpBody_frame s .extended)
    · exact exec_frame hexec (hdrpBody_frame s .legacy)

/-! ## The commands that store to OBUF -/

section
variable (s : State)

/-- ENCODE ends early and leaves everything, or stores its payload from OUT_LEN on (44_bit_encoder.md R212). -/
theorem encodeBody_cases : (∃ stop : Stop, encodeBody s = stop.result s) ∨
    ∃ S : BitStr, s.outLen.toNat + (pack S).length ≤ s.params.obufBytes ∧
      encodeBody s = .done { s with
        obuf := s.obuf.writeBytes s.outLen.toNat (pack S)
        outLen := BitVec.ofNat 32 (s.outLen.toNat + (pack S).length)
        encBits := BitVec.ofNat 32 S.length } := by
  rw [encodeBody]
  split
  · exact .inl ⟨.raise .., rfl⟩
  · split
    · exact .inl ⟨.raise .., rfl⟩
    · split
      · exact .inl ⟨_, rfl⟩
      · next S _ =>
        split
        · exact .inl ⟨.raise .., rfl⟩
        · next hroom => exact .inr ⟨S, by rw [pack_length]; omega, by rw [pack_length]⟩

/-- HDRW ends early and leaves everything, or stores its header from byte 0 on (46_container_codec.md R244). -/
theorem hdrwBody_cases (f : Format) : (∃ stop : Stop, hdrwBody f s = stop.result s) ∨
    ∃ H : List Byte, H.length ≤ s.params.obufBytes ∧
      hdrwBody f s = .done { s with
        obuf := s.obuf.writeBytes 0 H, outLen := BitVec.ofNat 32 H.length, hdrLen := BitVec.ofNat 32 H.length } := by
  rw [hdrwBody]
  split
  · exact .inl ⟨_, rfl⟩
  · dsimp only
    split
    · exact .inl ⟨.raise .., rfl⟩
    · next hroom => exact .inr ⟨_, Nat.le_of_not_lt hroom, rfl⟩

end

/-- The size of OBUF and the bytes of OBUF from the new OUT_LEN on are as before. -/
structure StoredBelowOutLen (s t : State) : Prop where
  params : t.params = s.params
  above : ∀ a, t.outLen.toNat ≤ a → t.obuf.read a = s.obuf.read a

/-- OBUF and its size. -/
def storePart (s : State) : Params × Memory := (s.params, s.obuf)

section
variable {s t u : State}

theorem storedBelowOutLen_refl (s : State) : StoredBelowOutLen s s := ⟨rfl, fun _ _ => rfl⟩

theorem storedBelowOutLen_of_storePart (h : storePart u = storePart s) (ht : StoredBelowOutLen u t) :
    StoredBelowOutLen s t := by
  obtain ⟨hparams, hobuf⟩ : u.params = s.params ∧ u.obuf = s.obuf := by simpa [storePart] using h
  exact ⟨hparams ▸ ht.params, hobuf ▸ ht.above⟩

theorem storedBelowOutLen_trans (h : StoredBelowOutLen s u) (hle : u.outLen.toNat ≤ t.outLen.toNat)
    (ht : StoredBelowOutLen u t) : StoredBelowOutLen s t :=
  ⟨ht.params.trans h.params, fun a ha => (ht.above a ha).trans (h.above a (hle.trans ha))⟩

/-- ENCODE stores between the old OUT_LEN and the new one. -/
theorem encodeBody_stores (hp : s.params.wf) : (encodeBody s).All fun t =>
    StoredBelowOutLen s t ∧ s.outLen.toNat ≤ t.outLen.toNat ∧ ∀ a < s.outLen.toNat, t.obuf.read a = s.obuf.read a := by
  obtain ⟨-, -, hsize⟩ := hp
  obtain ⟨stop, hstop⟩ | ⟨S, hroom, hdone⟩ := encodeBody_cases s
  · rw [hstop]
    exact all_stop_result ⟨storedBelowOutLen_refl s, le_rfl, fun _ _ => rfl⟩ stop
  · have hlen : (BitVec.ofNat 32 (s.outLen.toNat + (pack S).length)).toNat = s.outLen.toNat + (pack S).length :=
      Nat.mod_eq_of_lt (by omega)
    rw [hdone]
    exact ⟨⟨rfl, fun a ha => read_writeBytes_outside _ _ _ (.inr (hlen ▸ ha))⟩, (Nat.le_add_right ..).trans_eq hlen.symm,
      fun a ha => read_writeBytes_outside _ _ _ (.inl ha)⟩

theorem hdrwBody_stores (f : Format) (hp : s.params.wf) : (hdrwBody f s).All (StoredBelowOutLen s) := by
  obtain ⟨-, -, hsize⟩ := hp
  obtain ⟨stop, hstop⟩ | ⟨H, hroom, hdone⟩ := hdrwBody_cases s f
  · rw [hstop]
    exact all_stop_result (storedBelowOutLen_refl s) stop
  · have hlen : (BitVec.ofNat 32 H.length).toNat = H.length := Nat.mod_eq_of_lt (by omega)
    rw [hdone]
    exact ⟨rfl, fun a ha => read_writeBytes_outside _ _ _ (.inr (by rw [Nat.zero_add]; exact hlen ▸ ha))⟩

/-- An emitted symbol is stored below the OUT_LEN it leaves. -/
theorem emitSymbol_stores {m : Symbol} (hp : s.params.wf)
    (h : StoredBelowOutLen s u ∧ u.outLen.toNat ≤ u.params.obufBytes) (hroom : u.outLen.toNat ≠ u.params.obufBytes) :
    StoredBelowOutLen s (emitSymbol m u) ∧ (emitSymbol m u).outLen.toNat ≤ (emitSymbol m u).params.obufBytes := by
  obtain ⟨hstored, hle⟩ := h
  obtain ⟨-, -, hsize⟩ := hp
  rw [← hstored.params] at hsize
  have hlen : (emitSymbol m u).outLen.toNat = u.outLen.toNat + 1 := Nat.mod_eq_of_lt (by omega)
  refine ⟨⟨hstored.params, fun a ha => ?_⟩, by rw [hlen, emitSymbol_params]; omega⟩
  rw [hlen] at ha
  exact (read_write_other _ m (by omega)).trans (hstored.above a (by omega))

theorem decodeBody_stores (hp : s.params.wf) : (decodeBody s).All (StoredBelowOutLen s) := by
  obtain ⟨e, n, hraise⟩ | hloop := decodeBody_cases s
  · rw [hraise]
    exact storedBelowOutLen_refl s
  · rw [hloop]
    exact all_mono (decodeLoop_all (P := fun u => StoredBelowOutLen s u ∧ u.outLen.toNat ≤ u.params.obufBytes)
      (fun _ _ => emitSymbol_stores hp) ⟨⟨rfl, fun _ _ => rfl⟩, Nat.zero_le _⟩) fun _ => And.left

/-- A body that leaves OBUF, followed by one that stores below OUT_LEN. -/
theorem andThen_stores {first next : State → CmdResult} (hfirst : Keeps storePart first)
    (hnext : ∀ {u}, u.params.wf → (next u).All (StoredBelowOutLen u)) (hp : s.params.wf) :
    ((first s).andThen next).All (StoredBelowOutLen s) := by
  refine all_andThen (hfirst s) (fun u hu => storedBelowOutLen_of_storePart hu (storedBelowOutLen_refl u)) fun u hu => ?_
  have hparams : u.params = s.params := congrArg Prod.fst hu
  exact all_mono (hnext (hparams ▸ hp)) fun _ => storedBelowOutLen_of_storePart hu

theorem compressBody_stores (f : Format) (hp : s.params.wf) : (compressBody f s).All (StoredBelowOutLen s) := by
  rw [compressBody_eq]
  refine andThen_stores (fun _ => freqBody_all rfl fun _ => rfl) (fun hp => ?_) hp
  refine andThen_stores (fun _ => rfl) (fun hp => ?_) hp
  refine andThen_stores (fun _ => assignBody_all rfl fun _ _ => rfl) (fun hp => ?_) hp
  refine all_andThen (hdrwBody_stores f hp) (fun _ => id) fun u hu => ?_
  exact all_mono (encodeBody_stores (hu.params ▸ hp)) fun _ ⟨ht, hle, _⟩ => storedBelowOutLen_trans hu hle ht

theorem decompressBody_stores (f : Format) (hp : s.params.wf) : (decompressBody f s).All (StoredBelowOutLen s) :=
  andThen_stores (fun _ => hdrpBody_all f rfl fun _ _ => rfl) decodeBody_stores hp

theorem commandBody_stores {i : Instr} (hp : s.params.wf)
    (hi : i ∈ [Instr.encode, .decode, .hdrw, .hdrwL, .compress, .compressL, .decompress, .decompressL]) :
    (commandBody i s).All (StoredBelowOutLen s) := by
  cases i with
  | encode => exact all_mono (encodeBody_stores hp) fun _ => And.left
  | decode => exact decodeBody_stores hp
  | hdrw => exact hdrwBody_stores .extended hp
  | hdrwL => exact hdrwBody_stores .legacy hp
  | compress => exact compressBody_stores .extended hp
  | compressL => exact compressBody_stores .legacy hp
  | decompress => exact decompressBody_stores .extended hp
  | decompressL => exact decompressBody_stores .legacy hp
  | nop | clear | freq | build | assign | hdrp | hdrpL => simp at hi

end

section
variable (s : State)

theorem encodeBody_frame : (encodeBody s).All fun t =>
    TreeKept s t ∧ t.code = s.code ∧ DecodeSetupKept s t ∧ t.hdrLen = s.hdrLen :=
  encodeBody_all ⟨treeKept_refl s, rfl, decodeSetupKept_refl s, rfl⟩
    fun _ _ _ _ => ⟨treeKept_refl s, rfl, decodeSetupKept_refl s, rfl⟩

theorem decodeBody_frame : (decodeBody s).All fun t =>
    TreeKept s t ∧ t.code = s.code ∧ DecodeSetupKept s t ∧ t.encBits = s.encBits ∧ t.hdrLen = s.hdrLen :=
  decodeBody_all ⟨treeKept_refl s, rfl, decodeSetupKept_refl s, rfl, rfl⟩
    ⟨treeKept_refl s, rfl, decodeSetupKept_refl s, rfl, rfl⟩ fun _ _ h _ => h

theorem hdrwBody_frame (f : Format) : (hdrwBody f s).All fun t =>
    TreeKept s t ∧ t.code = s.code ∧ DecodeSetupKept s t ∧ t.encBits = s.encBits :=
  hdrwBody_all f ⟨treeKept_refl s, rfl, decodeSetupKept_refl s, rfl⟩
    fun _ _ _ => ⟨treeKept_refl s, rfl, decodeSetupKept_refl s, rfl⟩

end

/-- Settles O60: the bytes each command stores, and its row of 20_memory.md R115. -/
theorem frameOfStoringCommands : Obligations.FrameOfStoringCommands := by
  intro i s t hp hi hexec
  have hstores : StoredBelowOutLen s t :=
    exec_frame hexec (commandBody_stores hp hi) (fun _ h => ⟨h.params, h.above⟩) fun _ _ _ h => ⟨h.params, h.above⟩
  refine ⟨exec_inputsKept hexec, hstores.above, ?encode, ?decode, ?hdrw, ?compress, ?decompress⟩
  case encode =>
    rintro rfl
    have hlow := all_mono (encodeBody_stores hp) fun _ ⟨_, _, hlow⟩ => hlow
    exact ⟨exec_frame hexec hlow, exec_frame hexec (encodeBody_frame s)⟩
  case decode =>
    rintro rfl
    exact exec_frame hexec (decodeBody_frame s)
  case hdrw =>
    rintro (rfl | rfl)
    · exact exec_frame hexec (hdrwBody_frame s .extended)
    · exact exec_frame hexec (hdrwBody_frame s .legacy)
  case compress =>
    rintro (rfl | rfl)
    · exact exec_frame hexec (compressBody_decodeSetupKept .extended s)
    · exact exec_frame hexec (compressBody_decodeSetupKept .legacy s)
  case decompress =>
    rintro (rfl | rfl)
    · exact ⟨exec_frame hexec (decompressBody_treeKept .extended s),
        exec_frame hexec (decompressBody_keeps_encBits .extended s)⟩
    · exact ⟨exec_frame hexec (decompressBody_treeKept .legacy s),
        exec_frame hexec (decompressBody_keeps_encBits .legacy s)⟩

end Sys2Proof.Machine
end

section
/-! PROOFS. Where a command stops: only at an unwritten byte of IBUF below IN_LEN (20_memory.md R104, R116; O8). The scans read
no byte at or beyond IN_LEN, and no body changes IN_LEN or IBUF for the next one. -/

namespace Sys2Proof.Machine

/-! ## The scans -/

/-- The fault of an unwritten input byte (20_memory.md R116). -/
def UnwrittenInput (s : State) (f : Fault) : Prop :=
  ∃ j, j < s.inLen.toNat ∧ s.ibuf.read j = none ∧ f = .uninitByte .input j

/-- The scan faults at unwritten input bytes only. -/
def ScanStops {α : Type} (s : State) (x : Except Stop α) : Prop := ∀ f, x = .error (.fault f) → UnwrittenInput s f

section
variable {s : State} {α β : Type}

theorem scanStops_ok {a : α} : ScanStops s (.ok a) := nofun

theorem scanStops_raise {e : ErrCode} {n : Nat} : ScanStops (α := α) s (.error (.raise e n)) := nofun

theorem scanStops_bind {x : Except Stop α} {k : α → Except Stop β} (hx : ScanStops s x) (hk : ∀ a, ScanStops s (k a)) :
    ScanStops s (x >>= k) := by
  intro f hf
  obtain herror | ⟨a, -, herror⟩ := bind_eq_error.1 hf
  · exact hx f herror
  · exact hk a f herror

theorem scanStops_ite {c : Prop} [Decidable c] {x y : Except Stop α} (hx : ScanStops s x) (hy : ScanStops s y) :
    ScanStops s (if c then x else y) := by
  split
  · exact hx
  · exact hy

theorem scanStops_inputByte {i : Nat} (hi : i < s.inLen.toNat) : ScanStops s (inputByte s i) := by
  intro f hf
  obtain ⟨hnone, hfault⟩ := inputByte_eq_error.1 hf
  exact ⟨i, hi, hnone, Stop.fault.inj hfault⟩

theorem scanStops_inputBytes {n i : Nat} (h : i + n ≤ s.inLen.toNat) : ScanStops s (inputBytes s n i) := by
  induction n generalizing i with
  | zero => exact scanStops_ok
  | succ n ih =>
    exact scanStops_bind (scanStops_inputByte (by omega)) fun _ =>
      scanStops_bind (ih (by omega)) fun _ => scanStops_ok

theorem scanStops_encodeScan {n i : Nat} (h : i + n ≤ s.inLen.toNat) : ScanStops s (encodeScan s n i) := by
  induction n generalizing i with
  | zero => exact scanStops_ok
  | succ n ih =>
    exact scanStops_bind (scanStops_inputByte (by omega)) fun _ =>
      scanStops_ite (scanStops_bind (ih (by omega)) fun _ => scanStops_ok) scanStops_raise

/-! ## HDRP's parser -/

/-- The parser looks at no byte beyond the input (46_container_codec.md R248). -/
theorem scanStops_peekByte {p : Nat} : ScanStops s (peekByte s p) := by
  rw [peekByte]
  split
  · exact scanStops_raise
  · next hp => exact scanStops_inputByte (Nat.lt_of_not_le hp)

theorem scanStops_expectByte {ch : Byte} {err : ErrCode} {p : Nat} : ScanStops s (expectByte s ch err p) :=
  scanStops_bind scanStops_peekByte fun _ => scanStops_ite scanStops_ok scanStops_raise

theorem scanStops_decLoop {err : ErrCode} {start : Nat} {first : Byte} {left n v p : Nat} :
    ScanStops s (decLoop s err start first left n v p) := by
  have line {c : Prop} [Decidable c] {a : Nat × Nat} : ScanStops s (if c then .error (.raise err start) else .ok a) :=
    scanStops_ite scanStops_raise scanStops_ok
  induction left generalizing n v p with
  | zero =>
    rw [decLoop_zero]
    exact scanStops_bind scanStops_peekByte fun _ =>
      scanStops_ite line (scanStops_ite scanStops_raise scanStops_raise)
  | succ left ih =>
    rw [decLoop_succ]
    exact scanStops_bind scanStops_peekByte fun _ =>
      scanStops_ite line (scanStops_ite scanStops_raise ih)

theorem scanStops_decField {err : ErrCode} {maxDigits p : Nat} : ScanStops s (decField s err maxDigits p) :=
  scanStops_bind scanStops_peekByte fun _ => scanStops_ite scanStops_raise scanStops_decLoop

theorem scanStops_codeField {left len v p : Nat} : ScanStops s (codeField s left len v p) := by
  induction left generalizing len v p with
  | zero =>
    rw [codeField_zero]
    exact scanStops_bind scanStops_peekByte fun _ =>
      scanStops_ite scanStops_ok (scanStops_ite scanStops_raise scanStops_raise)
  | succ left ih =>
    rw [codeField_succ]
    exact scanStops_bind scanStops_peekByte fun _ =>
      scanStops_ite scanStops_ok (scanStops_ite ih scanStops_raise)

theorem scanStops_parseLine {q : Nat} : ScanStops s (parseLine s q) :=
  scanStops_bind scanStops_peekByte fun _ => scanStops_ite scanStops_raise <|
    scanStops_bind scanStops_codeField fun _ => scanStops_bind scanStops_peekByte fun _ =>
      scanStops_bind scanStops_expectByte fun _ => scanStops_ok

theorem scanStops_parseLines {n : Nat} {table : Vector CodeEntry 256} {q : Nat} : ScanStops s (parseLines s n table q) := by
  induction n generalizing table q with
  | zero => exact scanStops_ok
  | succ n ih =>
    exact scanStops_bind scanStops_parseLine fun _ => scanStops_ite scanStops_raise ih

theorem scanStops_parseBitCount {p : Nat} {f : Format} : ScanStops s (parseBitCount s p f) := by
  cases f with
  | legacy => exact scanStops_ok
  | extended =>
    exact scanStops_bind scanStops_decField fun _ => scanStops_ite scanStops_raise scanStops_ok

theorem scanStops_parseEnd {f : Format} {q : Nat} : ScanStops s (parseEnd s f q) :=
  scanStops_bind scanStops_peekByte fun _ =>
    scanStops_ite (scanStops_ite scanStops_raise scanStops_raise) <|
      scanStops_bind scanStops_expectByte fun _ => scanStops_expectByte

theorem scanStops_parsedPayBits {B hl : Nat} {f : Format} : ScanStops s (parsedPayBits s B hl f) := by
  cases f with
  | extended => exact scanStops_ite scanStops_raise scanStops_ok
  | legacy => exact scanStops_ok

theorem scanStops_parseHeader {f : Format} : ScanStops s (parseHeader f s) :=
  scanStops_ite scanStops_raise <| scanStops_bind scanStops_expectByte fun _ =>
    scanStops_bind scanStops_expectByte fun _ => scanStops_bind scanStops_expectByte fun _ =>
    scanStops_bind scanStops_decField fun _ => scanStops_ite scanStops_raise <|
    scanStops_bind scanStops_parseLines fun _ => scanStops_bind scanStops_parseBitCount fun _ =>
    scanStops_bind scanStops_parseEnd fun _ => scanStops_bind scanStops_parsedPayBits fun _ => scanStops_ok

/-! ## HDRW's sum reads no byte -/

theorem scanStops_sumBitCount {l : List ((Symbol × Word) × CodeEntry)} : ScanStops s (sumBitCount l) := by
  induction l with
  | nil => exact scanStops_ok
  | cons x l ih =>
    exact scanStops_ite ih (scanStops_ite (scanStops_bind ih fun _ => scanStops_ok) scanStops_raise)

theorem scanStops_headerBitLine {f : Format} : ScanStops s (headerBitLine s f) := by
  cases f with
  | legacy => exact scanStops_ok
  | extended => exact scanStops_bind scanStops_sumBitCount fun _ => scanStops_ite scanStops_raise scanStops_ok

end

/-! ## The bodies -/

/-- The result is no fault but that of an unwritten input byte. -/
def ResultStops (s : State) (r : CmdResult) : Prop := ∀ f, r = .fault f → UnwrittenInput s f

section
variable {s : State}

theorem resultStops_done {t : State} : ResultStops s (.done t) := nofun

theorem resultStops_raise {t : State} {e : ErrCode} {n : Nat} : ResultStops s (.raise t e n) := nofun

/-- A scan that stopped ends the command where the scan did. -/
theorem resultStops_of_scan {α : Type} {x : Except Stop α} {stop : Stop} (h : ScanStops s x) (hx : x = .error stop)
    (t : State) : ResultStops s (stop.result t) := by
  cases stop with
  | raise e n => exact resultStops_raise
  | fault f =>
    intro g hg
    cases hg
    exact h f hx

/-- The first body leaves IN_LEN and IBUF to the second. -/
theorem resultStops_andThen {first next : State → CmdResult} (hfirst : ResultStops s (first s))
    (hkeeps : Keeps inputPart first) (hnext : ∀ u, ResultStops u (next u)) : ResultStops s ((first s).andThen next) := by
  have hinput := hkeeps s
  cases hr : first s with
  | done u =>
    intro f hf
    rw [hr] at hinput
    obtain ⟨-, -, -, -, hinLen, hibuf, -⟩ := inputsKept_of_inputPart hinput
    obtain ⟨j, hj, hnone, hfault⟩ := hnext u f hf
    exact ⟨j, hinLen ▸ hj, (hibuf j).symm.trans hnone, hfault⟩
  | raise u e n => exact resultStops_raise
  | fault f =>
    rw [hr] at hfirst
    exact hfirst

theorem resultStops_ite {c : Prop} [Decidable c] {x y : CmdResult} (hx : ResultStops s x) (hy : ResultStops s y) :
    ResultStops s (if c then x else y) := by
  split
  · exact hx
  · exact hy

theorem freqBody_stops (s : State) : ResultStops s (freqBody s) := by
  refine resultStops_ite resultStops_raise ?_
  split
  · next stop hstop => exact resultStops_of_scan (scanStops_inputBytes (Nat.zero_add _).le) hstop s
  · exact resultStops_done

theorem assignBody_stops (s : State) : ResultStops s (assignBody s) :=
  resultStops_ite resultStops_raise (resultStops_ite resultStops_done resultStops_done)

theorem encodeBody_stops (s : State) : ResultStops s (encodeBody s) := by
  refine resultStops_ite resultStops_raise (resultStops_ite resultStops_raise ?_)
  split
  · next stop hstop => exact resultStops_of_scan (scanStops_encodeScan (Nat.zero_add _).le) hstop s
  · exact resultStops_ite resultStops_raise resultStops_done

/-- The bit loop reads the payload's bytes only, which end at IN_LEN (45_bit_decoder.md R227). -/
theorem decodeLoop_stops {n k : Nat} (hroom : k + n ≤ payloadAvail s) (acc : BitStr) :
    ResultStops s (decodeLoop n k acc s) := by
  induction n generalizing k acc s with
  | zero => exact resultStops_ite resultStops_done resultStops_raise
  | succ n ih =>
    refine resultStops_ite resultStops_raise ?_
    have hrest : k + 1 + n ≤ payloadAvail s := by omega
    split
    · next stop hstop =>
      rw [payloadAvail] at hroom
      exact resultStops_of_scan (scanStops_inputByte (by omega)) hstop s
    · split
      · exact ih hrest _
      · next m _ => exact resultStops_ite resultStops_raise (ih (s := emitSymbol m s) hrest [])

theorem payloadTotal_le_avail {s : State} (h : ¬(s.decBV && payloadAvail s < s.payBits.toNat) = true) :
    payloadTotal s ≤ payloadAvail s := by
  rw [payloadTotal]
  split
  · next hbv => simpa [hbv] using h
  · exact le_rfl

theorem decodeBody_stops (s : State) : ResultStops s (decodeBody s) := by
  refine resultStops_ite resultStops_raise (resultStops_ite resultStops_raise ?_)
  split
  · exact resultStops_raise
  · next hbits =>
    have hroom : 0 + payloadTotal s ≤ payloadAvail s := (Nat.zero_add _).trans_le (payloadTotal_le_avail hbits)
    exact decodeLoop_stops (s := { s with outLen := 0#32 }) hroom []

theorem hdrwBody_stops (f : Format) (s : State) : ResultStops s (hdrwBody f s) := by
  rw [hdrwBody]
  split
  · next stop hstop => exact resultStops_of_scan scanStops_headerBitLine hstop s
  · exact resultStops_ite resultStops_raise resultStops_done

theorem hdrpBody_stops (f : Format) (s : State) : ResultStops s (hdrpBody f s) := by
  rw [hdrpBody]
  split
  · next stop hstop => exact resultStops_of_scan scanStops_parseHeader hstop _
  · exact resultStops_done

theorem compressBody_stops (f : Format) (s : State) : ResultStops s (compressBody f s) := by
  rw [compressBody_eq]
  exact resultStops_andThen (freqBody_stops s) freqBody_keeps_inputPart fun u =>
    resultStops_andThen resultStops_done buildBody_keeps_inputPart fun u =>
    resultStops_andThen (assignBody_stops u) assignBody_keeps_inputPart fun u =>
    resultStops_andThen (hdrwBody_stops f u) (hdrwBody_keeps_inputPart f) encodeBody_stops

theorem decompressBody_stops (f : Format) (s : State) : ResultStops s (decompressBody f s) :=
  resultStops_andThen (hdrpBody_stops f s) (hdrpBody_keeps_inputPart f) decodeBody_stops

theorem commandBody_stops (i : Instr) (s : State) : ResultStops s (commandBody i s) :=
  match i with
  | .nop | .clear | .build => resultStops_done
  | .freq => freqBody_stops s
  | .assign => assignBody_stops s
  | .encode => encodeBody_stops s
  | .decode => decodeBody_stops s
  | .hdrw => hdrwBody_stops .extended s
  | .hdrwL => hdrwBody_stops .legacy s
  | .hdrp => hdrpBody_stops .extended s
  | .hdrpL => hdrpBody_stops .legacy s
  | .compress => compressBody_stops .extended s
  | .compressL => compressBody_stops .legacy s
  | .decompress => decompressBody_stops .extended s
  | .decompressL => decompressBody_stops .legacy s

end

/-- Settles O8: the bodies stop at unwritten input bytes only, and the shared end of a command refuses nothing. -/
theorem commandsStopOnlyAtUnwrittenInput : Obligations.CommandsStopOnlyAtUnwrittenInput := by
  intro i s
  rw [exec_eq_finish]
  refine ⟨fun f hf => commandBody_stops i s f (finish_eq_fault.1 hf), fun r hr => ?_⟩
  cases hbody : commandBody i s <;> rw [hbody] at hr <;> cases hr

end Sys2Proof.Machine
end


section
/-! PROOFS. The command word: the decoder's two answers in terms of the encoder and of the word's fields (30_encoding.md R130
to R134; O1, O2, O3, O4). -/

namespace Sys2Proof.Machine

/-! ## Commands and their words -/

/-- The per-command facts, for every command. -/
theorem wordFields : ∀ i : Instr, Laws.WordFields.Statement i
  | .nop => Laws.WordFields.nop
  | .clear => Laws.WordFields.clear
  | .freq => Laws.WordFields.freq
  | .build => Laws.WordFields.build
  | .assign => Laws.WordFields.assign
  | .encode => Laws.WordFields.encode
  | .decode => Laws.WordFields.decode
  | .hdrw => Laws.WordFields.hdrw
  | .hdrwL => Laws.WordFields.hdrwL
  | .hdrp => Laws.WordFields.hdrp
  | .hdrpL => Laws.WordFields.hdrpL
  | .compress => Laws.WordFields.compress
  | .compressL => Laws.WordFields.compressL
  | .decompress => Laws.WordFields.decompress
  | .decompressL => Laws.WordFields.decompressL

theorem instr_wf (i : Instr) : i.wf = true := by
  obtain ⟨hwf, -⟩ := wordFields i
  exact hwf

theorem wordWellFormed_encode (i : Instr) : wordWellFormed (encode i) = true := by
  obtain ⟨-, hword, -⟩ := wordFields i
  exact hword

theorem decode_encode (i : Instr) : decode (encode i) = .ok i := by
  cases i <;> rfl

/-- The encodings are all the words that decode to a command. -/
theorem decode_eq_ok_iff {w : Word} {i : Instr} : decode w = .ok i ↔ w = encode i :=
  ⟨eq_encode_of_decode, fun h => h ▸ decode_encode i⟩

/-- Settles O1: the decoder evaluated on each of the fifteen words. -/
theorem encodedCommandsDecodeBack : Obligations.EncodedCommandsDecodeBack :=
  fun i => ⟨instr_wf i, decode_encode i⟩

/-! ## The rows of the opcode map -/

/-- A word that matches a format-C row is the row's command. -/
theorem decode_of_and_allOnes (i : Instr) {w : Word} (h : w &&& 0xFFFFFFFF#32 = encode i) : decode w = .ok i :=
  decode_eq_ok_iff.2 (eq_of_and_allOnes h)

/-- A word that matches a format-CL row is the command of the row that bit 8 chooses. -/
theorem decode_of_and_mask (ext leg : Instr) {w : Word} (hleg : encode leg = encode ext ||| 0x100#32)
    (h : w &&& 0xFFFFFEFF#32 = encode ext) : decode w = .ok (if w.getLsbD 8 then leg else ext) := by
  have hw := eq_of_and_mask h
  rw [decode_eq_ok_iff]
  split
  · next hbit => rwa [if_pos hbit, ← hleg] at hw
  · next hbit => rwa [if_neg hbit, BitVec.or_zero] at hw

/-- Settles O2: row by row, a word is its fixed bits and bit 8, so it is the encoding of the row's command. -/
theorem legalWordsAreTheEncodings : Obligations.LegalWordsAreTheEncodings :=
  ⟨fun _ => ⟨decode_of_and_allOnes .nop, decode_of_and_allOnes .clear, decode_of_and_allOnes .freq,
    decode_of_and_allOnes .build, decode_of_and_allOnes .assign, decode_of_and_allOnes .encode,
    decode_of_and_allOnes .decode, decode_of_and_mask .hdrw .hdrwL rfl, decode_of_and_mask .hdrp .hdrpL rfl,
    decode_of_and_mask .compress .compressL rfl, decode_of_and_mask .decompress .decompressL rfl⟩,
    fun _ _ => decode_eq_ok_iff⟩

/-! ## Illegal words -/

section
variable {w : Word}

theorem reservedClear_iff : reservedClear w = true ↔ w.extractLsb' 9 23 = 0#23 := beq_iff_eq

theorem opListed_iff :
    opListed w = true ↔ w.extractLsb' 0 8 ∈ formatCOps ∨ w.extractLsb' 0 8 ∈ formatCLOps := by
  rw [opListed, List.contains_iff_mem, List.mem_append]

theorem formatBitOk_iff : formatBitOk w = true ↔ w.getLsbD 8 = false ∨ w.extractLsb' 0 8 ∈ formatCLOps := by
  rw [formatBitOk, Bool.or_eq_true, Bool.not_eq_true', List.contains_iff_mem]

theorem wordWellFormed_iff :
    wordWellFormed w = true ↔ reservedClear w = true ∧ opListed w = true ∧ formatBitOk w = true := by
  rw [wordWellFormed, Bool.and_eq_true, Bool.and_eq_true, and_assoc]

/-- No OP value is of both formats (30_encoding.md R133). -/
theorem not_mem_formatCLOps : ∀ op ∈ formatCOps, op ∉ formatCLOps := by decide

/-- Each listed OP has a command for L = 0, and one for L = 1 where its format has the field. -/
theorem exists_command_of_fields : ∀ op ∈ formatCOps ++ formatCLOps, ∀ l : Bool, l = false ∨ op ∈ formatCLOps →
    ∃ r ∈ opcodeMap, ∃ i ∈ [r.ext, r.leg], opField i = op ∧ lField i = BitVec.ofBool l := by
  decide

/-- A word is its OP field, its bit 8 and its reserved bits (30_encoding.md R131). -/
theorem eq_encode_of_fields {i : Instr} (hop : opField i = w.extractLsb' 0 8)
    (hl : lField i = BitVec.ofBool (w.getLsbD 8)) (hreserved : w.extractLsb' 9 23 = 0#23) : w = encode i := by
  rw [encode, hop, hl, ← hreserved]
  ext k hk
  rw [BitVec.getElem_cast, BitVec.getElem_append]
  split
  · rw [BitVec.getElem_extractLsb', Nat.zero_add, BitVec.getLsbD_eq_getElem]
  · rw [BitVec.getElem_append]
    split
    · obtain rfl : k = 8 := by omega
      rw [BitVec.getElem_ofBool, BitVec.getLsbD_eq_getElem]
    · rw [BitVec.getElem_extractLsb', show 9 + (k - 8 - 1) = k by omega, BitVec.getLsbD_eq_getElem]

/-- A well-formed word has a command: the one its fields name. -/
theorem exists_decode_of_wordWellFormed (h : wordWellFormed w = true) : ∃ i, decode w = .ok i := by
  obtain ⟨hreserved, hop, hl⟩ := wordWellFormed_iff.1 h
  obtain ⟨-, -, i, -, hopField, hlField⟩ := exists_command_of_fields _
    (List.mem_append.2 (opListed_iff.1 hop)) _ (formatBitOk_iff.1 hl)
  exact ⟨i, decode_eq_ok_iff.2 (eq_encode_of_fields hopField hlField (reservedClear_iff.1 hreserved))⟩

/-- A word that is not well formed has no command, and is rejected for the first reason it has. -/
theorem decode_of_not_wordWellFormed (h : wordWellFormed w = false) : decode w = .error (rejectReason w) := by
  cases hfind : opcodeMap.find? (fun r => r.hits w) with
  | none => rw [decode, hfind]
  | some r =>
    refine absurd ?_ (Bool.eq_false_iff.1 h)
    have hdecode : decode w = .ok (if w.getLsbD 8 then r.leg else r.ext) := by rw [decode, hfind]
    rw [eq_encode_of_decode hdecode]
    exact wordWellFormed_encode _

theorem decode_of_reserved_ne_zero (h : w.extractLsb' 9 23 ≠ 0#23) : decode w = .error .reservedBitSet := by
  have hcheck : reservedClear w = false := Bool.eq_false_iff.2 (mt reservedClear_iff.1 h)
  rw [decode_of_not_wordWellFormed (by simp [wordWellFormed, hcheck]), rejectReason]
  simp [hcheck]

theorem decode_of_op_unlisted (hreserved : w.extractLsb' 9 23 = 0#23) (hC : w.extractLsb' 0 8 ∉ formatCOps)
    (hCL : w.extractLsb' 0 8 ∉ formatCLOps) : decode w = .error .unlistedOp := by
  have hcheck : opListed w = false := Bool.eq_false_iff.2 (mt opListed_iff.1 (not_or.2 ⟨hC, hCL⟩))
  rw [decode_of_not_wordWellFormed (by simp [wordWellFormed, hcheck]), rejectReason]
  simp [reservedClear_iff.2 hreserved, hcheck]

theorem decode_of_formatC_bit (hreserved : w.extractLsb' 9 23 = 0#23) (hC : w.extractLsb' 0 8 ∈ formatCOps)
    (hbit : w.getLsbD 8 = true) : decode w = .error .formatBitOnFormatC := by
  have hcheck : formatBitOk w = false := by
    rw [← Bool.not_eq_true, formatBitOk_iff, hbit]
    simpa using not_mem_formatCLOps _ hC
  rw [decode_of_not_wordWellFormed (by simp [wordWellFormed, hcheck]), rejectReason]
  simp [reservedClear_iff.2 hreserved, opListed_iff.2 (.inl hC)]

end

/-- Settles O3: a word is legal exactly when it is well formed, and otherwise named by the first check it fails. -/
theorem rejectedWordsAreNamed : Obligations.RejectedWordsAreNamed := by
  refine fun w => ⟨decode_of_reserved_ne_zero, decode_of_op_unlisted, decode_of_formatC_bit,
    fun hreserved hC hbit => exists_decode_of_wordWellFormed ?_,
    fun hreserved hCL => exists_decode_of_wordWellFormed ?_⟩
  · exact wordWellFormed_iff.2
      ⟨reservedClear_iff.2 hreserved, opListed_iff.2 (.inl hC), formatBitOk_iff.2 (.inl hbit)⟩
  · exact wordWellFormed_iff.2
      ⟨reservedClear_iff.2 hreserved, opListed_iff.2 (.inr hCL), formatBitOk_iff.2 (.inr hCL)⟩

/-- Settles O4: the six legal words are encodings, the other four fail one check each. -/
theorem specWordsDecode : Obligations.SpecWordsDecode :=
  ⟨decode_encode .clear, decode_encode .freq, decode_encode .assign, decode_encode .decode, decode_encode .hdrwL,
    decode_encode .decompress, decode_of_formatC_bit (by decide) (by decide) (by decide),
    decode_of_formatC_bit (by decide) (by decide) (by decide), decode_of_reserved_ne_zero (by decide),
    decode_of_op_unlisted (by decide) (by decide) (by decide)⟩

end Sys2Proof.Machine
end

section
/-! PROOFS. The bytes of a container: where a payload holds each bit of its sequence, and the length of a header
(30_encoding.md R144, R146; O42, O48). -/

namespace Sys2Proof.Machine

/-! ## Payload -/

/-- Bits or-ed into a byte one after another: a bit is set when it was or one of them sets it. -/
theorem getLsbD_foldl_or {α : Type} (g : α → Byte) (l : List α) (b : Byte) (n : Nat) :
    (l.foldl (fun byte x => byte ||| g x) b).getLsbD n = (b.getLsbD n || l.any fun x => (g x).getLsbD n) := by
  induction l generalizing b with
  | nil => rw [List.foldl_nil, List.any_nil, Bool.or_false]
  | cons x l ih => rw [List.foldl_cons, ih, BitVec.getLsbD_or, List.any_cons, Bool.or_assoc]

/-- A bit moved to place 7 − t of a byte stands there only. -/
theorem getLsbD_bit_shiftLeft : ∀ v : Bool, ∀ t < 8, ∀ u < 8,
    ((if v then 1#8 else 0#8) <<< (7 - t)).getLsbD (7 - u) = (v && t == u) := by
  decide

/-- Bit 7 − t of payload byte j is bit 8j + t of the sequence, 0 beyond its end. -/
theorem getLsbD_packByte (S : BitStr) (j : Nat) {t : Nat} (ht : t < 8) :
    (packByte S j).getLsbD (7 - t) = S.getD (8 * j + t) false := by
  rw [packByte, getLsbD_foldl_or, BitVec.getLsbD_zero, Bool.false_or, Bool.eq_iff_iff, List.any_eq_true]
  constructor
  · rintro ⟨u, hu, hbit⟩
    rw [getLsbD_bit_shiftLeft _ u (List.mem_range.1 hu) t ht, Bool.and_eq_true, beq_iff_eq] at hbit
    obtain ⟨hset, rfl⟩ := hbit
    exact hset
  · intro hset
    exact ⟨t, List.mem_range.2 ht, by rw [getLsbD_bit_shiftLeft _ t ht t ht, hset, beq_self_eq_true, Bool.and_self]⟩

theorem getElem?_pack {S : BitStr} {j : Nat} (hj : j < ceil8 S.length) : (pack S)[j]? = some (packByte S j) := by
  rw [pack, List.getElem?_map, List.getElem?_range hj, Option.map_some]

/-- Bit k of a payload, in its bytes' most-significant-first order, is bit k of the sequence, 0 beyond its end. -/
theorem payloadBit_pack {S : BitStr} {k : Nat} (hk : k < 8 * ceil8 S.length) :
    ((pack S)[k / 8]?).map (payloadBit · k) = some (S.getD k false) := by
  rw [getElem?_pack (by omega), Option.map_some, payloadBit, getLsbD_packByte S _ (Nat.mod_lt k (by decide)),
    Nat.div_add_mod]

theorem length_le_ceil8 (n : Nat) : n ≤ 8 * ceil8 n := by
  rw [ceil8]
  omega

/-- Settles O42: each bit of the payload is the sequence's, or a pad bit. -/
theorem packIsMostSignificantFirst : Obligations.PackIsMostSignificantFirst := by
  refine fun S => ⟨pack_length S, fun k hk => ?_, fun k hk hpad => ?_⟩
  · have hbit := payloadBit_pack (hk.trans_le (length_le_ceil8 _))
    rwa [List.getD_eq_getElem _ _ hk, ← List.getElem?_eq_getElem hk] at hbit
  · have hbit := payloadBit_pack hpad
    rwa [List.getD_eq_default _ _ hk] at hbit

/-! ## Header -/

/-- A table line costs its code's length and three bytes more. -/
theorem tableLine_length (c : BitStr) (sym : Symbol) : (tableLine c sym).length = c.length + 3 := by
  rw [tableLine, List.length_append, List.length_map, List.length_cons, List.length_cons, List.length_singleton]

theorem bitCountLine_length (bits : Nat) : (bitCountLine bits).length = (dec bits).length + 1 := by
  rw [bitCountLine, List.length_append, List.length_singleton]

theorem headerStart_length (N : Nat) (lines : List (BitStr × Symbol)) :
    (headerStart N lines).length = 3 + ((dec N).length + 1) + (lines.map fun x => x.1.length + 3).sum := by
  simp only [headerStart, List.length_append, List.length_flatMap, tableLine_length, List.length_cons, List.length_nil]
  omega

theorem headerOf_none_length (lines : List (BitStr × Symbol)) :
    (headerOf lines none).length = (headerStart lines.length lines).length + 3 := by
  rw [headerOf_none, List.length_append]
  rfl

theorem headerOf_some_length (lines : List (BitStr × Symbol)) (bits : Nat) :
    (headerOf lines (some bits)).length = (headerOf lines none).length + (bitCountLine bits).length := by
  rw [headerOf_none, headerOf_some, List.length_append, List.length_append, List.length_append, Nat.add_right_comm]

/-- Settles O48: the lengths of the header's parts, added up. -/
theorem headerLengthFollowsFromItsLines : Obligations.HeaderLengthFollowsFromItsLines := by
  refine fun lines bits => ⟨?_, ?_⟩
  · rw [headerOf_none_length, headerStart_length]
  · rw [headerOf_some_length, bitCountLine_length]

end Sys2Proof.Machine
end

section
/-! PROOFS. The core's step: which word it runs, when there is none, and that every command completes (40_control.md R160 to
R165; O5, O6, O7, O9, O10, O28, O29). -/

namespace Sys2Proof.Machine

/-! ## The pending word -/

section
variable {s : State} {w : Word}

/-- With no event left the core runs the pending word (40_control.md R160). -/
theorem step_of_empty_script (hpending : s.pending = some w) (hscript : s.script = []) : step s = coreStep w s := by
  rw [step, nextEvent, hscript, hpending]

/-- The core's turn runs the pending word (40_control.md R160). -/
theorem step_of_core_turn {rest : List Event} (hpending : s.pending = some w) (hscript : s.script = .core :: rest) :
    step s = coreStep w { s with script := rest } := by
  rw [step, nextEvent, hscript]
  show coreTurn { s with script := rest } = _
  rw [coreTurn, hpending]

/-- Where the core moves first, its step leaves the events still to come as they were. -/
theorem step_coreFirst (hpending : s.pending = some w) (events : List Event) :
    step { s with script := coreFirst events } = coreStep w { s with script := events } := by
  cases events with
  | nil => exact step_of_empty_script hpending rfl
  | cons e rest => exact step_of_core_turn hpending rfl

theorem coreStep_of_decode {i : Instr} (h : decode w = .ok i) (s : State) : coreStep w s = exec i s := by
  rw [coreStep, h]

/-- A word that is no command's encoding takes the illegal-command rule (40_control.md R164). -/
theorem coreStep_illegal (h : ∀ i, w ≠ encode i) (s : State) :
    coreStep w s = .next { s with errcode := 0x01#8, errInfo := w, pending := none, done := true } := by
  obtain ⟨i, hdecode, -⟩ | ⟨e, -, hraise⟩ := coreStep_cases w s
  · exact absurd (eq_encode_of_decode hdecode) (h i)
  · rw [hraise, raiseError, BitVec.ofNat_toNat, BitVec.setWidth_eq]
    rfl

theorem decode_of_decodeTableWord {nbits n : Nat} {i : Instr} (h : decodeTableWord nbits n = some i) :
    decode (BitVec.ofNat 32 (n % 2 ^ nbits)) = .ok i := by
  rw [decodeTableWord] at h
  split at h
  · next hdecode => rw [hdecode, Option.some.inj h]
  · cases h

end

/-- Settles O5: the core's step on the pending word, which `withFetchWord` has accepted with the core's turn next. -/
theorem stepRunsDecodedCommand : Obligations.StepRunsDecodedCommand := by
  refine ⟨fun s w i hpending hdecode => ⟨fun hscript => ?_, fun rest hscript => ?_⟩, fun s nbits n i htable => ?_⟩
  · rw [step_of_empty_script hpending hscript, coreStep_of_decode hdecode]
  · rw [step_of_core_turn hpending hscript, coreStep_of_decode hdecode]
  · rw [← coreStep_of_decode (decode_of_decodeTableWord htable)]
    exact step_coreFirst (s := accept _ s) rfl s.script

/-- Settles O6: no other word than an encoding decodes, so the core's step is the illegal-command rule. -/
theorem illegalWordsCompleteWithError : Obligations.IllegalWordsCompleteWithError := by
  refine fun s w hillegal hpending => ⟨fun hscript => ?_, fun rest hscript => ?_⟩
  · rw [step_of_empty_script hpending hscript, coreStep_illegal hillegal]
  · rw [step_of_core_turn hpending hscript, coreStep_illegal hillegal]

/-! ## Being stuck -/

theorem exec_ne_stuck (i : Instr) (s : State) : exec i s ≠ .fault .noEnabledStep := by
  intro hstuck
  rw [exec_eq_finish] at hstuck
  obtain ⟨j, -, -, hfault⟩ := commandBody_stops i s _ (finish_eq_fault.1 hstuck)
  cases hfault

theorem coreStep_ne_stuck (w : Word) (s : State) : coreStep w s ≠ .fault .noEnabledStep := by
  obtain ⟨i, -, hexec⟩ | ⟨e, -, hraise⟩ := coreStep_cases w s
  · rw [hexec]
    exact exec_ne_stuck i s
  · rw [hraise]
    exact nofun

theorem bufferWord_ne_stuck (m : Memory) (b : Buffer) (i : Nat) : bufferWord m b i ≠ .error .noEnabledStep := by
  rw [bufferWord]
  split <;> exact nofun

theorem slotWord_ne_stuck (s : State) (t : Slot) : slotWord s t ≠ .error .noEnabledStep := by
  cases t with
  | ibuf i => exact bufferWord_ne_stuck _ _ _
  | obuf i => exact bufferWord_ne_stuck _ _ _
  | reg | freq | code | node | unmapped => exact nofun

theorem hostRead_ne_stuck (a : Offset) (s : State) : hostRead a s ≠ .fault .noEnabledStep := by
  intro hstuck
  obtain hdraw | ⟨v, hrecord⟩ | ⟨f, hfault, hslot⟩ := hostRead_cases a s
  · cases hdraw.symm.trans hstuck
  · cases hrecord.symm.trans hstuck
  · cases hfault.symm.trans hstuck
    exact slotWord_ne_stuck _ _ hslot

/-- While an event is left some agent has a step (40_control.md R160). -/
theorem runEvent_ne_stuck (e : Event) (s : State) : runEvent e s ≠ .fault .noEnabledStep := by
  cases e with
  | write a v => exact nofun
  | read a => exact hostRead_ne_stuck a s
  | core =>
    rw [runEvent, coreTurn]
    split
    · exact coreStep_ne_stuck _ s
    · exact nofun
  | reset => exact nofun

/-- Settles O7: neither an event of the script nor a pending word answers this fault. -/
theorem onlyAnIdleMachineIsStuck : Obligations.OnlyAnIdleMachineIsStuck := by
  intro s
  obtain ⟨e, rest, hscript, hrun⟩ | ⟨w, hscript, hpending, hcore⟩ | ⟨hscript, hpending, hstuck⟩ := step_cases s
  · rw [hrun, hscript]
    exact iff_of_false (runEvent_ne_stuck e _) nofun
  · rw [hcore, hpending]
    exact iff_of_false (coreStep_ne_stuck w s) nofun
  · exact iff_of_true hstuck ⟨hscript, hpending⟩

/-! ## Completion -/

section
variable {s : State} {f : Fault}

/-- HDRW reads no input byte: with IN_LEN = 0, where no byte is below IN_LEN, its scan is the same. -/
theorem hdrwBody_ne_fault (format : Format) : hdrwBody format s ≠ .fault f := by
  have hstops : ResultStops { s with inLen := 0#32 } (hdrwBody format s) := by
    rw [hdrwBody]
    split
    · next stop hstop =>
      exact resultStops_of_scan (scanStops_headerBitLine (s := { s with inLen := 0#32 })) hstop s
    · exact resultStops_ite resultStops_raise resultStops_done
  intro hfault
  obtain ⟨j, hj, -⟩ := hstops f hfault
  exact Nat.not_lt_zero j hj

theorem assignBody_ne_fault : assignBody s ≠ .fault f := by
  rw [assignBody]
  split
  · exact nofun
  · split <;> exact nofun

section
variable (h : s.params.ibufBytes < s.inLen.toNat)
include h

theorem freqBody_overlong : freqBody s = .raise s .range s.inLen.toNat := if_pos h

theorem encodeBody_overlong : encodeBody s = .raise s .range s.inLen.toNat := if_pos h

theorem decodeBody_overlong : decodeBody s = .raise s .range s.inLen.toNat := if_pos h

theorem hdrpBody_overlong (format : Format) : hdrpBody format s = .raise (hdrpFailure s) .range s.inLen.toNat := by
  rw [hdrpBody, parseHeader, if_pos h]
  rfl

theorem compressBody_overlong (format : Format) : compressBody format s = .raise s .range s.inLen.toNat := by
  rw [compressBody, freqBody_overlong h]
  rfl

theorem decompressBody_overlong (format : Format) :
    decompressBody format s = .raise (hdrpFailure s) .range s.inLen.toNat := by
  rw [decompressBody, hdrpBody_overlong h]
  rfl

/-- With IN_LEN beyond the buffer no command reads an input byte: one that reads IBUF raises E_RANGE before. -/
theorem commandBody_ne_fault_of_overlong (i : Instr) : commandBody i s ≠ .fault f := by
  have raised {r : CmdResult} {t : State} (hr : r = .raise t .range s.inLen.toNat) : r ≠ .fault f := by
    rw [hr]
    exact nofun
  cases i with
  | nop | clear | build => exact nofun
  | freq => exact raised (freqBody_overlong h)
  | assign => exact assignBody_ne_fault
  | encode => exact raised (encodeBody_overlong h)
  | decode => exact raised (decodeBody_overlong h)
  | hdrw => exact hdrwBody_ne_fault .extended
  | hdrwL => exact hdrwBody_ne_fault .legacy
  | hdrp => exact raised (hdrpBody_overlong h .extended)
  | hdrpL => exact raised (hdrpBody_overlong h .legacy)
  | compress => exact raised (compressBody_overlong h .extended)
  | compressL => exact raised (compressBody_overlong h .legacy)
  | decompress => exact raised (decompressBody_overlong h .extended)
  | decompressL => exact raised (decompressBody_overlong h .legacy)

end

/-- A body that meets no fault ends its command with BUSY = 0, DONE = 1 and the error registers in order
(60_exceptions.md R282, R283). -/
theorem finish_completes {r : CmdResult} (h : ∀ f, r ≠ .fault f) :
    ∃ t, r.finish = .next t ∧ t.pending = none ∧ t.done = true ∧ CompletionInv t := by
  cases r with
  | done u => exact ⟨complete u, rfl, rfl, rfl, completionInv_complete u⟩
  | raise u e n => exact ⟨raiseError e n u, rfl, rfl, rfl, completionInv_raiseError e n u⟩
  | fault f => exact absurd rfl (h f)

end

/-- Settles O9: a fault is an unwritten byte below IN_LEN, and there is none where IN_LEN exceeds the buffer. -/
theorem everyCommandCompletes : Obligations.EveryCommandCompletes := by
  intro i s hwritten
  have hbody : ∀ f, commandBody i s ≠ .fault f := by
    intro f hfault
    obtain hlong | hfits := Nat.lt_or_ge s.params.ibufBytes s.inLen.toNat
    · exact commandBody_ne_fault_of_overlong hlong i hfault
    · obtain ⟨j, hj, hnone, -⟩ := commandBody_stops i s f hfault
      exact hwritten hfits j hj hnone
  obtain ⟨t, ht, hpending, hdone, hcompletion⟩ := finish_completes hbody
  exact ⟨t, (exec_eq_finish i s).trans ht, hpending, hdone, hcompletion.errListed, hcompletion.noErrInfo⟩

/-! ## Acceptance, NOP and CLEAR -/

/-- Settles O10: the offset names CMD, which an idle write reaches and a busy one does not. -/
theorem acceptanceLatchesTheWord : Obligations.AcceptanceLatchesTheWord :=
  fun _ _ _ _ hoffset hscript => ⟨fun hidle => step_of_idle_write hidle hscript hoffset,
    fun _ hpending => step_of_dropped_write hpending hscript (busyWritable_slotOf _ (by simp [hoffset]))⟩

/-- Settles O28: NOP's body ends at its `complete()` with nothing written. -/
theorem nopOnlyCompletes : Obligations.NopOnlyCompletes :=
  ⟨rfl, fun _ => rfl⟩

/-- Settles O29: the tables CLEAR writes are constant, and its other writes are those named. -/
theorem clearReturnsWorkingData : Obligations.ClearReturnsWorkingData :=
  ⟨rfl, fun _ => ⟨Vector.replicate 256 0#32, emptyCodeTable, rfl, tableGet_replicate _, tableGet_empty⟩⟩

end Sys2Proof.Machine
end

section
/-! PROOFS. FREQ: the count of each byte value, and that the counts sum to the length of the input (41_frequency.md R170 to
R173; O30, O31). -/

namespace Sys2Proof.Machine

/-! ## The counts of a byte string -/

theorem tableGet_countByte (t : Vector Word 256) (b : Byte) (sym : Symbol) :
    tableGet (countByte t b) sym = tableGet t sym + if b = sym then 1#32 else 0#32 := by
  rw [countByte]
  split
  · next h => rw [h, tableGet_set_same, BitVec.ofNat_add, BitVec.ofNat_toNat, BitVec.setWidth_eq]
  · next h => rw [tableGet_set_other _ _ (Ne.symm h), BitVec.add_zero]

theorem tableGet_foldl_countByte (bs : List Byte) (t : Vector Word 256) (sym : Symbol) :
    tableGet (bs.foldl countByte t) sym = tableGet t sym + BitVec.ofNat 32 (bs.count sym) := by
  induction bs generalizing t with
  | nil => simp
  | cons b bs ih =>
    rw [List.foldl_cons, ih, tableGet_countByte, List.count_cons, Nat.add_comm (bs.count sym), BitVec.ofNat_add,
      BitVec.add_assoc]
    simp only [beq_iff_eq]
    split <;> rfl

/-- Every count starts at 0 and grows by one with each occurrence (41_frequency.md R171). -/
theorem tableGet_countBytes (bs : List Byte) (sym : Symbol) :
    tableGet (countBytes bs) sym = BitVec.ofNat 32 (bs.count sym) := by
  rw [countBytes, tableGet_foldl_countByte, tableGet_replicate, BitVec.zero_add]

/-- The counts of a string no longer than a 32-bit length do not wrap. -/
theorem toNat_tableGet_countBytes {bs : List Byte} (h : bs.length < 2 ^ 32) (sym : Symbol) :
    (tableGet (countBytes bs) sym).toNat = bs.count sym := by
  rw [tableGet_countBytes, BitVec.toNat_ofNat, Nat.mod_eq_of_lt (List.count_le_length.trans_lt h)]

/-! ## The sum of the counts -/

theorem toList_eq_map_tableGet {α : Type} (t : Vector α 256) : t.toList = allSymbols.map (tableGet t) := by
  refine List.ext_getElem (by simp [allSymbols_length]) fun n hn _ => ?_
  have hn' : n < 256 := by simpa using hn
  simp [allSymbols_getElem, tableGet, Nat.mod_eq_of_lt hn']

theorem allSymbols_nodup : allSymbols.Nodup := by
  refine List.nodup_range.map_on fun m hm n hn h => ?_
  rw [List.mem_range] at hm hn
  have := congrArg BitVec.toNat h
  rwa [BitVec.toNat_ofNat, BitVec.toNat_ofNat, Nat.mod_eq_of_lt hm, Nat.mod_eq_of_lt hn] at this

/-- Each byte of a string is counted for one symbol. -/
theorem sum_count_allSymbols (bs : List Byte) : (allSymbols.map fun sym => bs.count sym).sum = bs.length := by
  have hsum := Multiset.sum_count_eq_card (s := allSymbols.toFinset) (m := (bs : Multiset Byte)) fun b _ =>
    List.mem_toFinset.2 (mem_allSymbols b)
  simpa only [List.sum_toFinset _ allSymbols_nodup, Multiset.coe_count, Multiset.coe_card] using hsum

theorem totalCount_countBytes {bs : List Byte} (h : bs.length < 2 ^ 32) : totalCount (countBytes bs) = bs.length :=
  calc totalCount (countBytes bs)
    _ = (allSymbols.map fun sym => (tableGet (countBytes bs) sym).toNat).sum := by
      rw [totalCount, toList_eq_map_tableGet, List.map_map]
      rfl
    _ = (allSymbols.map fun sym => bs.count sym).sum := by simp only [toNat_tableGet_countBytes h]
    _ = bs.length := sum_count_allSymbols bs

/-! ## FREQ -/

theorem inputBytes_of_ibufHolds {s : State} {bs : List Byte} (h : IbufHolds s bs) :
    inputBytes s s.inLen.toNat 0 = .ok bs := by
  obtain ⟨hlen, hbytes⟩ := h
  exact inputBytes_eq_ok.2 ⟨hlen.symm, fun k hk => by rw [Nat.zero_add, hbytes k (hlen ▸ hk)]⟩

theorem freqBody_counts {s : State} {bs : List Byte} (h : IbufHolds s bs) (hfits : bs.length ≤ s.params.ibufBytes) :
    freqBody s = .done { s with freq := countBytes bs, treeBuilt := false } := by
  have hlen : s.inLen.toNat = bs.length := h.1
  rw [freqBody, if_neg (by omega), inputBytes_of_ibufHolds h]

theorem exec_freq_counts {s : State} {bs : List Byte} (h : IbufHolds s bs) (hfits : bs.length ≤ s.params.ibufBytes) :
    exec .freq s = .next (complete { s with freq := countBytes bs, treeBuilt := false }) :=
  congrArg CmdResult.finish (freqBody_counts h hfits)

/-- Settles O30: an input inside the buffer is counted, and a longer one is refused before anything is written. -/
theorem freqCountsEveryByte : Obligations.FreqCountsEveryByte :=
  ⟨fun _ bs h hfits => ⟨countBytes bs, exec_freq_counts h hfits, tableGet_countBytes bs⟩,
    fun _ hlong => congrArg CmdResult.finish (freqBody_overlong hlong)⟩

/-- Settles O31: IN_LEN is a 32-bit length, so that no count wraps. -/
theorem freqConservesCounts : Obligations.FreqConservesCounts := by
  intro s bs _ h hfits
  have hlen : s.inLen.toNat = bs.length := h.1
  have hbound : bs.length < 2 ^ 32 := hlen ▸ s.inLen.isLt
  refine ⟨_, exec_freq_counts h hfits, (totalCount_countBytes hbound).trans hlen.symm, fun sym => ?_⟩
  rw [freqAt, complete_freq, toNat_tableGet_countBytes hbound, List.count_pos_iff]

end Sys2Proof.Machine
end

section
/-! PROOFS. The arbiter: extraction takes the least entry, so that two extractions take the two least (42_tree_builder.md R181,
R182; O32), and the induction rule for the MERGE loop that says so. -/

namespace Sys2Proof.Machine

/-! ## Extraction -/

/-- The arbiter's order made reflexive (42_tree_builder.md R181). -/
abbrev AtMost (a b : PQEntry) : Prop := a.weight < b.weight ∨ (a.weight = b.weight ∧ a.index ≤ b.index)

theorem pqLess_iff {a b : PQEntry} :
    pqLess a b = true ↔ a.weight < b.weight ∨ (a.weight = b.weight ∧ a.index < b.index) := by
  simp [pqLess]

/-- The extracted entry is the least of the arbiter's. -/
theorem extractMin_least {pq : List PQEntry} {m : PQEntry} {rest : List PQEntry} (h : extractMin pq = some (m, rest)) :
    ∀ x ∈ pq, AtMost m x := by
  induction pq generalizing m rest with
  | nil => simp
  | cons e es ih =>
    unfold extractMin at h
    split at h
    · next hnone =>
      rw [extractMin_eq_none.1 hnone]
      obtain ⟨rfl, -⟩ : e = m ∧ [] = rest := by simpa using h
      exact List.forall_mem_singleton.2 (.inr ⟨rfl, le_rfl⟩)
    · next m' rest' hsome =>
      have hleast := ih hsome
      rw [List.forall_mem_cons]
      split at h
      · next hless =>
        obtain ⟨rfl, -⟩ : m' = m ∧ e :: rest' = rest := by simpa using h
        rw [pqLess_iff] at hless
        exact ⟨by omega, hleast⟩
      · next hless =>
        obtain ⟨rfl, -⟩ : e = m ∧ es = rest := by simpa using h
        rw [pqLess_iff] at hless
        refine ⟨by omega, fun x hx => ?_⟩
        have := hleast x hx
        omega

/-- Settles O32: extraction permutes the arbiter and takes its least entry. -/
theorem arbiterExtractsLeast : Obligations.ArbiterExtractsLeast :=
  fun _ => ⟨extractMin_eq_none, fun _ _ h => ⟨extractMin_perm h, extractMin_least h⟩⟩

/-! ## The two least entries -/

/-- `a` and then `b` are the two least entries of `pq`, and `rest` holds the others. -/
structure LeastTwo (pq : List PQEntry) (a b : PQEntry) (rest : List PQEntry) : Prop where
  perm : (a :: b :: rest).Perm pq
  first : AtMost a b
  second : ∀ x ∈ rest, AtMost b x

theorem leastTwo_of_extractMin {pq pq1 rest : List PQEntry} {a b : PQEntry} (ha : extractMin pq = some (a, pq1))
    (hb : extractMin pq1 = some (b, rest)) : LeastTwo pq a b rest where
  perm := ((extractMin_perm hb).cons a).trans (extractMin_perm ha)
  first := extractMin_least ha b
    ((extractMin_perm ha).mem_iff.1 (List.mem_cons_of_mem a ((extractMin_perm hb).mem_iff.1 List.mem_cons_self)))
  second x hx := extractMin_least hb x ((extractMin_perm hb).mem_iff.1 (List.mem_cons_of_mem b hx))

/-- Induction along the merges, each of the two least entries: `mergeLoop_keeps` with the order of the extractions. -/
theorem mergeLoop_keeps_of_leastTwo {P : List PQEntry → List Node → Prop}
    (merge : ∀ pq nodes a b rest, P pq nodes → LeastTwo pq a b rest →
      P (⟨a.weight + b.weight, nodes.length⟩ :: rest) (nodes ++ [mergeNode a b]))
    (fuel : Nat) {pq : List PQEntry} {nodes : List Node} (h : P pq nodes) :
    P (mergeLoop fuel pq nodes).1 (mergeLoop fuel pq nodes).2 := by
  induction fuel, pq, nodes using mergeLoop.induct with
  | case1 pq nodes => exact h
  | case2 fuel pq nodes hnone => simpa [mergeLoop, hnone] using h
  | case3 fuel pq nodes a pq1 ha hnone => simpa [mergeLoop, ha, hnone] using h
  | case4 fuel pq nodes a pq1 ha b rest hb ih =>
    simpa [mergeLoop, ha, hb] using ih (merge pq nodes a b rest h (leastTwo_of_extractMin ha hb))

end Sys2Proof.Machine
end

section
/-! PROOFS. The leaves BUILD seeds: how many there are, where each stands, and what they weigh (42_tree_builder.md R184, R186;
O34). -/

namespace Sys2Proof.Machine

/-! ## The present symbols -/

theorem tableEntries_eq_map {α : Type} (t : Vector α 256) :
    tableEntries t = allSymbols.map fun sym => (sym, tableGet t sym) := by
  rw [tableEntries, toList_eq_map_tableGet, List.map_prod_left_eq_zip]

theorem presentSymbols_eq_map (freq : Vector Word 256) :
    presentSymbols freq =
      (allSymbols.filter fun sym => tableGet freq sym != 0#32).map fun sym => (sym, tableGet freq sym) := by
  rw [presentSymbols, tableEntries_eq_map, List.filter_map]
  rfl

/-- The counts of the present symbols are the positive counts of FREQ. -/
theorem map_snd_presentSymbols (freq : Vector Word 256) :
    (presentSymbols freq).map Prod.snd = freq.toList.filter fun c => c != 0#32 := by
  rw [presentSymbols_eq_map, toList_eq_map_tableGet, List.filter_map, List.map_map]
  rfl

theorem presentSymbols_length (freq : Vector Word 256) : (presentSymbols freq).length = presentCount freq := by
  rw [← List.length_map (f := Prod.snd), map_snd_presentSymbols, presentCount, List.countP_eq_length_filter]

/-- A filtered list holds an element that passes after the ones before it that pass. -/
theorem getElem?_filter_countP_take {α : Type} {p : α → Bool} {l : List α} {i : Nat} (hi : i < l.length)
    (hp : p l[i] = true) : (l.filter p)[(l.take i).countP p]? = some l[i] := by
  have hsplit : l.filter p = (l.take i).filter p ++ l[i] :: (l.drop (i + 1)).filter p := by
    rw [← List.filter_cons_of_pos hp, ← List.filter_append, List.getElem_cons_drop, List.take_append_drop]
  rw [hsplit, List.countP_eq_length_filter, List.getElem?_append_right le_rfl, Nat.sub_self, List.getElem?_cons_zero]

/-- A present symbol stands after the present symbols below it. -/
theorem presentSymbols_getElem? {freq : Vector Word 256} {sym : Symbol} (h : tableGet freq sym ≠ 0#32) :
    (presentSymbols freq)[(allSymbols.take sym.toNat).countP fun r => tableGet freq r != 0#32]? =
      some (sym, tableGet freq sym) := by
  have hsym : sym.toNat < allSymbols.length := allSymbols_length ▸ sym.isLt
  have hget : allSymbols[sym.toNat] = sym := by rw [allSymbols_getElem, BitVec.ofNat_toNat, BitVec.setWidth_eq]
  have hfilter := getElem?_filter_countP_take (p := fun r => tableGet freq r != 0#32) hsym (by simpa [hget] using h)
  rw [presentSymbols_eq_map, List.getElem?_map, hfilter, hget, Option.map_some]

/-! ## The seeded entries -/

theorem map_index_seedQueue (leaves : List (Symbol × Word)) :
    (seedQueue leaves).map PQEntry.index = List.range leaves.length := by
  rw [seedQueue, List.map_map, List.range_eq_range', ← List.zipIdx_map_snd]
  rfl

theorem map_weight_seedQueue (leaves : List (Symbol × Word)) :
    (seedQueue leaves).map PQEntry.weight = (leaves.map Prod.snd).map BitVec.toNat := by
  conv_rhs => rw [← List.zipIdx_map_fst 0 leaves]
  rw [seedQueue, List.map_map, List.map_map, List.map_map]
  rfl

/-- The entry with index n is the n-th leaf's. -/
theorem weight_of_mem_seedQueue {leaves : List (Symbol × Word)} {e : PQEntry} (h : e ∈ seedQueue leaves) :
    ∃ hlt : e.index < leaves.length, e.weight = leaves[e.index].2.toNat := by
  obtain ⟨⟨x, i⟩, hx, rfl⟩ := List.mem_map.1 h
  obtain ⟨hlt, hget⟩ := List.getElem?_eq_some_iff.1 (List.mem_zipIdx_iff_getElem?.1 hx)
  exact ⟨hlt, congrArg (fun x => x.2.toNat) hget.symm⟩

/-- A count of 0 adds nothing. -/
theorem sum_toNat_filter_ne_zero (counts : List Word) :
    ((counts.filter fun c => c != 0#32).map BitVec.toNat).sum = (counts.map BitVec.toNat).sum := by
  induction counts with
  | nil => rfl
  | cons c cs ih =>
    by_cases hc : c = 0#32
    · simpa [hc] using ih
    · simpa [hc] using ih

/-- The leaves weigh the sum of all counts (42_tree_builder.md R190). -/
theorem liveWeight_seedQueue (freq : Vector Word 256) :
    liveWeight (seedQueue (presentSymbols freq)) = totalCount freq := by
  rw [liveWeight, map_weight_seedQueue, map_snd_presentSymbols, sum_toNat_filter_ne_zero]

/-! ## The leaves in the arena -/

/-- No merge moves or changes a leaf. -/
theorem buildTree_nodes_eq_leaves_append (freq : Vector Word 256) :
    ∃ inner, (buildTree freq).2 = (presentSymbols freq).map leafNode ++ inner := by
  refine mergeLoop_keeps (P := fun _ nodes => ∃ inner, nodes = (presentSymbols freq).map leafNode ++ inner) ?_ _
    ⟨[], (List.append_nil _).symm⟩
  rintro - nodes a b - ⟨inner, rfl⟩ -
  exact ⟨inner ++ [mergeNode a b], List.append_assoc ..⟩

theorem exec_build (s : State) : exec .build s = .next (complete (buildWork s)) := rfl

theorem eq_of_exec_build {s t : State} (h : exec .build s = .next t) : t = complete (buildWork s) :=
  (Host.Outcome.next.inj h).symm

/-- The n-th node after BUILD is the n-th leaf, for n below the number of present symbols. -/
theorem buildWork_leaf (s : State) {n : Nat} {x : Symbol × Word} (h : (presentSymbols s.freq)[n]? = some x) :
    arenaGet (buildWork s).node n = leafNode x := by
  have hnode : (buildTree s.freq).2[n]? = some (leafNode x) := by
    obtain ⟨inner, hinner⟩ := buildTree_nodes_eq_leaves_append s.freq
    have hlt := (List.getElem?_eq_some_iff.1 h).1
    rw [hinner, List.getElem?_append_left (by rwa [List.length_map]), List.getElem?_map, h, Option.map_some]
  exact Option.some_inj.1 ((buildWork_node s (List.getElem?_eq_some_iff.1 hnode).1).symm.trans hnode)

/-- Settles O34: the leaf of a symbol stands after those of the present symbols below it, and the merges leave it there. -/
theorem buildPlacesLeaves : Obligations.BuildPlacesLeaves := by
  intro s t sym hexec hpresent
  rw [eq_of_exec_build hexec, complete_node]
  refine (buildWork_leaf s (presentSymbols_getElem? hpresent)).trans ?_
  rw [leafNode, BitVec.ofNat_toNat]
  rfl

end Sys2Proof.Machine
end

section
/-! PROOFS. The merges of BUILD: an invariant of the partial trees of the MERGE loop, read in the arena that holds the finished
one (42_tree_builder.md R184, R190; O35), and the counts and the root that follow from it (O33). -/

namespace Sys2Proof.Machine

/-! ## Partial trees -/

/-- The arena holds these nodes from index 0 up. -/
def Holds (A : Vector Node 511) (nodes : List Node) : Prop := ∀ n < nodes.length, nodes[n]? = some (arenaGet A n)

theorem holds_concat {A : Vector Node 511} {nodes : List Node} {nd : Node} (h : Holds A (nodes ++ [nd])) :
    Holds A nodes ∧ arenaGet A nodes.length = nd := by
  have hlast := h nodes.length (by simp)
  rw [List.getElem?_concat_length] at hlast
  refine ⟨fun n hn => ?_, (Option.some_inj.1 hlast).symm⟩
  rw [← h n (by rw [List.length_append]; omega), List.getElem?_append_left hn]

/-- No node from `k` up to below `n` has `m` as a child. -/
abbrev Parentless (A : Vector Node 511) (k n m : Nat) : Prop := ∀ n', k ≤ n' → n' < n → ¬ChildOf A m n'

theorem parentless_succ {A : Vector Node 511} {k n m : Nat} (hk : k ≤ n) :
    Parentless A k (n + 1) m ↔ Parentless A k n m ∧ ¬ChildOf A m n := by
  refine ⟨fun h => ⟨fun n' hk' hn' => h n' hk' (by omega), h n hk (Nat.lt_succ_self n)⟩, fun ⟨h, hn⟩ n' hk' hn' => ?_⟩
  obtain hlt | rfl := Nat.lt_succ_iff_lt_or_eq.1 hn'
  · exact h n' hk' hlt
  · exact hn

/-- Node `n` merges the two least of the nodes below it that have no parent yet (42_tree_builder.md R184, R190). -/
structure MergesLeast (A : Vector Node 511) (k n : Nat) : Prop where
  internal : (arenaGet A n).internal = true
  symbol : (arenaGet A n).symbol = 0#8
  left_lt : (arenaGet A n).left.toNat < n
  right_lt : (arenaGet A n).right.toNat < n
  weight : (arenaGet A n).weight.toNat =
    (arenaGet A (arenaGet A n).left.toNat).weight.toNat + (arenaGet A (arenaGet A n).right.toNat).weight.toNat
  ordered : NodeBefore A (arenaGet A n).left.toNat (arenaGet A n).right.toNat
  least : ∀ m, m < n → m ≠ (arenaGet A n).left.toNat → m ≠ (arenaGet A n).right.toNat → Parentless A k n m →
    NodeBefore A (arenaGet A n).right.toNat m

/-- A node that merges has only smaller children. -/
theorem MergesLeast.child_lt {A : Vector Node 511} {k n m : Nat} (h : MergesLeast A k n) (hchild : ChildOf A m n) :
    m < n := by
  obtain rfl | rfl := hchild
  · exact h.left_lt
  · exact h.right_lt

/-- The first `n` nodes of the arena, `k` leaves and the merges above them, with the arbiter's live entries: one for each
node without a parent. -/
structure PartialTree (A : Vector Node 511) (k : Nat) (pq : List PQEntry) (n : Nat) : Prop where
  leaves_le : k ≤ n
  /-- A merge takes one entry more than it adds, so the indexes stay within the 511 of the arena. -/
  room : n + pq.length ≤ 512
  total_lt : liveWeight pq < 2 ^ 40
  nodup : (pq.map PQEntry.index).Nodup
  live_iff : ∀ m, m ∈ pq.map PQEntry.index ↔ m < n ∧ Parentless A k n m
  weight : ∀ e ∈ pq, (arenaGet A e.index).weight.toNat = e.weight
  merges : ∀ n', k ≤ n' → n' < n → MergesLeast A k n'
  oneParent : ∀ m n1 n2, k ≤ n1 → n1 < n → k ≤ n2 → n2 < n → ChildOf A m n1 → ChildOf A m n2 → n1 = n2

/-! ## One merge -/

theorem PartialTree.index_lt {A : Vector Node 511} {k n : Nat} {pq : List PQEntry} (h : PartialTree A k pq n)
    {e : PQEntry} (he : e ∈ pq) : e.index < n :=
  ((h.live_iff e.index).1 (List.mem_map_of_mem he)).1

/-- A live index fits the 9 bits of a child field. -/
theorem PartialTree.toNat_index {A : Vector Node 511} {k n : Nat} {pq : List PQEntry} (h : PartialTree A k pq n)
    {e : PQEntry} (he : e ∈ pq) : (BitVec.ofNat 9 e.index).toNat = e.index := by
  have hlt := h.index_lt he
  have hroom := h.room
  exact Nat.mod_eq_of_lt (by omega)

/-- The arena orders the nodes of the live entries as the arbiter orders the entries. -/
theorem PartialTree.nodeBefore {A : Vector Node 511} {k n : Nat} {pq : List PQEntry} (h : PartialTree A k pq n)
    {e f : PQEntry} (he : e ∈ pq) (hf : f ∈ pq) (hle : AtMost e f) (hne : e.index ≠ f.index) :
    NodeBefore A e.index f.index := by
  rw [NodeBefore, h.weight e he, h.weight f hf]
  omega

section
variable {A : Vector Node 511} {k n : Nat} {pq : List PQEntry} {a b : PQEntry} {rest : List PQEntry}

theorem LeastTwo.mem (hleast : LeastTwo pq a b rest) : a ∈ pq ∧ b ∈ pq ∧ ∀ e ∈ rest, e ∈ pq := by
  simpa using fun e (he : e ∈ a :: b :: rest) => hleast.perm.mem_iff.1 he

variable (h : PartialTree A k pq n) (hleast : LeastTwo pq a b rest) (hnode : arenaGet A n = mergeNode a b)
include h hleast

theorem merged_indexes_ne : a.index ≠ b.index ∧ a.index ∉ rest.map PQEntry.index ∧ b.index ∉ rest.map PQEntry.index ∧
    (rest.map PQEntry.index).Nodup := by
  have hnodup : (a.index :: b.index :: rest.map PQEntry.index).Nodup :=
    ((hleast.perm.map PQEntry.index).nodup_iff).2 h.nodup
  simpa [and_assoc] using hnodup

include hnode

theorem merged_left : (arenaGet A n).left.toNat = a.index := by
  rw [hnode]
  exact h.toNat_index hleast.mem.1

theorem merged_right : (arenaGet A n).right.toNat = b.index := by
  rw [hnode]
  exact h.toNat_index hleast.mem.2.1

/-- The sum is one of the weights left live, so it does not wrap (42_tree_builder.md R189). -/
theorem merged_weight : (arenaGet A n).weight.toNat = a.weight + b.weight := by
  have htotal : a.weight + b.weight + liveWeight rest < 2 ^ 40 :=
    (liveWeight_merge n hleast.perm).trans_lt h.total_lt
  rw [hnode]
  exact Nat.mod_eq_of_lt (by omega)

/-- The entries that stay are those of the nodes the new one does not take as children. -/
theorem mem_rest_iff (m : Nat) :
    m ∈ rest.map PQEntry.index ↔ (m < n ∧ Parentless A k n m) ∧ ¬ChildOf A m n := by
  have hmem : m ∈ pq.map PQEntry.index ↔ m = a.index ∨ m = b.index ∨ m ∈ rest.map PQEntry.index := by
    rw [← (hleast.perm.map PQEntry.index).mem_iff]
    simp only [List.map_cons, List.mem_cons]
  obtain ⟨-, ha, hb, -⟩ := merged_indexes_ne h hleast
  rw [← h.live_iff, hmem, ChildOf, merged_left h hleast hnode, merged_right h hleast hnode]
  constructor
  · intro hm
    exact ⟨.inr (.inr hm), by rintro (rfl | rfl) <;> contradiction⟩
  · rintro ⟨rfl | rfl | hm, hchild⟩
    · exact absurd (.inl rfl) hchild
    · exact absurd (.inr rfl) hchild
    · exact hm

/-- The children of the new node had no parent. -/
theorem merged_child_parentless {m : Nat} (hchild : ChildOf A m n) : Parentless A k n m := by
  rw [ChildOf, merged_left h hleast hnode, merged_right h hleast hnode] at hchild
  obtain rfl | rfl := hchild
  · exact ((h.live_iff _).1 (List.mem_map_of_mem hleast.mem.1)).2
  · exact ((h.live_iff _).1 (List.mem_map_of_mem hleast.mem.2.1)).2

theorem mergesLeast_merged : MergesLeast A k n := by
  obtain ⟨ha, hb, hrest⟩ := hleast.mem
  obtain ⟨hne, -, hb_rest, -⟩ := merged_indexes_ne h hleast
  have hleft := merged_left h hleast hnode
  have hright := merged_right h hleast hnode
  refine ⟨by rw [hnode]; rfl, by rw [hnode]; rfl, hleft ▸ h.index_lt ha, hright ▸ h.index_lt hb, ?_, ?_, ?_⟩
  · rw [hleft, hright, h.weight a ha, h.weight b hb, merged_weight h hleast hnode]
  · rw [hleft, hright]
    exact h.nodeBefore ha hb hleast.first hne
  · intro m hm hm_left hm_right hparentless
    obtain ⟨e, he, rfl⟩ := List.mem_map.1 ((mem_rest_iff h hleast hnode m).2
      ⟨⟨hm, hparentless⟩, not_or_intro (Ne.symm hm_left) (Ne.symm hm_right)⟩)
    rw [hright]
    exact h.nodeBefore hb (hrest e he) (hleast.second e he) fun heq => hb_rest (heq ▸ List.mem_map_of_mem he)

/-- The new node takes the place of its two children among the live ones. -/
theorem partialTree_merge : PartialTree A k (⟨a.weight + b.weight, n⟩ :: rest) (n + 1) := by
  have hrest_lt (m : Nat) (hm : m ∈ rest.map PQEntry.index) : m < n := ((mem_rest_iff h hleast hnode m).1 hm).1.1
  have hmerges (n' : Nat) (hk : k ≤ n') (hn' : n' < n + 1) : MergesLeast A k n' := by
    obtain hlt | rfl := Nat.lt_succ_iff_lt_or_eq.1 hn'
    · exact h.merges n' hk hlt
    · exact mergesLeast_merged h hleast hnode
  refine
    { leaves_le := h.leaves_le.trans (Nat.le_succ n)
      room := ?_
      total_lt := (liveWeight_merge n hleast.perm).trans_lt h.total_lt
      nodup := List.nodup_cons.2 ⟨fun hn => (hrest_lt n hn).false, (merged_indexes_ne h hleast).2.2.2⟩
      live_iff := fun m => ?_
      weight := List.forall_mem_cons.2 ⟨merged_weight h hleast hnode, fun e he => h.weight e (hleast.mem.2.2 e he)⟩
      merges := hmerges
      oneParent := ?_ }
  · have hlength := hleast.perm.length_eq
    have hroom := h.room
    simp only [List.length_cons] at hlength ⊢
    omega
  · have hself : Parentless A k (n + 1) n := fun n' hk hn' hchild => by
      have := (hmerges n' hk hn').child_lt hchild
      omega
    rw [List.map_cons, List.mem_cons, mem_rest_iff h hleast hnode, and_assoc, ← parentless_succ h.leaves_le]
    constructor
    · rintro (rfl | ⟨hm, hparentless⟩)
      · exact ⟨Nat.lt_succ_self m, hself⟩
      · exact ⟨hm.trans (Nat.lt_succ_self n), hparentless⟩
    · rintro ⟨hm, hparentless⟩
      exact (Nat.lt_succ_iff_lt_or_eq.1 hm).symm.imp_right fun hlt => ⟨hlt, hparentless⟩
  · intro m n1 n2 hk1 hn1 hk2 hn2 hchild1 hchild2
    obtain hlt1 | heq1 := Nat.lt_succ_iff_lt_or_eq.1 hn1 <;> obtain hlt2 | heq2 := Nat.lt_succ_iff_lt_or_eq.1 hn2
    · exact h.oneParent m n1 n2 hk1 hlt1 hk2 hlt2 hchild1 hchild2
    · exact absurd hchild1 (merged_child_parentless h hleast hnode (heq2 ▸ hchild2) n1 hk1 hlt1)
    · exact absurd hchild2 (merged_child_parentless h hleast hnode (heq1 ▸ hchild1) n2 hk2 hlt2)
    · exact heq1.trans heq2.symm

end

/-! ## From the seed to the tree -/

theorem partialTree_seed {A : Vector Node 511} {freq : Vector Word 256}
    (hA : Holds A ((presentSymbols freq).map leafNode)) :
    PartialTree A (presentCount freq) (seedQueue (presentSymbols freq)) (presentCount freq) := by
  have hcount := presentSymbols_length freq
  refine
    { leaves_le := le_rfl
      room := ?_
      total_lt := liveWeight_seed_lt freq
      nodup := map_index_seedQueue _ ▸ List.nodup_range
      live_iff := fun m => ?_
      weight := fun e he => ?_
      merges := fun n hk hn => absurd hk (Nat.not_le.2 hn)
      oneParent := fun _ n1 _ hk hn => absurd hk (Nat.not_le.2 hn) }
  · have := presentSymbols_length_le freq
    rw [seedQueue_length]
    omega
  · rw [map_index_seedQueue, List.mem_range, hcount]
    exact ⟨fun hm => ⟨hm, fun n hk hn => absurd hk (Nat.not_le.2 hn)⟩, And.left⟩
  · obtain ⟨hlt, hweight⟩ := weight_of_mem_seedQueue he
    have hleaf := hA e.index (by rwa [List.length_map])
    rw [List.getElem?_map, List.getElem?_eq_getElem hlt, Option.map_some, Option.some_inj] at hleaf
    have hcount_lt := (presentSymbols freq)[e.index].2.isLt
    rw [← hleaf, hweight]
    exact Nat.mod_eq_of_lt (by omega)

/-- Whatever arena holds the nodes of a BUILD, they are a partial tree in it. -/
theorem partialTree_buildTree {A : Vector Node 511} {freq : Vector Word 256} (hA : Holds A (buildTree freq).2) :
    PartialTree A (presentCount freq) (buildTree freq).1 (buildTree freq).2.length := by
  refine mergeLoop_keeps_of_leastTwo
    (P := fun pq nodes => Holds A nodes → PartialTree A (presentCount freq) pq nodes.length) ?_ _ ?_ hA
  · intro pq nodes a b rest ih hleast hnodes
    obtain ⟨hbelow, hnode⟩ := holds_concat hnodes
    rw [List.length_append, List.length_singleton]
    exact partialTree_merge (ih hbelow) hleast hnode
  · intro hleaves
    rw [List.length_map, presentSymbols_length]
    exact partialTree_seed hleaves

theorem partialTree_buildWork (s : State) :
    PartialTree (buildWork s).node (presentCount s.freq) (buildTree s.freq).1 (buildTree s.freq).2.length :=
  partialTree_buildTree fun _ hn => buildWork_node s hn

/-! ## The root -/

/-- The loop ends with at most one live entry (42_tree_builder.md R184, FINISH). -/
theorem buildTree_live_length_le (freq : Vector Word 256) : (buildTree freq).1.length ≤ 1 := by
  by_cases h : presentSymbols freq = []
  · simp [buildTree_of_no_symbol h]
  · exact (buildTree_lengths h).1.le

theorem eq_rootEntry_of_mem {pq : List PQEntry} (hone : pq.length ≤ 1) {e : PQEntry} (he : e ∈ pq) :
    e = rootEntry pq := by
  cases pq with
  | nil => cases he
  | cons r es =>
    obtain rfl : es = [] := by simpa using hone
    exact List.mem_singleton.1 he

theorem rootEntry_weight {pq : List PQEntry} (hone : pq.length ≤ 1) : (rootEntry pq).weight = liveWeight pq := by
  cases pq with
  | nil => rfl
  | cons r es =>
    obtain rfl : es = [] := by simpa using hone
    simp [rootEntry, liveWeight]

theorem buildTree_nodes_length (freq : Vector Word 256) :
    (buildTree freq).2.length = 2 * presentCount freq - 1 := by
  rw [← presentSymbols_length]
  by_cases h : presentSymbols freq = []
  · simp [buildTree_of_no_symbol h, h]
  · have := (buildTree_lengths h).2
    omega

theorem buildTree_live_eq_nil {freq : Vector Word 256} : (buildTree freq).1 = [] ↔ presentCount freq = 0 := by
  rw [← presentSymbols_length]
  by_cases h : presentSymbols freq = []
  · simp [buildTree_of_no_symbol h, h]
  · have hone := (buildTree_lengths h).1
    refine iff_of_false (fun hnil => ?_) (by simpa using h)
    simp [hnil] at hone

/-- The last node placed has no parent, since children are smaller, so it is the one left live. -/
theorem PartialTree.last_live {A : Vector Node 511} {k n : Nat} {pq : List PQEntry} (h : PartialTree A k pq (n + 1)) :
    n ∈ pq.map PQEntry.index :=
  (h.live_iff n).2 ⟨Nat.lt_succ_self n, fun n' hk hn' hchild =>
    absurd ((h.merges n' hk hn').child_lt hchild) (by omega)⟩

theorem buildTree_root_index (s : State) :
    (rootEntry (buildTree s.freq).1).index = 2 * presentCount s.freq - 2 := by
  have htree := partialTree_buildWork s
  have hlength := buildTree_nodes_length s.freq
  obtain hzero | hpos := Nat.eq_zero_or_pos (presentCount s.freq)
  · rw [buildTree_live_eq_nil.2 hzero, hzero]
    rfl
  · rw [show (buildTree s.freq).2.length = 2 * presentCount s.freq - 2 + 1 by omega] at htree
    obtain ⟨e, he, hindex⟩ := List.mem_map.1 htree.last_live
    rw [← eq_rootEntry_of_mem (buildTree_live_length_le s.freq) he, hindex]

/-- Every node below the root is a child: only the root is live. -/
theorem buildWork_has_parent (s : State) {m : Nat} (hm : m < (rootEntry (buildTree s.freq).1).index) :
    ∃ n, presentCount s.freq ≤ n ∧ n < (buildTree s.freq).2.length ∧ ChildOf (buildWork s).node m n := by
  by_contra hnone
  have hroot := buildTree_root_index s
  have hlength := buildTree_nodes_length s.freq
  have hlive := ((partialTree_buildWork s).live_iff m).2
    ⟨by omega, fun n hk hn hchild => hnone ⟨n, hk, hn, hchild⟩⟩
  obtain ⟨e, he, rfl⟩ := List.mem_map.1 hlive
  rw [← eq_rootEntry_of_mem (buildTree_live_length_le s.freq) he] at hm
  exact hm.false

/-- Settles O35: the nodes of a BUILD are a partial tree in which only the root is live. -/
theorem buildMergesInternalNodes : Obligations.BuildMergesInternalNodes := by
  intro s t hexec
  rw [eq_of_exec_build hexec, complete_node, complete_nodeCnt, complete_root, buildWork_nodeCnt, buildWork_root]
  have htree := partialTree_buildWork s
  refine ⟨fun n hk hn => ?_, fun m hm => ?_⟩
  · have h := htree.merges n hk hn
    exact ⟨h.internal, h.symbol, h.left_lt, h.right_lt, h.weight, h.ordered, h.least⟩
  · obtain ⟨n, hk, hn, hchild⟩ := buildWork_has_parent s hm
    exact ⟨n, ⟨hk, hn, hchild⟩, fun n' hk' hn' hchild' => htree.oneParent m n' n hk' hn' hk hn hchild' hchild⟩

/-! ## The counts -/

/-- An entry above the last one written reads as before. -/
theorem arenaGet_arenaWrite_above (arena : Vector Node 511) {k : Nat} (nodes : List Node) {n : Nat}
    (hn : k + nodes.length ≤ n) : arenaGet (arenaWrite arena k nodes) n = arenaGet arena n := by
  induction nodes generalizing arena k with
  | nil => rfl
  | cons nd nds ih =>
    rw [List.length_cons] at hn
    rw [arenaWrite, ih _ (by omega)]
    obtain hk | hk := Nat.lt_or_ge k 511
    · rw [arenaGet_setIfInBounds _ _ _ _ hk, if_neg (by omega)]
    · rw [Vector.setIfInBounds_eq_of_size_le hk]

theorem buildWork_rootW_eq_totalCount (s : State) : (buildWork s).rootW.toNat = totalCount s.freq := by
  rw [buildWork_rootW, rootEntry_weight (buildTree_live_length_le s.freq), buildTree_liveWeight, liveWeight_seedQueue]

theorem buildWork_rootValid_iff (s : State) : (buildWork s).rootValid = true ↔ presentCount s.freq ≠ 0 := by
  rw [Ne, ← buildTree_live_eq_nil]
  simp [buildWork]

/-- Settles O33: the merges leave one entry, whose node is the last placed and whose weight is that of the leaves. -/
theorem buildCountsNodesAndWeighsRoot : Obligations.BuildCountsNodesAndWeighsRoot := by
  refine fun s => ⟨_, exec_build s, rfl, ?_, ?_, buildWork_rootW_eq_totalCount s, buildWork_rootValid_iff s,
    fun n hn => ?_⟩
  · rw [complete_nodeCnt, buildWork_nodeCnt, buildTree_nodes_length]
  · rw [complete_root, buildWork_root, buildTree_root_index]
  · rw [complete_nodeCnt, buildWork_nodeCnt] at hn
    exact arenaGet_arenaWrite_above s.node _ (by rwa [Nat.zero_add])

end Sys2Proof.Machine
end

section
/-! PROOFS. The code table ASSIGN writes: what a list of codes gives as a table, and when no code begins another
(43_code_assigner.md R201, R204; O36). -/

namespace Sys2Proof.Machine

/-! ## ASSIGN on a current tree, and without one -/

/-- The codes ASSIGN gives on a current tree; none without a root (43_code_assigner.md R201). -/
def currentCodes (s : State) : List (Symbol × BitStr) :=
  if s.rootValid then treeCodes s.node s.root.toNat else []

/-- The table ASSIGN writes on a current tree. -/
def assignedTable (s : State) : Vector CodeEntry 256 := writeCodes emptyCodeTable (currentCodes s)

theorem exec_assign_current {s : State} (hbuilt : s.treeBuilt = true) :
    exec .assign s = .next (complete { s with code := assignedTable s }) := by
  rw [exec_eq_finish, commandBody, assignBody, hbuilt, assignedTable, currentCodes]
  cases s.rootValid <;> rfl

theorem exec_assign_stale {s : State} (hstale : s.treeBuilt = false) : RaisesOnly (exec .assign s) s .seq 0 := by
  rw [exec_eq_finish, commandBody, assignBody, hstale]
  rfl

theorem treeBuilt_of_freqBody_done {s t : State} (h : freqBody s = .done t) : t.treeBuilt = false := by
  rw [freqBody] at h
  split at h
  · cases h
  · split at h
    · next stop _ => cases stop <;> cases h
    · cases h
      rfl

/-- Settles O36: an error is never the code 0, so that a FREQ without one has cleared TREE_BUILT, as CLEAR always does. -/
theorem assignNeedsCurrentTree : Obligations.AssignNeedsCurrentTree := by
  refine ⟨fun s => exec_assign_stale, fun s t hexec hsuccess => exec_assign_stale ?_, fun s t hexec => exec_assign_stale ?_⟩
  · rw [exec_eq_finish] at hexec
    obtain ⟨u, hbody, rfl⟩ | ⟨u, e, n, -, rfl⟩ := finish_eq_next hexec
    · exact (complete_treeBuilt u).trans (treeBuilt_of_freqBody_done hbody)
    · exact absurd hsuccess (errCode_ne_zero e)
  · cases hexec
    rfl

/-! ## The table of a list of codes -/

theorem tableGet_writeCodes_of_not_mem {codes : List (Symbol × BitStr)} {sym : Symbol}
    (h : sym ∉ codes.map Prod.fst) (table : Vector CodeEntry 256) :
    tableGet (writeCodes table codes) sym = tableGet table sym := by
  induction codes generalizing table with
  | nil => rfl
  | cons x codes ih =>
    rw [List.map_cons, List.mem_cons, not_or] at h
    exact (ih h.2 _).trans (tableGet_set_other _ _ h.1)

/-- With one code per symbol each symbol of the list gets its own. -/
theorem tableGet_writeCodes_of_mem {codes : List (Symbol × BitStr)} (hnodup : (codes.map Prod.fst).Nodup)
    {x : Symbol × BitStr} (hx : x ∈ codes) (table : Vector CodeEntry 256) :
    tableGet (writeCodes table codes) x.1 = .ofBits x.2 := by
  induction codes generalizing table with
  | nil => cases hx
  | cons y codes ih =>
    rw [List.map_cons, List.nodup_cons] at hnodup
    obtain rfl | hx := List.mem_cons.1 hx
    · exact (tableGet_writeCodes_of_not_mem hnodup.1 _).trans (tableGet_set_same ..)
    · exact ih hnodup.2 hx _

/-! ## A code as an entry -/

theorem bitsVal_concat (c : BitStr) (b : Bool) : bitsVal (c ++ [b]) = pushBit (bitsVal c) b := by
  rw [bitsVal, List.foldl_append]
  rfl

theorem bitsVal_lt (c : BitStr) : bitsVal c < 2 ^ c.length := by
  induction c using List.reverseRecOn with
  | nil => decide
  | append_singleton c b ih =>
    have hb := Bool.toNat_le b
    rw [bitsVal_concat, pushBit, List.length_append, List.length_singleton, Nat.pow_succ]
    omega

theorem bitsOf_pushBit (len v : Nat) (b : Bool) : bitsOf (len + 1) (pushBit v b) = bitsOf len v ++ [b] := by
  have hb : b.toNat < 2 ^ 1 := Bool.toNat_lt b
  rw [bitsOf, List.range_succ, List.map_append, List.map_singleton, bitsOf]
  congr 1
  · refine List.map_congr_left fun i hi => ?_
    rw [List.mem_range] at hi
    rw [show len + 1 - 1 - i = len - 1 - i + 1 by omega, pushBit, Nat.testBit_succ]
    congr 1
    omega
  · cases b <;> simp [pushBit, Nat.testBit_zero]

theorem bitsOf_bitsVal (c : BitStr) : bitsOf c.length (bitsVal c) = c := by
  induction c using List.reverseRecOn with
  | nil => rfl
  | append_singleton c b ih =>
    rw [List.length_append, List.length_singleton, bitsVal_concat, bitsOf_pushBit, ih]

theorem ofBits_len {c : BitStr} (h : c.length ≤ 255) : (CodeEntry.ofBits c).len.toNat = c.length :=
  Nat.mod_eq_of_lt (Nat.lt_succ_of_le h)

/-- A code of at most 255 bits is the effective code of its entry (10_state.md R56). -/
theorem ofBits_effective {c : BitStr} (h : c.length ≤ 255) : (CodeEntry.ofBits c).effective = c := by
  have hbits : (CodeEntry.ofBits c).bits.toNat = bitsVal c :=
    Nat.mod_eq_of_lt ((bitsVal_lt c).trans (Nat.pow_lt_pow_right (by decide) (by omega)))
  rw [CodeEntry.effective, ofBits_len h, hbits, bitsOf_bitsVal]

/-! ## Lists that are a code -/

/-- One code of 1 to 255 bits for each symbol of the list, none the beginning of another's (43_code_assigner.md
R204). -/
structure PrefixCode (codes : List (Symbol × BitStr)) : Prop where
  nodup : (codes.map Prod.fst).Nodup
  length : ∀ x ∈ codes, 1 ≤ x.2.length ∧ x.2.length ≤ 255
  prefixFree : ∀ x ∈ codes, ∀ y ∈ codes, x.2 <+: y.2 → x = y

theorem prefixCode_nil : PrefixCode [] := ⟨List.nodup_nil, by simp, by simp⟩

theorem prefixCode_singleton {x : Symbol × BitStr} (h : 1 ≤ x.2.length ∧ x.2.length ≤ 255) : PrefixCode [x] :=
  ⟨List.nodup_singleton _, by simpa using h, by simp⟩

/-- An entry's share of the code space, in units of 2^−255 (43_code_assigner.md R204). -/
def codeShare (e : CodeEntry) : Nat := if e.valid then 2 ^ (255 - e.len.toNat) else 0

theorem codeShare_ofBits {c : BitStr} (h : c.length ≤ 255) : codeShare (.ofBits c) = 2 ^ (255 - c.length) := by
  rw [codeShare, ofBits_len h]
  rfl

section
variable {codes : List (Symbol × BitStr)} (h : PrefixCode codes)
include h

/-- The entry of a symbol is its code's, or empty. -/
theorem PrefixCode.entry (sym : Symbol) :
    (∃ c, (sym, c) ∈ codes ∧ tableGet (writeCodes emptyCodeTable codes) sym = .ofBits c) ∨
    (sym ∉ codes.map Prod.fst ∧ tableGet (writeCodes emptyCodeTable codes) sym = .empty) := by
  by_cases hsym : sym ∈ codes.map Prod.fst
  · obtain ⟨⟨_, c⟩, hx, rfl⟩ := List.mem_map.1 hsym
    exact .inl ⟨c, hx, tableGet_writeCodes_of_mem h.nodup hx _⟩
  · exact .inr ⟨hsym, (tableGet_writeCodes_of_not_mem hsym _).trans (tableGet_empty sym)⟩

/-- A valid entry is that of a code of the list. -/
theorem PrefixCode.code_of_valid {sym : Symbol} (hvalid : (tableGet (writeCodes emptyCodeTable codes) sym).valid = true) :
    ∃ c, (sym, c) ∈ codes ∧ tableGet (writeCodes emptyCodeTable codes) sym = .ofBits c := by
  obtain hcode | ⟨-, hempty⟩ := h.entry sym
  · exact hcode
  · rw [hempty] at hvalid
    cases hvalid

theorem PrefixCode.valid_iff (sym : Symbol) :
    (tableGet (writeCodes emptyCodeTable codes) sym).valid = true ↔ sym ∈ codes.map Prod.fst := by
  obtain ⟨c, hc, hentry⟩ | ⟨hsym, hentry⟩ := h.entry sym
  · rw [hentry]
    exact iff_of_true rfl (List.mem_map_of_mem hc)
  · rw [hentry]
    exact iff_of_false Bool.false_ne_true hsym

theorem PrefixCode.table_length {sym : Symbol} (hvalid : (tableGet (writeCodes emptyCodeTable codes) sym).valid = true) :
    1 ≤ (tableGet (writeCodes emptyCodeTable codes) sym).len.toNat ∧
      (tableGet (writeCodes emptyCodeTable codes) sym).len.toNat ≤ 255 := by
  obtain ⟨c, hc, hentry⟩ := h.code_of_valid hvalid
  rw [hentry, ofBits_len (h.length _ hc).2]
  exact h.length _ hc

theorem PrefixCode.table_prefixFree : PrefixFree (writeCodes emptyCodeTable codes) := by
  intro a b ha hb hne hprefix
  obtain ⟨c, hc, hentry⟩ := h.code_of_valid ha
  obtain ⟨d, hd, hentry'⟩ := h.code_of_valid hb
  rw [hentry, hentry', ofBits_effective (h.length _ hc).2, ofBits_effective (h.length _ hd).2] at hprefix
  exact hne (congrArg Prod.fst (h.prefixFree _ hc _ hd hprefix))

/-- The list's share of the code space is the table's: the other symbols' entries are not valid. -/
theorem PrefixCode.codeSpace_eq :
    codeSpace (writeCodes emptyCodeTable codes) = (codes.map fun x => 2 ^ (255 - x.2.length)).sum := by
  have hshare (x : Symbol × BitStr) (hx : x ∈ codes) :
      codeShare (tableGet (writeCodes emptyCodeTable codes) x.1) = 2 ^ (255 - x.2.length) := by
    rw [tableGet_writeCodes_of_mem h.nodup hx, codeShare_ofBits (h.length x hx).2]
  have hother (sym : Symbol) (hsym : sym ∉ (codes.map Prod.fst).toFinset) :
      codeShare (tableGet (writeCodes emptyCodeTable codes) sym) = 0 := by
    rw [List.mem_toFinset] at hsym
    rw [tableGet_writeCodes_of_not_mem hsym, tableGet_empty]
    rfl
  calc codeSpace (writeCodes emptyCodeTable codes)
    _ = (allSymbols.map fun sym => codeShare (tableGet (writeCodes emptyCodeTable codes) sym)).sum := by
      rw [codeSpace, toList_eq_map_tableGet, List.map_map]
      rfl
    _ = ((codes.map Prod.fst).map fun sym => codeShare (tableGet (writeCodes emptyCodeTable codes) sym)).sum := by
      rw [← List.sum_toFinset _ allSymbols_nodup, ← List.sum_toFinset _ h.nodup]
      exact (Finset.sum_subset (fun sym _ => List.mem_toFinset.2 (mem_allSymbols sym)) fun sym _ => hother sym).symm
    _ = (codes.map fun x => 2 ^ (255 - x.2.length)).sum := by
      rw [List.map_map]
      exact congrArg List.sum (List.map_congr_left hshare)

end

end Sys2Proof.Machine
end

section
/-! PROOFS. Paths and the leaf walk of ASSIGN: in a tree the walk finds each leaf by its one path, no leaf's
path begins another's, and together they fill the code space (43_code_assigner.md R200 to R204). -/

namespace Sys2Proof.Machine

/-! ## Paths -/

/-- The child a path's next bit leads to: left for 0, right for 1 (43_code_assigner.md R200). -/
def childAt (A : Vector Node 511) (n : Nat) (b : Bool) : Nat :=
  if b then (arenaGet A n).right.toNat else (arenaGet A n).left.toNat

theorem childAt_inj {A : Vector Node 511} {n : Nat} {b b' : Bool}
    (hne : (arenaGet A n).left.toNat ≠ (arenaGet A n).right.toNat) (h : childAt A n b = childAt A n b') : b = b' := by
  match b, b' with
  | false, false | true, true => rfl
  | false, true => exact absurd h hne
  | true, false => exact absurd h.symm hne

theorem childOf_iff {A : Vector Node 511} {m n : Nat} : ChildOf A m n ↔ ∃ b, childAt A n b = m := by
  simp [ChildOf, childAt]

theorem PathTo.step {A : Vector Node 511} {root n : Nat} {c : BitStr} (h : PathTo A root n c)
    (hint : (arenaGet A n).internal = true) : ∀ b, PathTo A root (childAt A n b) (c ++ [b])
  | false => h.left hint
  | true => h.right hint

/-- Induction along a path: the root, and one step to either child. -/
theorem pathTo_induction {A : Vector Node 511} {root : Nat} {P : ∀ m c, PathTo A root m c → Prop} (here : P root [] .here)
    (step : ∀ n c b (h : PathTo A root n c) (hint : (arenaGet A n).internal = true), P n c h →
      P (childAt A n b) (c ++ [b]) (h.step hint b))
    {m : Nat} {c : BitStr} (h : PathTo A root m c) : P m c h := by
  induction h with
  | here => exact here
  | left h hint ih => exact step _ _ false h hint ih
  | right h hint ih => exact step _ _ true h hint ih

/-- A path is empty, or a last step from an internal node. -/
theorem pathTo_cases {A : Vector Node 511} {root m : Nat} {c : BitStr} (h : PathTo A root m c) :
    (m = root ∧ c = []) ∨
    ∃ n e b, PathTo A root n e ∧ (arenaGet A n).internal = true ∧ m = childAt A n b ∧ c = e ++ [b] := by
  induction h using pathTo_induction with
  | here => exact .inl ⟨rfl, rfl⟩
  | step n c b h hint _ => exact .inr ⟨n, c, b, h, hint, rfl, rfl⟩

/-- A path leads to one node. -/
theorem pathTo_node_unique {A : Vector Node 511} {root m m' : Nat} {c : BitStr} (h : PathTo A root m c)
    (h' : PathTo A root m' c) : m = m' := by
  induction h using pathTo_induction generalizing m' with
  | here =>
    obtain ⟨rfl, -⟩ | ⟨n, e, b, -, -, -, hc⟩ := pathTo_cases h'
    · rfl
    · simp at hc
  | step n c b _ _ ih =>
    obtain ⟨-, hc⟩ | ⟨n', c', b', hn', -, rfl, hc⟩ := pathTo_cases h'
    · simp at hc
    · obtain ⟨rfl, rfl⟩ := List.append_singleton_inj.1 hc
      rw [ih hn']

/-- A proper beginning of a path leads to an internal node. -/
theorem pathTo_of_prefix {A : Vector Node 511} {root m : Nat} {c d : BitStr} (h : PathTo A root m d) (hprefix : c <+: d) :
    c = d ∨ ∃ n, PathTo A root n c ∧ (arenaGet A n).internal = true := by
  induction h using pathTo_induction with
  | here => exact .inl (List.prefix_nil.1 hprefix)
  | step n d b hn hint ih =>
    obtain rfl | hprefix := List.prefix_concat_iff.1 hprefix
    · exact .inl rfl
    · obtain rfl | hproper := ih hprefix
      · exact .inr ⟨n, hn, hint⟩
      · exact .inr hproper

/-- No leaf's path begins another's. -/
theorem leaf_path_prefixFree {A : Vector Node 511} {root m m' : Nat} {c d : BitStr} (h : PathTo A root m c)
    (hleaf : (arenaGet A m).internal = false) (h' : PathTo A root m' d) (hprefix : c <+: d) : m = m' ∧ c = d := by
  obtain rfl | ⟨n, hn, hint⟩ := pathTo_of_prefix h' hprefix
  · exact ⟨pathTo_node_unique h h', rfl⟩
  · rw [pathTo_node_unique hn h, hleaf] at hint
    cases hint

/-! ## The leaf walk -/

theorem treeCodes_of_leaf {A : Vector Node 511} {root : Nat} (hroot : (arenaGet A root).internal = false) :
    treeCodes A root = [((arenaGet A root).symbol, [false])] := by
  rw [treeCodes, hroot]
  rfl

theorem treeCodes_of_internal {A : Vector Node 511} {root : Nat} (hroot : (arenaGet A root).internal = true) :
    treeCodes A root = leafPaths A 256 root [] := by
  rw [treeCodes, if_pos hroot]

section
variable {A : Vector Node 511} {root : Nat}

theorem leafPaths_leaf {m : Nat} (hleaf : (arenaGet A m).internal = false) (depth : Nat) (c : BitStr) :
    leafPaths A (depth + 1) m c = [((arenaGet A m).symbol, c)] := by
  rw [leafPaths, hleaf]
  rfl

theorem leafPaths_internal {m : Nat} (hint : (arenaGet A m).internal = true) (depth : Nat) (c : BitStr) :
    leafPaths A (depth + 1) m c =
      leafPaths A depth (childAt A m false) (c ++ [false]) ++ leafPaths A depth (childAt A m true) (c ++ [true]) := by
  rw [leafPaths, if_pos hint]
  rfl

/-- Every pair of the walk is the symbol and the path of a leaf. -/
theorem leaf_of_mem_leafPaths {depth m : Nat} {c : BitStr} {x : Symbol × BitStr} (hx : x ∈ leafPaths A depth m c)
    (h : PathTo A root m c) :
    ∃ n, PathTo A root n x.2 ∧ (arenaGet A n).internal = false ∧ (arenaGet A n).symbol = x.1 := by
  induction depth generalizing m c with
  | zero => cases hx
  | succ depth ih =>
    cases hint : (arenaGet A m).internal with
    | false =>
      rw [leafPaths_leaf hint, List.mem_singleton] at hx
      exact hx ▸ ⟨m, h, hint, rfl⟩
    | true =>
      rw [leafPaths_internal hint, List.mem_append] at hx
      exact hx.elim (fun hx => ih hx (h.step hint false)) fun hx => ih hx (h.step hint true)

theorem prefix_of_mem_leafPaths {depth m : Nat} {c : BitStr} {x : Symbol × BitStr} (hx : x ∈ leafPaths A depth m c) :
    c <+: x.2 := by
  induction depth generalizing m c with
  | zero => cases hx
  | succ depth ih =>
    cases hint : (arenaGet A m).internal with
    | false =>
      rw [leafPaths_leaf hint, List.mem_singleton] at hx
      exact hx ▸ List.prefix_refl c
    | true =>
      rw [leafPaths_internal hint, List.mem_append] at hx
      exact hx.elim (fun hx => (List.prefix_append ..).trans (ih hx)) fun hx => (List.prefix_append ..).trans (ih hx)

/-- The walk lists nothing twice: what it finds left and right of a node differs in that step's bit. -/
theorem leafPaths_nodup (A : Vector Node 511) (depth m : Nat) (c : BitStr) : (leafPaths A depth m c).Nodup := by
  induction depth generalizing m c with
  | zero => exact List.nodup_nil
  | succ depth ih =>
    cases hint : (arenaGet A m).internal with
    | false =>
      rw [leafPaths_leaf hint]
      exact List.nodup_singleton _
    | true =>
      rw [leafPaths_internal hint]
      refine (ih _ _).append (ih _ _) fun x hleft hright => ?_
      have heq := (List.prefix_of_prefix_length_le (prefix_of_mem_leafPaths hleft) (prefix_of_mem_leafPaths hright)
        (by simp)).eq_of_length (by simp)
      simp at heq

/-- The walk from the root comes through every node it is deep enough for. -/
theorem leafPaths_subset_of_path {depth m : Nat} {c : BitStr} (h : PathTo A root m c) :
    leafPaths A depth m c ⊆ leafPaths A (depth + c.length) root [] := by
  induction h using pathTo_induction generalizing depth with
  | here => exact List.Subset.refl _
  | step n c b _ hint ih =>
    have hchild : leafPaths A depth (childAt A n b) (c ++ [b]) ⊆ leafPaths A (depth + 1) n c := by
      rw [leafPaths_internal hint]
      cases b
      · exact List.subset_append_left ..
      · exact List.subset_append_right ..
    rw [List.length_append, List.length_singleton, Nat.add_comm c.length, ← Nat.add_assoc]
    exact List.Subset.trans hchild ih

variable (hbound : ∀ m c, PathTo A root m c → c.length ≤ 255)
include hbound

theorem mem_leafPaths_iff {x : Symbol × BitStr} :
    x ∈ leafPaths A 256 root [] ↔
      ∃ m, PathTo A root m x.2 ∧ (arenaGet A m).internal = false ∧ (arenaGet A m).symbol = x.1 := by
  refine ⟨fun hx => leaf_of_mem_leafPaths hx .here, ?_⟩
  rintro ⟨m, h, hleaf, hsym⟩
  have hlength := hbound m x.2 h
  have hsubset := leafPaths_subset_of_path (depth := 255 - x.2.length + 1) h
  rw [leafPaths_leaf hleaf, hsym, show 255 - x.2.length + 1 + x.2.length = 256 by omega] at hsubset
  exact hsubset List.mem_cons_self

/-- The leaves below a node share its part of the code space: each step halves it, and a path never runs out. -/
theorem sum_leafPaths {depth m : Nat} {c : BitStr} (h : PathTo A root m c) (hdepth : depth + c.length = 256) :
    ((leafPaths A depth m c).map fun x => 2 ^ (255 - x.2.length)).sum = 2 ^ (255 - c.length) := by
  have hlength := hbound m c h
  induction depth generalizing m c with
  | zero => omega
  | succ depth ih =>
    cases hint : (arenaGet A m).internal with
    | false => simp [leafPaths_leaf hint]
    | true =>
      have hchild (b : Bool) : ((leafPaths A depth (childAt A m b) (c ++ [b])).map fun x => 2 ^ (255 - x.2.length)).sum =
          2 ^ (254 - c.length) := by
        rw [ih (h.step hint b) (by simp; omega) (hbound _ _ (h.step hint b)), List.length_append, List.length_singleton,
          Nat.sub_add_eq, Nat.sub_right_comm]
      have hroom : (c ++ [true]).length ≤ 255 := hbound _ _ (h.step hint true)
      rw [List.length_append, List.length_singleton] at hroom
      rw [leafPaths_internal hint, List.map_append, List.sum_append, hchild, hchild,
        show 255 - c.length = 254 - c.length + 1 by omega, Nat.pow_succ]
      omega

end

/-! ## Code trees -/

/-- The nodes 0 to `root` are a tree: `k` leaves and then internal nodes above smaller ones, each node but the root the child
of exactly one (42_tree_builder.md R186, R190). -/
structure CodeTree (A : Vector Node 511) (k root : Nat) : Prop where
  leaves_le : k ≤ 256
  size : root + 2 = 2 * k
  internal_iff : ∀ n ≤ root, (arenaGet A n).internal = true ↔ k ≤ n
  child_lt : ∀ n b, k ≤ n → n ≤ root → childAt A n b < n
  child_inj : ∀ n n' b b', k ≤ n → n ≤ root → k ≤ n' → n' ≤ root → childAt A n b = childAt A n' b' → n = n' ∧ b = b'
  has_parent : ∀ m < root, ∃ n b, k ≤ n ∧ n ≤ root ∧ childAt A n b = m

section
variable {A : Vector Node 511} {k root : Nat} (htree : CodeTree A k root)
include htree

/-- Each step goes to a smaller node, and all but the last node are among the internal ones. -/
theorem CodeTree.path_bound {m : Nat} {c : BitStr} (h : PathTo A root m c) :
    m + c.length ≤ root ∧ c.length + k ≤ root + 1 := by
  induction h using pathTo_induction with
  | here =>
    have hsize := htree.size
    have hk := htree.leaves_le
    simp
    omega
  | step n c b _ hint ih =>
    have hk : k ≤ n := (htree.internal_iff n (by omega)).1 hint
    have hlt := htree.child_lt n b hk (by omega)
    rw [List.length_append, List.length_singleton]
    omega

theorem CodeTree.path_length_le (m : Nat) (c : BitStr) (h : PathTo A root m c) : c.length ≤ 255 := by
  have hpath := htree.path_bound h
  have hsize := htree.size
  have hk := htree.leaves_le
  omega

theorem CodeTree.node_le {m : Nat} {c : BitStr} (h : PathTo A root m c) : m ≤ root := by
  have hpath := htree.path_bound h
  omega

theorem CodeTree.le_of_internal {n : Nat} {c : BitStr} (h : PathTo A root n c) (hint : (arenaGet A n).internal = true) :
    k ≤ n ∧ n ≤ root :=
  ⟨(htree.internal_iff n (htree.node_le h)).1 hint, htree.node_le h⟩

/-- A node has one path, since each step back goes to its one parent. -/
theorem CodeTree.path_unique {m : Nat} {c c' : BitStr} (h : PathTo A root m c) (h' : PathTo A root m c') : c = c' := by
  induction h using pathTo_induction generalizing c' with
  | here =>
    obtain ⟨-, rfl⟩ | ⟨n, e, b, hn, hint, hroot, -⟩ := pathTo_cases h'
    · rfl
    · obtain ⟨hk, hle⟩ := htree.le_of_internal hn hint
      have hlt := htree.child_lt n b hk hle
      omega
  | step n c b hn hint ih =>
    obtain ⟨hk, hle⟩ := htree.le_of_internal hn hint
    obtain ⟨hroot, -⟩ | ⟨n', e, b', hn', hint', heq, rfl⟩ := pathTo_cases h'
    · have hlt := htree.child_lt n b hk hle
      omega
    · obtain ⟨hk', hle'⟩ := htree.le_of_internal hn' hint'
      obtain ⟨rfl, rfl⟩ := htree.child_inj n n' b b' hk hle hk' hle' heq
      rw [ih hn']

/-- Every node has a path: its parent's, and one more step. -/
theorem CodeTree.exists_path {m : Nat} (hm : m ≤ root) : ∃ c, PathTo A root m c := by
  induction hd : root - m using Nat.strongRecOn generalizing m with
  | _ d ih =>
    obtain rfl | hlt := Nat.eq_or_lt_of_le hm
    · exact ⟨[], .here⟩
    · obtain ⟨n, b, hk, hn, rfl⟩ := htree.has_parent m hlt
      have hchild := htree.child_lt n b hk hn
      obtain ⟨c, hc⟩ := ih (root - n) (by omega) hn rfl
      exact ⟨c ++ [b], hc.step ((htree.internal_iff n hn).2 hk) b⟩

theorem CodeTree.leaf_iff {m : Nat} (hm : m ≤ root) : (arenaGet A m).internal = false ↔ m < k := by
  rw [← Bool.not_eq_true, htree.internal_iff m hm, Nat.not_le]

theorem CodeTree.leaf_le_root {m : Nat} (hm : m < k) : m ≤ root := by
  have hsize := htree.size
  omega

/-- The walk's codes are the leaves' symbols with their paths. -/
theorem CodeTree.mem_leafPaths_iff {x : Symbol × BitStr} :
    x ∈ leafPaths A 256 root [] ↔ ∃ m < k, PathTo A root m x.2 ∧ (arenaGet A m).symbol = x.1 := by
  rw [Machine.mem_leafPaths_iff htree.path_length_le]
  refine exists_congr fun m => ⟨fun ⟨h, hleaf, hsym⟩ => ⟨(htree.leaf_iff (htree.node_le h)).1 hleaf, h, hsym⟩, ?_⟩
  exact fun ⟨hm, h, hsym⟩ => ⟨h, (htree.leaf_iff (htree.leaf_le_root hm)).2 hm, hsym⟩

/-- A root leaf is the only node. -/
theorem CodeTree.root_leaf_iff : (arenaGet A root).internal = false ↔ k = 1 := by
  rw [htree.leaf_iff le_rfl]
  have hsize := htree.size
  omega

/-- Each leaf's symbol has a code, and no other. -/
theorem CodeTree.mem_symbols_iff (sym : Symbol) :
    sym ∈ (treeCodes A root).map Prod.fst ↔ ∃ m < k, (arenaGet A m).symbol = sym := by
  cases hroot : (arenaGet A root).internal with
  | false =>
    have hsize := htree.size
    obtain rfl := htree.root_leaf_iff.1 hroot
    obtain rfl : root = 0 := by omega
    simp [treeCodes_of_leaf hroot, eq_comm]
  | true =>
    rw [treeCodes_of_internal hroot, List.mem_map]
    constructor
    · rintro ⟨x, hx, rfl⟩
      obtain ⟨m, hm, -, hsym⟩ := htree.mem_leafPaths_iff.1 hx
      exact ⟨m, hm, hsym⟩
    · rintro ⟨m, hm, hsym⟩
      obtain ⟨c, hc⟩ := htree.exists_path (htree.leaf_le_root hm)
      exact ⟨(sym, c), htree.mem_leafPaths_iff.2 ⟨m, hm, hc, hsym⟩, rfl⟩

/-- Two or more leaves' paths fill the code space, and a single leaf's code half of it (43_code_assigner.md R204). -/
theorem CodeTree.sum_treeCodes :
    ((treeCodes A root).map fun x => 2 ^ (255 - x.2.length)).sum = if k = 1 then 2 ^ 254 else 2 ^ 255 := by
  cases hroot : (arenaGet A root).internal with
  | false =>
    rw [treeCodes_of_leaf hroot, if_pos (htree.root_leaf_iff.1 hroot), List.map_singleton, List.sum_singleton]
    rfl
  | true =>
    have hk : k ≠ 1 := fun hk => by simp [htree.root_leaf_iff.2 hk] at hroot
    rw [treeCodes_of_internal hroot, if_neg hk, sum_leafPaths htree.path_length_le .here rfl]
    rfl

variable (hinj : ∀ m < k, ∀ m' < k, (arenaGet A m).symbol = (arenaGet A m').symbol → m = m')
include hinj

theorem CodeTree.prefixCode : PrefixCode (treeCodes A root) := by
  cases hroot : (arenaGet A root).internal with
  | false =>
    rw [treeCodes_of_leaf hroot]
    exact prefixCode_singleton (by simp)
  | true =>
    refine ⟨?_, fun x hx => treeCodes_length hx, ?_⟩ <;> rw [treeCodes_of_internal hroot]
    · refine (leafPaths_nodup A 256 root []).map_on fun x hx y hy hsym => ?_
      obtain ⟨m, hm, h, hx⟩ := htree.mem_leafPaths_iff.1 hx
      obtain ⟨m', hm', h', hy⟩ := htree.mem_leafPaths_iff.1 hy
      obtain rfl := hinj m hm m' hm' (by rw [hx, hy, hsym])
      exact Prod.ext hsym (htree.path_unique h h')
    · intro x hx y hy hprefix
      obtain ⟨m, hm, h, hx⟩ := htree.mem_leafPaths_iff.1 hx
      obtain ⟨m', -, h', hy⟩ := htree.mem_leafPaths_iff.1 hy
      obtain ⟨rfl, heq⟩ := leaf_path_prefixFree h ((htree.leaf_iff (htree.leaf_le_root hm)).2 hm) h' hprefix
      exact Prod.ext (hx.symm.trans hy) heq

end

end Sys2Proof.Machine
end

section
/-! PROOFS. ASSIGN on a current tree: the nodes BUILD made are such a tree, its leaves those of the present symbols
(43_code_assigner.md R200 to R204; O37, O38, O39). -/

namespace Sys2Proof.Machine

/-! ## The tree of a current state -/

theorem arena_ext {A B : Vector Node 511} (h : ∀ n, arenaGet A n = arenaGet B n) : A = B := by
  refine Vector.ext fun n hn => ?_
  simpa [arenaGet, hn] using h n

/-- A BUILD of a current tree changes nothing (10_state.md R52). -/
theorem buildWork_of_current {s : State} (h : TreeMatches s s.freq) (hbuilt : s.treeBuilt = true) : buildWork s = s := by
  obtain ⟨hcnt, hnodes, hroot, hrootW, hvalid⟩ := h
  have hnode : (buildWork s).node = s.node := by
    refine arena_ext fun n => ?_
    obtain hn | hn := Nat.lt_or_ge n (buildTree s.freq).2.length
    · exact Option.some_inj.1 ((buildWork_node s hn).symm.trans (hnodes n hn))
    · exact arenaGet_arenaWrite_above s.node _ (by rwa [Nat.zero_add])
  calc buildWork s
    _ = { s with
      node := (buildWork s).node, nodeCnt := (buildWork s).nodeCnt, root := (buildWork s).root
      rootW := (buildWork s).rootW, rootValid := (buildWork s).rootValid, treeBuilt := true } := rfl
    _ = s := by
      rw [hnode, BitVec.eq_of_toNat_eq ((buildWork_nodeCnt s).trans hcnt.symm),
        BitVec.eq_of_toNat_eq ((buildWork_root s).trans hroot.symm),
        BitVec.eq_of_toNat_eq ((buildWork_rootW s).trans hrootW.symm), ← hbuilt,
        show (buildWork s).rootValid = s.rootValid from hvalid.symm]

/-- The present symbols in ascending order. -/
theorem map_fst_presentSymbols (freq : Vector Word 256) :
    (presentSymbols freq).map Prod.fst = allSymbols.filter fun sym => tableGet freq sym != 0#32 := by
  rw [presentSymbols_eq_map, List.map_map]
  exact List.map_id _

theorem mem_map_fst_presentSymbols {freq : Vector Word 256} {sym : Symbol} :
    sym ∈ (presentSymbols freq).map Prod.fst ↔ tableGet freq sym ≠ 0#32 := by
  simp [map_fst_presentSymbols, mem_allSymbols]

theorem buildWork_leaf_getElem (s : State) {m : Nat} (hm : m < (presentSymbols s.freq).length) :
    arenaGet (buildWork s).node m = leafNode (presentSymbols s.freq)[m] :=
  buildWork_leaf s (List.getElem?_eq_getElem hm)

/-- BUILD's nodes are a code tree, where there is a symbol. -/
theorem buildWork_codeTree {s : State} (hpresent : presentCount s.freq ≠ 0) :
    CodeTree (buildWork s).node (presentCount s.freq) (buildWork s).root.toNat := by
  have htree := partialTree_buildWork s
  have hlength := buildTree_nodes_length s.freq
  have hroot : (buildWork s).root.toNat = 2 * presentCount s.freq - 2 := by rw [buildWork_root, buildTree_root_index]
  have hlt (n : Nat) (hn : n ≤ (buildWork s).root.toNat) : n < (buildTree s.freq).2.length := by omega
  have hchild (n : Nat) (b : Bool) : ChildOf (buildWork s).node (childAt (buildWork s).node n b) n :=
    childOf_iff.2 ⟨b, rfl⟩
  refine
    { leaves_le := presentSymbols_length s.freq ▸ presentSymbols_length_le s.freq
      size := by omega
      internal_iff := fun n hn => ⟨fun hint => ?_, fun hk => (htree.merges n hk (hlt n hn)).internal⟩
      child_lt := fun n b hk hn => (htree.merges n hk (hlt n hn)).child_lt (hchild n b)
      child_inj := fun n n' b b' hk hn hk' hn' heq => ?_
      has_parent := fun m hm => ?_ }
  · by_contra hk
    rw [buildWork_leaf_getElem s (by rw [presentSymbols_length]; omega)] at hint
    cases hint
  · obtain rfl : n = n' :=
      htree.oneParent _ n n' hk (hlt n hn) hk' (hlt n' hn') (hchild n b) (heq ▸ hchild n' b')
    have hordered := (htree.merges n hk (hlt n hn)).ordered
    exact ⟨rfl, childAt_inj (fun hsame => by rw [hsame] at hordered; omega) heq⟩
  · obtain ⟨n, hk, hn, hparent⟩ := buildWork_has_parent s (buildWork_root s ▸ hm)
    obtain ⟨b, rfl⟩ := childOf_iff.1 hparent
    exact ⟨n, b, hk, by omega, rfl⟩

/-- The leaves hold the present symbols, each one once. -/
theorem buildWork_leaf_symbols (s : State) :
    (∀ sym, freqAt s sym ≠ 0#32 ↔ ∃ m < presentCount s.freq, (arenaGet (buildWork s).node m).symbol = sym) ∧
    ∀ m < presentCount s.freq, ∀ m' < presentCount s.freq,
      (arenaGet (buildWork s).node m).symbol = (arenaGet (buildWork s).node m').symbol → m = m' := by
  have hsym (m : Nat) (hm : m < ((presentSymbols s.freq).map Prod.fst).length) :
      (arenaGet (buildWork s).node m).symbol = ((presentSymbols s.freq).map Prod.fst)[m] := by
    rw [buildWork_leaf_getElem s (by simpa using hm), List.getElem_map]
    rfl
  have hnodup : ((presentSymbols s.freq).map Prod.fst).Nodup :=
    map_fst_presentSymbols s.freq ▸ allSymbols_nodup.filter _
  rw [← presentSymbols_length, ← List.length_map (f := Prod.fst)]
  refine ⟨fun sym => ?_, fun m hm m' hm' heq => ?_⟩
  · rw [freqAt, ← mem_map_fst_presentSymbols, List.mem_iff_getElem]
    exact exists_congr fun m => ⟨fun ⟨hm, h⟩ => ⟨hm, (hsym m hm).trans h⟩, fun ⟨hm, h⟩ => ⟨hm, (hsym m hm).symm.trans h⟩⟩
  · rw [hsym m hm, hsym m' hm'] at heq
    exact hnodup.getElem_inj_iff.1 heq

/-! ## ASSIGN on a current tree -/

section
variable {s : State}

theorem currentCodes_of_root (hroot : s.rootValid = true) : currentCodes s = treeCodes s.node s.root.toNat := if_pos hroot

theorem currentCodes_of_no_root (hroot : s.rootValid = false) : currentCodes s = [] := by
  rw [currentCodes, hroot]
  rfl

/-- A symbol without a leaf has no code (43_code_assigner.md R201). -/
theorem assignedTable_of_no_leaf {sym : Symbol} (hroot : s.rootValid = true)
    (hint : (arenaGet s.node s.root.toNat).internal = true)
    (hnone : ∀ m c, PathTo s.node s.root.toNat m c → (arenaGet s.node m).internal = false →
      (arenaGet s.node m).symbol ≠ sym) : tableGet (assignedTable s) sym = .empty := by
  refine (tableGet_writeCodes_of_not_mem (fun hsym => ?_) _).trans (tableGet_empty sym)
  rw [currentCodes_of_root hroot, treeCodes_of_internal hint] at hsym
  obtain ⟨x, hx, rfl⟩ := List.mem_map.1 hsym
  obtain ⟨m, h, hleaf, heq⟩ := leaf_of_mem_leafPaths hx .here
  exact hnone m x.2 h hleaf heq

variable (hinv : s.Inv) (hbuilt : s.treeBuilt = true)
include hinv hbuilt

theorem current_buildWork : buildWork s = s := buildWork_of_current (hinv.treeCurrent hbuilt) hbuilt

theorem current_rootValid_iff : s.rootValid = true ↔ presentCount s.freq ≠ 0 := by
  simpa only [current_buildWork hinv hbuilt] using buildWork_rootValid_iff s

theorem current_codeTree (hroot : s.rootValid = true) : CodeTree s.node (presentCount s.freq) s.root.toNat := by
  simpa only [current_buildWork hinv hbuilt] using buildWork_codeTree ((current_rootValid_iff hinv hbuilt).1 hroot)

theorem current_leaf_symbols :
    (∀ sym, freqAt s sym ≠ 0#32 ↔ ∃ m < presentCount s.freq, (arenaGet s.node m).symbol = sym) ∧
    ∀ m < presentCount s.freq, ∀ m' < presentCount s.freq,
      (arenaGet s.node m).symbol = (arenaGet s.node m').symbol → m = m' := by
  simpa only [current_buildWork hinv hbuilt] using buildWork_leaf_symbols s

theorem currentCodes_prefixCode : PrefixCode (currentCodes s) := by
  cases hroot : s.rootValid with
  | false => exact currentCodes_of_no_root hroot ▸ prefixCode_nil
  | true =>
    rw [currentCodes_of_root hroot]
    exact (current_codeTree hinv hbuilt hroot).prefixCode (current_leaf_symbols hinv hbuilt).2

/-- Exactly the present symbols have a code (43_code_assigner.md R204). -/
theorem mem_currentCodes_symbols_iff (sym : Symbol) : sym ∈ (currentCodes s).map Prod.fst ↔ freqAt s sym ≠ 0#32 := by
  rw [(current_leaf_symbols hinv hbuilt).1]
  cases hroot : s.rootValid with
  | false =>
    have hnone : presentCount s.freq = 0 := by
      by_contra hpresent
      exact absurd ((current_rootValid_iff hinv hbuilt).2 hpresent) (Bool.eq_false_iff.1 hroot)
    simp [currentCodes_of_no_root hroot, hnone]
  | true =>
    rw [currentCodes_of_root hroot]
    exact (current_codeTree hinv hbuilt hroot).mem_symbols_iff sym

theorem assignedTable_valid_iff (sym : Symbol) :
    (tableGet (assignedTable s) sym).valid = true ↔ freqAt s sym ≠ 0#32 :=
  ((currentCodes_prefixCode hinv hbuilt).valid_iff sym).trans (mem_currentCodes_symbols_iff hinv hbuilt sym)

/-- NSYM counts the present symbols (10_state.md R53). -/
theorem nsym_assignedTable : nsym (assignedTable s) = presentCount s.freq := by
  rw [nsym_eq, ← presentSymbols_length, ← List.length_map (f := Prod.fst), map_fst_presentSymbols]
  congr 2
  funext sym
  rw [Bool.eq_iff_iff, assignedTable_valid_iff hinv hbuilt, bne_iff_ne]
  rfl

theorem codeSpace_assignedTable (hpresent : presentCount s.freq ≠ 0) :
    codeSpace (assignedTable s) = if presentCount s.freq = 1 then 2 ^ 254 else 2 ^ 255 := by
  have hroot := (current_rootValid_iff hinv hbuilt).2 hpresent
  rw [assignedTable, (currentCodes_prefixCode hinv hbuilt).codeSpace_eq, currentCodes_of_root hroot,
    (current_codeTree hinv hbuilt hroot).sum_treeCodes]

/-- A leaf's symbol has the leaf's path (43_code_assigner.md R201). -/
theorem assignedTable_of_leaf {m : Nat} {c : BitStr} (hroot : s.rootValid = true)
    (hint : (arenaGet s.node s.root.toNat).internal = true) (h : PathTo s.node s.root.toNat m c)
    (hleaf : (arenaGet s.node m).internal = false) :
    tableGet (assignedTable s) (arenaGet s.node m).symbol = .ofBits c := by
  refine tableGet_writeCodes_of_mem (x := (_, c)) (currentCodes_prefixCode hinv hbuilt).nodup ?_ _
  rw [currentCodes_of_root hroot, treeCodes_of_internal hint,
    mem_leafPaths_iff (current_codeTree hinv hbuilt hroot).path_length_le]
  exact ⟨m, h, hleaf, rfl⟩

end

/-- Settles O37: the walk finds each leaf by its one path, at most 255 steps down. -/
theorem assignWritesLeafPaths : Obligations.AssignWritesLeafPaths := by
  refine fun s hinv hbuilt => ⟨assignedTable s, exec_assign_current hbuilt, fun hroot sym => ?_, fun hroot hleaf => ?_,
    fun hroot hint => ⟨fun m c => assignedTable_of_leaf hinv hbuilt hroot hint,
      fun sym => assignedTable_of_no_leaf hroot hint⟩⟩
  · rw [assignedTable, currentCodes_of_no_root hroot]
    exact tableGet_empty sym
  · rw [assignedTable, currentCodes_of_root hroot, treeCodes_of_leaf hleaf]
    exact ⟨tableGet_set_same .., fun sym hsym => (tableGet_set_other _ _ hsym).trans (tableGet_empty sym)⟩

/-- Settles O38: no leaf's path begins another's, and the leaves hold the present symbols. -/
theorem assignedCodesArePrefixFree : Obligations.AssignedCodesArePrefixFree := by
  intro s hinv hbuilt
  have hcodes := currentCodes_prefixCode hinv hbuilt
  exact ⟨_, exec_assign_current hbuilt, ⟨rfl, rfl, rfl, rfl⟩, assignedTable_valid_iff hinv hbuilt,
    nsym_assignedTable hinv hbuilt, fun _ => hcodes.table_length, hcodes.table_prefixFree⟩

/-- Settles O39: a step down halves a node's part of the code space, and the leaves leave nothing of it; the code "0" is one
step long. -/
theorem assignedCodesFillCodeSpace : Obligations.AssignedCodesFillCodeSpace := by
  intro s t hinv hbuilt hexec
  rw [exec_assign_current hbuilt] at hexec
  obtain rfl := Host.Outcome.next.inj hexec
  have hspace := codeSpace_assignedTable hinv hbuilt
  refine ⟨fun htwo => ?_, fun hone => ?_⟩ <;> rw [complete_code, hspace (by omega)]
  · exact if_neg (by omega)
  · exact if_pos hone

end Sys2Proof.Machine
end

section
/-! PROOFS. ENCODE: the scan of the input, each end of the body, and where OBUF then holds each payload bit
(44_bit_encoder.md R211 to R215; O40, O41). -/

namespace Sys2Proof.Machine

/-! ## The scan -/

section
variable {s : State}

theorem encodeScan_succ_of_coded {n i : Nat} {b : Byte} (hread : s.ibuf.read i = some b)
    (hcoded : (codeAt s b).valid = true) :
    encodeScan s (n + 1) i = encodeScan s n (i + 1) >>= fun S => .ok ((codeAt s b).effective ++ S) := by
  rw [encodeScan, inputByte_eq_ok.2 hread, bind_ok, if_pos hcoded]

theorem encodeScan_succ_of_uncoded {n i : Nat} {b : Byte} (hread : s.ibuf.read i = some b)
    (huncoded : (codeAt s b).valid = false) :
    encodeScan s (n + 1) i = .error (.raise .noCode (i <<< 8 ||| b.toNat)) := by
  rw [encodeScan, inputByte_eq_ok.2 hread, bind_ok, if_neg (Bool.eq_false_iff.1 huncoded)]

/-- The scan of coded bytes answers their codes, in input order (30_encoding.md R145). -/
theorem encodeScan_of_covers {bs : List Byte} {i : Nat} (hbytes : BytesAt s.ibuf i bs) (hcodes : Covers s.code bs) :
    encodeScan s bs.length i = .ok (codeBits s.code bs) := by
  induction bs generalizing i with
  | nil => rfl
  | cons b bs ih =>
    obtain ⟨hcoded, hrest⟩ := List.forall_mem_cons.1 hcodes
    have htail : BytesAt s.ibuf (i + 1) bs := fun k hk => by
      rw [Nat.succ_add_eq_add_succ, hbytes (k + 1) (Nat.succ_lt_succ hk), List.getElem?_cons_succ]
    rw [List.length_cons, encodeScan_succ_of_coded (i := i) (hbytes 0 (Nat.succ_pos _)) hcoded, ih htail hrest]
    rfl

/-- The lowest byte without a code ends the scan, whatever follows it. -/
theorem encodeScan_of_uncoded {n i k : Nat} {b : Byte} (hik : i ≤ k) (hk : k < i + n) (hread : s.ibuf.read k = some b)
    (huncoded : (codeAt s b).valid = false)
    (hbefore : ∀ j, i ≤ j → j < k → ∃ c, s.ibuf.read j = some c ∧ (codeAt s c).valid = true) :
    encodeScan s n i = .error (.raise .noCode (k <<< 8 ||| b.toNat)) := by
  induction n generalizing i with
  | zero => exact absurd hk hik.not_gt
  | succ n ih =>
    obtain rfl | hlt := hik.eq_or_lt
    · exact encodeScan_succ_of_uncoded hread huncoded
    · obtain ⟨c, hc, hcoded⟩ := hbefore i le_rfl hlt
      rw [encodeScan_succ_of_coded hc hcoded, ih hlt (by omega) fun j hj => hbefore j (Nat.le_of_succ_le hj)]
      rfl

/-- ENCODE's scan of an input whose bytes all have codes. -/
theorem encodeScan_of_ibufHolds {bs : List Byte} (h : IbufHolds s bs) (hcodes : Covers s.code bs) :
    encodeScan s s.inLen.toNat 0 = .ok (codeBits s.code bs) := by
  obtain ⟨hlen, hbytes⟩ := h
  rw [hlen]
  exact encodeScan_of_covers (fun k hk => by rw [Nat.zero_add, hbytes k hk]) hcodes

end

/-- E_NOCODE's ERR_INFO holds the index in bits 31:8 and the symbol in bits 7:0 (44_bit_encoder.md R212). -/
theorem noCodeInfo_eq (i : Nat) (b : Byte) : i <<< 8 ||| b.toNat = 2 ^ 8 * i + b.toNat := by
  rw [← Nat.shiftLeft_add_eq_or_of_lt b.isLt, Nat.shiftLeft_eq, Nat.mul_comm]

/-! ## The body -/

/-- What ENCODE writes of the bit sequence `S` before it completes (44_bit_encoder.md R212). -/
def encodeWork (s : State) (S : BitStr) : State :=
  { s with
    obuf := s.obuf.writeBytes s.outLen.toNat (pack S)
    outLen := BitVec.ofNat 32 (s.outLen.toNat + ceil8 S.length)
    encBits := BitVec.ofNat 32 S.length }

section
variable {s : State} (hin : s.inLen.toNat ≤ s.params.ibufBytes)
include hin

theorem encodeBody_of_outLen_beyond (hout : s.params.obufBytes < s.outLen.toNat) :
    encodeBody s = .raise s .range s.outLen.toNat := by
  rw [encodeBody, if_neg hin.not_gt, if_pos hout]

variable (hout : s.outLen.toNat ≤ s.params.obufBytes)
include hout

theorem encodeBody_of_scan_error {stop : Stop} (hscan : encodeScan s s.inLen.toNat 0 = .error stop) :
    encodeBody s = stop.result s := by
  rw [encodeBody, if_neg hin.not_gt, if_neg hout.not_gt, hscan]

theorem encodeBody_of_scan_ok {S : BitStr} (hscan : encodeScan s s.inLen.toNat 0 = .ok S) :
    encodeBody s = if s.params.obufBytes < s.outLen.toNat + ceil8 S.length
      then .raise s .obufOvf (s.outLen.toNat + ceil8 S.length) else .done (encodeWork s S) := by
  rw [encodeBody, if_neg hin.not_gt, if_neg hout.not_gt, hscan]
  rfl

end

/-- With every input byte coded and room for the payload, ENCODE stores the payload and completes. -/
theorem exec_encode_of_fits {s : State} {bs : List Byte} (h : IbufHolds s bs) (hin : bs.length ≤ s.params.ibufBytes)
    (hcodes : Covers s.code bs) (hroom : s.outLen.toNat + ceil8 (codeBits s.code bs).length ≤ s.params.obufBytes) :
    exec .encode s = .next (complete (encodeWork s (codeBits s.code bs))) := by
  have hbody := encodeBody_of_scan_ok (h.1.trans_le hin) (le_of_add_le_left hroom) (encodeScan_of_ibufHolds h hcodes)
  rw [if_neg hroom.not_gt] at hbody
  exact congrArg CmdResult.finish hbody

/-- A buffer into which a payload was written holds bit k of the sequence at the payload's bit k, 0 beyond its end. -/
theorem payloadBit_writeBytes_pack (m : Memory) (start : Nat) {S : BitStr} {k : Nat} (hk : k < 8 * ceil8 S.length) :
    ((m.writeBytes start (pack S)).read (start + k / 8)).map (payloadBit · k) = some (S.getD k false) := by
  rw [read_writeBytes_inside _ _ _ (by rw [pack_length]; omega), payloadBit_pack hk]

theorem bitsAt_writeBytes_pack (m : Memory) (start : Nat) (S : BitStr) :
    BitsAt (m.writeBytes start (pack S)) start S := by
  intro k hk
  rw [payloadBit_writeBytes_pack m start (hk.trans_le (length_le_ceil8 _)), List.getD_eq_getElem _ _ hk,
    List.getElem?_eq_getElem hk]

/-- Settles O40: the scan answers the concatenated codes, whose payload OBUF then holds from the old OUT_LEN on. -/
theorem encodePacksCodes : Obligations.EncodePacksCodes := by
  intro s bs ⟨_, _, hsize⟩ hbuf hin hcodes hroom
  have hbits := length_le_ceil8 (codeBits s.code bs).length
  refine ⟨_, exec_encode_of_fits hbuf hin hcodes hroom, rfl, ?outLen, ?encBits, bitsAt_writeBytes_pack _ _ _, ?padding,
    ?outside⟩
  case outLen => exact Nat.mod_eq_of_lt (by omega)
  case encBits => exact Nat.mod_eq_of_lt (by omega)
  case padding =>
    intro k hpad hk
    exact (payloadBit_writeBytes_pack _ _ hk).trans (congrArg some (List.getD_eq_default _ _ hpad))
  case outside =>
    intro a ha
    exact read_writeBytes_outside _ _ _ (by rwa [pack_length])

/-- Settles O41: each check is the first to fail, and the scan meets the lowest uncoded byte first. -/
theorem encodeChecksInOrder : Obligations.EncodeChecksInOrder := by
  refine fun s => ⟨fun hlong => congrArg CmdResult.finish (encodeBody_overlong hlong),
    fun hin hbeyond => congrArg CmdResult.finish (encodeBody_of_outLen_beyond hin hbeyond),
    fun hin hout => ⟨fun i b hi hread huncoded hbefore => ?_, fun bs hbuf hcodes hfull => ?_⟩⟩
  · have hscan := encodeScan_of_uncoded i.zero_le (by rwa [Nat.zero_add]) hread huncoded fun j _ => hbefore j
    rw [noCodeInfo_eq] at hscan
    exact congrArg CmdResult.finish (encodeBody_of_scan_error hin hout hscan)
  · have hbody := encodeBody_of_scan_ok hin hout (encodeScan_of_ibufHolds hbuf hcodes)
    rw [if_pos hfull] at hbody
    exact congrArg CmdResult.finish hbody

end Sys2Proof.Machine
end

section
/-! PROOFS. DECODE: the reverse view of the code table, the bit loop along a run of first matches, and what each end of
the command leaves (45_bit_decoder.md R226 to R232; O43, O44, O45). -/

namespace Sys2Proof.Machine

/-! ## The reverse view of the code table -/

theorem bitsOf_length (len v : Nat) : (bitsOf len v).length = len := by
  rw [bitsOf, List.length_map, List.length_range]

theorem effective_length (e : CodeEntry) : e.effective.length = e.len.toNat := bitsOf_length ..

theorem pushBit_div_two (v : Nat) : pushBit (v / 2) (v.testBit 0) = v := by
  rw [pushBit, Nat.toNat_testBit, Nat.pow_zero, Nat.div_one, Nat.div_add_mod]

theorem bitsVal_bitsOf (len v : Nat) : bitsVal (bitsOf len v) = v % 2 ^ len := by
  induction len generalizing v with
  | zero => rw [Nat.pow_zero, Nat.mod_one]; rfl
  | succ len ih =>
    have hmod : v % 2 ^ (len + 1) = v % 2 + 2 * (v / 2 % 2 ^ len) := by rw [Nat.pow_succ', Nat.mod_mul]
    have hbits : bitsOf (len + 1) v = bitsOf len (v / 2) ++ [v.testBit 0] := by
      conv_lhs => rw [← pushBit_div_two v, bitsOf_pushBit]
    rw [hbits, bitsVal_concat, ih, pushBit, Nat.toNat_testBit, Nat.pow_zero, Nat.div_one, hmod, Nat.add_comm]

/-- An entry's code is `acc` exactly when it is valid and `acc` is its effective code (45_bit_decoder.md R228). -/
theorem hits_iff {e : CodeEntry} {acc : BitStr} : e.hits acc = true ↔ e.valid = true ∧ e.effective = acc := by
  simp only [CodeEntry.hits, Bool.and_eq_true, beq_iff_eq, and_assoc]
  refine and_congr_right fun _ => ⟨fun ⟨hlen, hval⟩ => ?_, ?_⟩
  · rw [← bitsOf_bitsVal acc, ← hlen, ← hval, ← bitsVal_bitsOf]
    exact (bitsOf_length .. ▸ bitsOf_bitsVal e.effective).symm
  · rintro rfl
    exact ⟨(effective_length e).symm, (bitsVal_bitsOf ..).symm⟩

theorem hits_iff_hasCode {code : Vector CodeEntry 256} {sym : Symbol} {acc : BitStr} :
    (tableGet code sym).hits acc = true ↔ HasCode code sym acc := hits_iff

theorem lookup_eq_find? (code : Vector CodeEntry 256) (acc : BitStr) :
    lookup code acc = allSymbols.find? fun sym => (tableGet code sym).hits acc := by
  rw [lookup, tableEntries_eq_map, List.find?_map, Option.map_map]
  exact congrFun Option.map_id _

theorem lookup_eq_none {code : Vector CodeEntry 256} {acc : BitStr} (h : ∀ sym, ¬HasCode code sym acc) :
    lookup code acc = none := by
  rw [lookup_eq_find?, List.find?_eq_none]
  exact fun sym _ => hits_iff_hasCode.not.2 (h sym)

/-- The least symbol a code belongs to is what the decoder reads it as. -/
theorem lookup_eq_some {code : Vector CodeEntry 256} {acc : BitStr} {sym : Symbol} (h : HasCode code sym acc)
    (hleast : ∀ r : Symbol, r.toNat < sym.toNat → ¬HasCode code r acc) : lookup code acc = some sym := by
  have hlt : sym.toNat < allSymbols.length := allSymbols_length ▸ sym.isLt
  rw [lookup_eq_find?, List.find?_eq_some_iff_getElem]
  refine ⟨hits_iff_hasCode.2 h, sym.toNat, hlt, by rw [allSymbols_getElem, BitVec.ofNat_toNat, BitVec.setWidth_eq],
    fun j hj => ?_⟩
  have hval : (BitVec.ofNat 8 j).toNat = j := Nat.mod_eq_of_lt (hj.trans sym.isLt)
  rw [Bool.not_eq_true', ← Bool.not_eq_true, allSymbols_getElem, hits_iff_hasCode]
  exact hleast _ (hval.symm ▸ hj)

theorem hasCode_length_le {code : Vector CodeEntry 256} {sym : Symbol} {c : BitStr} (h : HasCode code sym c) :
    c.length ≤ 255 := by
  rw [← h.2, effective_length]
  exact Nat.le_of_lt_succ (tableGet code sym).len.isLt

/-! ## The bit loop -/

/-- The payload's bits from bit `k` on are `S` (20_memory.md R108). -/
def PayloadFrom (s : State) (k : Nat) (S : BitStr) : Prop :=
  ∀ j < S.length, (s.ibuf.read (s.payOff.toNat + (k + j) / 8)).map (payloadBit · (k + j)) = S[j]?

theorem payloadFrom_zero {s : State} {S : BitStr} (h : BitsAt s.ibuf s.payOff.toNat S) : PayloadFrom s 0 S := by
  intro j hj
  rw [Nat.zero_add]
  exact h j hj

section
variable {s : State} {k : Nat}

theorem PayloadFrom.left {S S' : BitStr} (h : PayloadFrom s k (S ++ S')) : PayloadFrom s k S := by
  intro j hj
  rw [h j (by rw [List.length_append]; omega), List.getElem?_append_left hj]

theorem PayloadFrom.right {S S' : BitStr} (h : PayloadFrom s k (S ++ S')) : PayloadFrom s (k + S.length) S' := by
  intro j hj
  rw [Nat.add_assoc, h (S.length + j) (by rw [List.length_append]; omega),
    List.getElem?_append_right (Nat.le_add_right ..), Nat.add_sub_cancel_left]

theorem PayloadFrom.tail {b : Bool} {S : BitStr} (h : PayloadFrom s k (b :: S)) : PayloadFrom s (k + 1) S :=
  PayloadFrom.right (S := [b]) h

theorem PayloadFrom.head {b : Bool} {S : BitStr} (h : PayloadFrom s k (b :: S)) :
    ∃ byte, inputByte s (s.payOff.toNat + k / 8) = .ok byte ∧ payloadBit byte k = b := by
  obtain ⟨byte, hread, hbit⟩ := Option.map_eq_some_iff.1 (h 0 (Nat.succ_pos _))
  exact ⟨byte, inputByte_eq_ok.2 hread, hbit⟩

variable {n : Nat} {acc : BitStr} {b : Bool} {S : BitStr}

/-- A bit that completes no code joins the accumulator. -/
theorem decodeLoop_of_no_match (hacc : acc.length < 255) (hbits : PayloadFrom s k (b :: S))
    (hnone : ∀ sym, ¬HasCode s.code sym (acc ++ [b])) :
    decodeLoop (n + 1) k acc s = decodeLoop n (k + 1) (acc ++ [b]) s := by
  obtain ⟨byte, hread, rfl⟩ := hbits.head
  rw [decodeLoop, if_neg hacc.ne, hread]
  dsimp only
  rw [lookup_eq_none hnone]

/-- A bit that completes a code emits its symbol, where OBUF has room (45_bit_decoder.md R227). -/
theorem decodeLoop_of_match {sym : Symbol} (hacc : acc.length < 255) (hbits : PayloadFrom s k (b :: S))
    (hmatch : lookup s.code (acc ++ [b]) = some sym) :
    decodeLoop (n + 1) k acc s = if s.outLen.toNat = s.params.obufBytes
      then .raise s .obufOvf (s.params.obufBytes + 1) else decodeLoop n (k + 1) [] (emitSymbol sym s) := by
  obtain ⟨byte, hread, rfl⟩ := hbits.head
  rw [decodeLoop, if_neg hacc.ne, hread]
  dsimp only
  rw [hmatch]

/-- Bits no beginning of which completes a code join the accumulator, up to its 255 bits. -/
theorem decodeLoop_of_unmatched {d : BitStr} (hacc : acc.length + d.length ≤ 255) (hbits : PayloadFrom s k d)
    (hnone : ∀ e sym, e <+: d → e ≠ [] → ¬HasCode s.code sym (acc ++ e)) :
    decodeLoop (d.length + n) k acc s = decodeLoop n (k + d.length) (acc ++ d) s := by
  induction d generalizing k acc with
  | nil => rw [List.length_nil, Nat.zero_add, Nat.add_zero, List.append_nil]
  | cons b d ih =>
    rw [List.length_cons] at hacc
    have hfirst : ∀ sym, ¬HasCode s.code sym (acc ++ [b]) := fun sym =>
      hnone [b] sym (List.prefix_append [b] d) (List.cons_ne_nil b [])
    have hrest : ∀ e sym, e <+: d → e ≠ [] → ¬HasCode s.code sym (acc ++ [b] ++ e) := fun e sym he _ => by
      rw [List.append_assoc]
      exact hnone (b :: e) sym (List.cons_prefix_cons.2 ⟨rfl, he⟩) (List.cons_ne_nil b e)
    calc decodeLoop ((b :: d).length + n) k acc s
      _ = decodeLoop (d.length + n + 1) k acc s := by rw [List.length_cons, Nat.add_right_comm]
      _ = decodeLoop (d.length + n) (k + 1) (acc ++ [b]) s := decodeLoop_of_no_match (by omega) hbits hfirst
      _ = decodeLoop n (k + 1 + d.length) (acc ++ [b] ++ d) s :=
        ih (by rw [List.length_append, List.length_singleton]; omega) hbits.tail hrest
      _ = decodeLoop n (k + (b :: d).length) (acc ++ b :: d) s := by
        rw [List.length_cons, List.append_assoc, List.singleton_append, Nat.add_assoc, Nat.add_comm 1]

/-- One first match: its last bit is the first to complete a code. -/
theorem decodeLoop_of_firstMatch {x : BitStr × Symbol} (hx : FirstMatch s.code x) (hbits : PayloadFrom s k x.1) :
    decodeLoop (x.1.length + n) k [] s = if s.outLen.toNat = s.params.obufBytes
      then .raise s .obufOvf (s.params.obufBytes + 1) else decodeLoop n (k + x.1.length) [] (emitSymbol x.2 s) := by
  obtain ⟨c, sym⟩ := x
  obtain ⟨hne, hcode, hleast, hfirst⟩ := hx
  dsimp only at hne hcode hleast hfirst hbits ⊢
  obtain rfl | ⟨d, b, rfl⟩ := List.eq_nil_or_concat' c
  · exact absurd rfl hne
  have hlen := hasCode_length_le hcode
  rw [List.length_append, List.length_singleton] at hlen
  have hbefore : ∀ e r, e <+: d → e ≠ [] → ¬HasCode s.code r ([] ++ e) := by
    refine fun e r he hne => hfirst e r (he.trans (List.prefix_append ..)) hne fun heq => ?_
    have hshort := he.length_le
    rw [heq, List.length_append, List.length_singleton] at hshort
    omega
  rw [List.length_append, List.length_singleton, Nat.add_assoc,
    decodeLoop_of_unmatched (by rw [List.length_nil]; omega) hbits.left hbefore, Nat.add_comm 1, List.nil_append,
    decodeLoop_of_match (by omega) hbits.right (lookup_eq_some hcode hleast), Nat.add_assoc]

/-! ## Runs of first matches -/

/-- The state after the symbols `ms` were emitted one after another. -/
def emitted (s : State) (ms : List Symbol) : State :=
  { s with
    obuf := s.obuf.writeBytes s.outLen.toNat ms
    outLen := BitVec.ofNat 32 (s.outLen.toNat + ms.length) }

theorem emitted_nil : emitted s [] = s := by
  rw [emitted, List.length_nil, Nat.add_zero, BitVec.ofNat_toNat, BitVec.setWidth_eq]
  rfl

theorem emitted_cons (hout : s.outLen.toNat + 1 < 2 ^ 32) (m : Symbol) (ms : List Symbol) :
    emitted s (m :: ms) = emitted (emitSymbol m s) ms := by
  have hnext : (emitSymbol m s).outLen.toNat = s.outLen.toNat + 1 := Nat.mod_eq_of_lt hout
  rw [emitted, emitted, hnext, List.length_cons, Nat.add_assoc, Nat.add_comm 1]
  rfl

/-- A run of first matches emits their symbols. -/
theorem decodeLoop_of_firstMatches {parts : List (BitStr × Symbol)} (hsize : s.params.obufBytes < 2 ^ 32)
    (hparts : ∀ x ∈ parts, FirstMatch s.code x) (hbits : PayloadFrom s k (parts.flatMap Prod.fst))
    (hroom : s.outLen.toNat + parts.length ≤ s.params.obufBytes) :
    decodeLoop ((parts.flatMap Prod.fst).length + n) k [] s =
      decodeLoop n (k + (parts.flatMap Prod.fst).length) [] (emitted s (parts.map Prod.snd)) := by
  induction parts generalizing s k with
  | nil => rw [List.flatMap_nil, List.length_nil, Nat.zero_add, Nat.add_zero, List.map_nil, emitted_nil]
  | cons x parts ih =>
    obtain ⟨hx, hrest⟩ := List.forall_mem_cons.1 hparts
    rw [List.flatMap_cons] at hbits
    rw [List.length_cons] at hroom
    have hout : s.outLen.toNat + 1 + parts.length ≤ s.params.obufBytes := by omega
    have hnext : (emitSymbol x.2 s).outLen.toNat = s.outLen.toNat + 1 := Nat.mod_eq_of_lt (by omega)
    rw [List.flatMap_cons, List.length_append, Nat.add_assoc, decodeLoop_of_firstMatch hx hbits.left,
      if_neg (by omega), ih (s := emitSymbol x.2 s) hsize hrest hbits.right (hnext.symm ▸ hout),
      ← emitted_cons (by omega), Nat.add_assoc, List.map_cons]

/-- Bits that complete no code end the loop with E_INCOMPLETE, their number or 255 (45_bit_decoder.md R229, R230). -/
theorem decodeLoop_of_leftover {left : BitStr} (hne : left ≠ []) (hbits : PayloadFrom s k left)
    (hnone : ∀ d sym, d <+: left → d ≠ [] → ¬HasCode s.code sym d) :
    decodeLoop left.length k [] s = .raise s .incomplete (min left.length 255) := by
  have hlen : (left.take 255).length = min left.length 255 := by rw [List.length_take, Nat.min_comm]
  have hsplit : left.length = (left.take 255).length + (left.drop 255).length := by
    rw [← List.length_append, List.take_append_drop]
  have hbefore : ∀ e sym, e <+: left.take 255 → e ≠ [] → ¬HasCode s.code sym ([] ++ e) := fun e sym he =>
    hnone e sym (he.trans (List.take_prefix ..))
  rw [← List.take_append_drop 255 left] at hbits
  rw [← hlen, hsplit, decodeLoop_of_unmatched (by rw [hlen, List.length_nil]; omega) hbits.left hbefore,
    List.nil_append]
  cases hrest : (left.drop 255).length with
  | zero => exact if_neg (by simp [hne])
  | succ n =>
    have hfull : (left.take 255).length = 255 := by
      rw [List.length_drop] at hrest
      omega
    rw [decodeLoop, if_pos hfull, hfull]

end

/-! ## The body -/

/-- DECODE's range checks pass, and `S` are the payload bits it consumes: PAY_BITS of them where BV = 1, else all
(45_bit_decoder.md R226, R227). -/
structure DecodeInput (s : State) (S : BitStr) : Prop where
  inLen : s.inLen.toNat ≤ s.params.ibufBytes
  payOff : s.payOff.toNat ≤ s.inLen.toNat
  fits : S.length ≤ 8 * (s.inLen.toNat - s.payOff.toNat)
  total : S.length = if s.decBV then s.payBits.toNat else 8 * (s.inLen.toNat - s.payOff.toNat)
  bits : BitsAt s.ibuf s.payOff.toNat S

/-- What DECODE leaves of the state where it emits the symbols `ms`, but for its completion. -/
def decodeWork (s : State) (ms : List Symbol) : State :=
  { s with obuf := s.obuf.writeBytes 0 ms, outLen := BitVec.ofNat 32 ms.length }

section
variable {s : State}

theorem emitted_from_zero (ms : List Symbol) : emitted { s with outLen := 0#32 } ms = decodeWork s ms := by
  rw [emitted, decodeWork, BitVec.toNat_zero, Nat.zero_add]

theorem decodeBody_payOff_beyond (hin : s.inLen.toNat ≤ s.params.ibufBytes) (hoff : s.inLen.toNat < s.payOff.toNat) :
    decodeBody s = .raise s .range s.payOff.toNat := by
  rw [decodeBody, if_neg hin.not_gt, if_pos hoff]

theorem decodeBody_payBits_beyond (hin : s.inLen.toNat ≤ s.params.ibufBytes) (hoff : s.payOff.toNat ≤ s.inLen.toNat)
    (hbv : s.decBV = true) (hbits : 8 * (s.inLen.toNat - s.payOff.toNat) < s.payBits.toNat) :
    decodeBody s = .raise s .range s.payBits.toNat := by
  have hover : (s.decBV && decide (payloadAvail s < s.payBits.toNat)) = true := by
    rw [hbv, Bool.true_and, decide_eq_true_iff]
    exact hbits
  rw [decodeBody, if_neg hin.not_gt, if_neg hoff.not_gt, if_pos hover]

/-- Past its checks DECODE runs the bit loop over the bits to consume. -/
theorem decodeBody_of_input {S : BitStr} (h : DecodeInput s S) :
    decodeBody s = decodeLoop S.length 0 [] { s with outLen := 0#32 } := by
  have htotal : payloadTotal s = S.length := h.total.symm
  have hfits : ¬(s.decBV && decide (payloadAvail s < s.payBits.toNat)) = true := by
    rw [Bool.and_eq_true, decide_eq_true_iff]
    rintro ⟨hbv, hover⟩
    have htotal := h.total
    rw [if_pos hbv] at htotal
    exact absurd (htotal ▸ h.fits) hover.not_ge
  rw [decodeBody, if_neg h.inLen.not_gt, if_neg h.payOff.not_gt, if_neg hfits, htotal]

section
variable {parts : List (BitStr × Symbol)} (hsizes : s.params.wf) (hparts : ∀ x ∈ parts, FirstMatch s.code x)
include hsizes hparts

/-- The bit loop of DECODE after a run of first matches that OBUF has room for. -/
theorem decodeBody_after_parts {rest : BitStr} (h : DecodeInput s (parts.flatMap Prod.fst ++ rest))
    (hroom : parts.length ≤ s.params.obufBytes) :
    decodeBody s = decodeLoop rest.length (parts.flatMap Prod.fst).length [] (decodeWork s (parts.map Prod.snd)) := by
  obtain ⟨-, -, hsize⟩ := hsizes
  have hbits : PayloadFrom { s with outLen := 0#32 } 0 (parts.flatMap Prod.fst ++ rest) := payloadFrom_zero h.bits
  have hrun := decodeLoop_of_firstMatches (s := { s with outLen := 0#32 }) (n := rest.length)
    (hsize.trans_lt (by decide)) hparts hbits.left (by rwa [BitVec.toNat_zero, Nat.zero_add])
  rw [decodeBody_of_input h, List.length_append, hrun, Nat.zero_add, emitted_from_zero]

theorem decodeBody_of_parts (h : DecodeInput s (parts.flatMap Prod.fst)) (hroom : parts.length ≤ s.params.obufBytes) :
    decodeBody s = .done (decodeWork s (parts.map Prod.snd)) := by
  rw [decodeBody_after_parts hsizes hparts (rest := []) (by rwa [List.append_nil]) hroom]
  rfl

variable {left : BitStr} (h : DecodeInput s (parts.flatMap Prod.fst ++ left))
include h

theorem decodeBody_incomplete (hroom : parts.length ≤ s.params.obufBytes) (hne : left ≠ [])
    (hnone : ∀ d sym, d <+: left → d ≠ [] → ¬HasCode s.code sym d) :
    decodeBody s = .raise (decodeWork s (parts.map Prod.snd)) .incomplete (min left.length 255) := by
  have hbits := (payloadFrom_zero h.bits).right
  rw [Nat.zero_add] at hbits
  rw [decodeBody_after_parts hsizes hparts h hroom]
  exact decodeLoop_of_leftover hne hbits hnone

end

/-- The match after a full OBUF is not emitted (45_bit_decoder.md R227). -/
theorem decodeBody_overflow {parts : List (BitStr × Symbol)} {x : BitStr × Symbol} {left : BitStr}
    (hsizes : s.params.wf) (hparts : ∀ y ∈ parts, FirstMatch s.code y) (hx : FirstMatch s.code x)
    (h : DecodeInput s (parts.flatMap Prod.fst ++ (x.1 ++ left))) (hfull : parts.length = s.params.obufBytes) :
    decodeBody s = .raise (decodeWork s (parts.map Prod.snd)) .obufOvf (s.params.obufBytes + 1) := by
  have hbits := (payloadFrom_zero h.bits).right
  rw [Nat.zero_add] at hbits
  have hout : (decodeWork s (parts.map Prod.snd)).outLen.toNat = s.params.obufBytes := by
    obtain ⟨-, -, hsize⟩ := hsizes
    rw [decodeWork, List.length_map, hfull]
    exact Nat.mod_eq_of_lt (hsize.trans_lt (by decide))
  rw [decodeBody_after_parts hsizes hparts h hfull.le, List.length_append,
    decodeLoop_of_firstMatch (s := decodeWork s (parts.map Prod.snd)) hx hbits.left]
  exact if_pos hout

end

/-! ## The command -/

/-- OBUF then begins with the symbols, and every other byte is as before. -/
theorem decodeWork_frame (s : State) (ms : List Symbol) :
    BytesAt (decodeWork s ms).obuf 0 ms ∧ SameOutside s.obuf (decodeWork s ms).obuf 0 ms.length :=
  ⟨fun _ hi => read_writeBytes_inside _ _ _ hi, fun _ ha => read_writeBytes_outside _ _ _ ha⟩

/-- Settles O44: each check is the first to fail. -/
theorem decodeChecksInOrder : Obligations.DecodeChecksInOrder :=
  fun _ => ⟨fun hlong => congrArg CmdResult.finish (decodeBody_overlong hlong),
    fun hin hoff => congrArg CmdResult.finish (decodeBody_payOff_beyond hin hoff),
    fun hin hoff hbv hbits => congrArg CmdResult.finish (decodeBody_payBits_beyond hin hoff hbv hbits)⟩

/-- Each byte's code under a prefix-free table without empty codes is a first match. -/
theorem firstMatch_of_prefixFree {code : Vector CodeEntry 256} (hfree : PrefixFree code)
    (hnonempty : ∀ sym, (tableGet code sym).valid = true → (tableGet code sym).len ≠ 0#8) {b : Byte}
    (hvalid : (tableGet code b).valid = true) : FirstMatch code ((tableGet code b).effective, b) := by
  have hprefix (d : BitStr) (r : Symbol) (hd : d <+: (tableGet code b).effective) (hr : HasCode code r d) : r = b := by
    obtain ⟨hrvalid, rfl⟩ := hr
    exact of_not_not fun hne => hfree r b hrvalid hvalid hne hd
  refine ⟨fun hnil => ?_, ⟨hvalid, rfl⟩, fun r hlt hr => ?_, fun d r hd _ hne hr => ?_⟩
  · have hlen := congrArg List.length hnil
    rw [effective_length] at hlen
    exact hnonempty b hvalid (BitVec.eq_of_toNat_eq hlen)
  · rw [hprefix _ r List.prefix_rfl hr] at hlt
    exact lt_irrefl _ hlt
  · rw [hprefix d r hd hr] at hr
    exact hne hr.2.symm

/-- The codes of a message, each with its symbol. -/
def messageParts (code : Vector CodeEntry 256) (M : List Byte) : List (BitStr × Symbol) :=
  M.map fun b => ((tableGet code b).effective, b)

theorem messageParts_bits (code : Vector CodeEntry 256) (M : List Byte) :
    (messageParts code M).flatMap Prod.fst = codeBits code M := List.flatMap_map ..

theorem messageParts_symbols (code : Vector CodeEntry 256) (M : List Byte) :
    (messageParts code M).map Prod.snd = M := by
  rw [messageParts, List.map_map]
  exact List.map_id M

/-- Under a prefix-free table without empty codes DECODE recovers every message. -/
theorem decodeBody_of_message {s : State} {M : List Byte} (hsizes : s.params.wf) (hfree : PrefixFree s.code)
    (hnonempty : ∀ sym, (codeAt s sym).valid = true → (codeAt s sym).len ≠ 0#8) (hcovers : Covers s.code M)
    (hroom : M.length ≤ s.params.obufBytes) (h : DecodeInput s (codeBits s.code M)) :
    decodeBody s = .done (decodeWork s M) := by
  have hparts : ∀ x ∈ messageParts s.code M, FirstMatch s.code x := by
    intro x hx
    obtain ⟨b, hb, rfl⟩ := List.mem_map.1 hx
    exact firstMatch_of_prefixFree hfree hnonempty (hcovers b hb)
  rw [← messageParts_bits] at h
  rw [decodeBody_of_parts hsizes hparts h (by rwa [messageParts, List.length_map]), messageParts_symbols]

/-- Settles O43: DECODE emits the symbol of each first match in turn; under a prefix-free table each code of a message
is one. -/
theorem decodeRecoversMessage : Obligations.DecodeRecoversMessage := by
  refine ⟨fun s parts hsizes hparts hroom hin hoff hfits htotal hbits => ?_,
    fun s M hsizes hfree hnonempty hcovers hroom hin hoff hfits htotal hbits => ?_⟩
  · have hbody := decodeBody_of_parts hsizes hparts ⟨hin, hoff, hfits, htotal, hbits⟩ hroom
    have hframe := decodeWork_frame s (parts.map Prod.snd)
    rw [decodeWork, List.length_map] at hbody hframe
    exact ⟨_, congrArg CmdResult.finish hbody, hframe⟩
  · have hbody := decodeBody_of_message hsizes hfree hnonempty hcovers hroom ⟨hin, hoff, hfits, htotal, hbits⟩
    exact ⟨_, congrArg CmdResult.finish hbody, decodeWork_frame s M⟩

/-- Settles O45: the loop emits the run of first matches, and then the bits left over or the next match end it. -/
theorem decodeReportsIncompleteCode : Obligations.DecodeReportsIncompleteCode := by
  intro s parts left hsizes hparts hin hoff hfits htotal hbits
  have h : DecodeInput s (parts.flatMap Prod.fst ++ left) := ⟨hin, hoff, hfits, htotal, hbits⟩
  refine ⟨fun hroom hne hnone => ?_, fun hover => ?_⟩
  · have hbody := decodeBody_incomplete hsizes hparts h hroom hne hnone
    have hframe := decodeWork_frame s (parts.map Prod.snd)
    rw [decodeWork, List.length_map] at hbody hframe
    exact ⟨_, congrArg CmdResult.finish hbody, hframe⟩
  · obtain rfl | ⟨fitting, x, rfl⟩ := List.eq_nil_or_concat' parts
    · exact absurd hover (Nat.succ_ne_zero _).symm
    rw [List.length_append, List.length_singleton, Nat.add_right_cancel_iff] at hover
    obtain ⟨hfitting, hx⟩ := List.forall_mem_append.1 hparts
    rw [List.flatMap_append, List.flatMap_singleton, List.append_assoc] at h
    have htake : ((fitting ++ [x]).map Prod.snd).take s.params.obufBytes = fitting.map Prod.snd := by
      rw [List.map_append, List.take_left' (by rwa [List.length_map])]
    have hbody := decodeBody_overflow hsizes hfitting (hx x List.mem_cons_self) h hover
    have hframe := decodeWork_frame s (fitting.map Prod.snd)
    rw [decodeWork, List.length_map, hover] at hbody hframe
    rw [htake]
    exact ⟨_, congrArg CmdResult.finish hbody, hframe⟩

end Sys2Proof.Machine
end

section
/-! PROOFS. HDRP: what the parser reads of a good header, part by part, and the table its lines give
(46_container_codec.md R248 to R252). -/

namespace Sys2Proof.Machine

/-! ## Bytes of the input -/

/-- The input holds the bytes `bs` from position `p` on. -/
def InputAt (s : State) (p : Nat) (bs : List Byte) : Prop := p + bs.length ≤ s.inLen.toNat ∧ BytesAt s.ibuf p bs

section
variable {s : State} {p : Nat}

theorem inputAt_of_ibufHolds {bs : List Byte} (h : IbufHolds s bs) : InputAt s 0 bs := by
  obtain ⟨hlen, hbytes⟩ := h
  exact ⟨by omega, fun i hi => by rw [Nat.zero_add, hbytes i hi]⟩

theorem InputAt.left {bs cs : List Byte} (h : InputAt s p (bs ++ cs)) : InputAt s p bs := by
  obtain ⟨hfits, hbytes⟩ := h
  rw [List.length_append] at hfits
  refine ⟨by omega, fun i hi => ?_⟩
  rw [hbytes i (by rw [List.length_append]; omega), List.getElem?_append_left hi]

theorem InputAt.right {bs cs : List Byte} (h : InputAt s p (bs ++ cs)) : InputAt s (p + bs.length) cs := by
  obtain ⟨hfits, hbytes⟩ := h
  rw [List.length_append] at hfits
  refine ⟨by omega, fun i hi => ?_⟩
  rw [Nat.add_assoc, hbytes (bs.length + i) (by rw [List.length_append]; omega),
    List.getElem?_append_right (Nat.le_add_right ..), Nat.add_sub_cancel_left]

theorem InputAt.tail {b : Byte} {bs : List Byte} (h : InputAt s p (b :: bs)) : InputAt s (p + 1) bs :=
  InputAt.right (bs := [b]) h

theorem InputAt.peek {b : Byte} {bs : List Byte} (h : InputAt s p (b :: bs)) : peekByte s p = .ok b := by
  obtain ⟨hfits, hbytes⟩ := h
  rw [List.length_cons] at hfits
  exact peekByte_eq_ok.2 ⟨by omega, hbytes 0 (Nat.succ_pos _)⟩

theorem InputAt.expect {b : Byte} {bs : List Byte} (h : InputAt s p (b :: bs)) (err : ErrCode) :
    expectByte s b err p = .ok (p + 1) := by
  rw [expectByte, h.peek, bind_ok, if_pos rfl]

end

/-! ## Decimal fields -/

/-- A number below 10^(k+1) has at most k + 1 digits. -/
theorem dec_length_le {k n : Nat} (h : n < 10 ^ (k + 1)) : (dec n).length ≤ k + 1 := by
  induction k generalizing n with
  | zero => rw [dec_of_lt (by simpa using h), List.length_singleton]
  | succ k ih =>
    obtain hn | hn := Nat.lt_or_ge n 10
    · rw [dec_of_lt hn, List.length_singleton]
      omega
    · rw [dec_of_ge hn, List.length_append, List.length_singleton]
      exact Nat.succ_le_succ (ih (by rw [Nat.pow_succ] at h; omega))

section
variable {s : State} {p : Nat} {err : ErrCode}

/-- The end of a decimal line. -/
theorem decLoop_of_lineFeed {start left n v : Nat} {first : Byte} (hpeek : peekByte s p = .ok chLF)
    (hcanonical : ¬(1 < n ∧ first = chZero)) : decLoop s err start first left n v p = .ok (v, p + 1) := by
  cases left with
  | zero => rw [decLoop_zero, hpeek, bind_ok, if_pos rfl, if_neg hcanonical]
  | succ left => rw [decLoop_succ, hpeek, bind_ok, if_pos rfl, if_neg hcanonical]

theorem decLoop_of_digit {start left n v : Nat} {first d : Byte} (hpeek : peekByte s p = .ok d)
    (hdigit : isDigit d = true) : decLoop s err start first (left + 1) n v p =
      decLoop s err start first left (n + 1) (10 * v + digitVal d) (p + 1) := by
  have hnot : d ≠ chLF := by
    rintro rfl
    exact absurd hdigit (by decide)
  rw [decLoop_succ, hpeek, bind_ok, if_neg hnot, if_neg (by rw [hdigit]; decide)]

theorem decLoop_of_digits {ds : List Byte} {start left n v : Nat} {first : Byte} (h : InputAt s p (ds ++ [chLF]))
    (hdigits : ∀ d ∈ ds, isDigit d = true) (hmax : ds.length ≤ left)
    (hcanonical : ¬(1 < n + ds.length ∧ first = chZero)) :
    decLoop s err start first left n v p =
      .ok (ds.foldl (fun v d => 10 * v + digitVal d) v, p + (ds ++ [chLF]).length) := by
  induction ds generalizing left n v p with
  | nil => exact decLoop_of_lineFeed h.peek hcanonical
  | cons d ds ih =>
    obtain ⟨hd, hds⟩ := List.forall_mem_cons.1 hdigits
    rw [List.length_cons] at hmax hcanonical
    obtain ⟨left, rfl⟩ := Nat.exists_eq_add_of_le' (Nat.le_of_add_left_le hmax)
    rw [decLoop_of_digit (InputAt.peek h) hd,
      ih (InputAt.tail h) hds (by omega) (by rwa [Nat.add_assoc, Nat.add_comm 1]), List.cons_append, List.length_cons,
      Nat.add_assoc, Nat.add_comm 1]
    rfl

/-- `decfield` reads back what `dec` writes, where it allows that many digits (00_scope.md R16, 46_container_codec.md
R248). -/
theorem decField_of_dec {n maxDigits : Nat} (h : InputAt s p (dec n ++ [chLF])) (hmax : (dec n).length ≤ maxDigits) :
    decField s err maxDigits p = .ok (n, p + (dec n ++ [chLF]).length) := by
  obtain ⟨hne, hdigits, hvalue, hcanonical⟩ := decimalTextIsCanonical n
  obtain ⟨d, ds, hdec⟩ := List.exists_cons_of_ne_nil hne
  rw [hdec] at h hmax hdigits hvalue hcanonical ⊢
  have hdigit : ∀ e ∈ d :: ds, isDigit e = true := fun e he => by
    rw [isDigit, Bool.and_eq_true, decide_eq_true_iff, decide_eq_true_iff]
    exact hdigits e he
  have hzero : ¬(1 < 1 + ds.length ∧ d = chZero) := by
    rintro ⟨hlong, rfl⟩
    exact hcanonical (by rwa [List.length_cons, Nat.add_comm]) rfl
  obtain ⟨hd, hds⟩ := List.forall_mem_cons.1 hdigit
  have hrest : ds.foldl (fun v e => 10 * v + digitVal e) (digitVal d) = n := by
    rw [← hvalue, List.foldl_cons, Nat.mul_zero, Nat.zero_add]
    rfl
  rw [List.length_cons] at hmax
  rw [decField, InputAt.peek h, bind_ok, if_neg (by rw [hd]; decide),
    decLoop_of_digits (InputAt.tail h) hds (Nat.le_sub_of_add_le hmax) hzero, hrest, List.cons_append, List.length_cons,
    Nat.add_assoc, Nat.add_comm 1]

end

/-! ## Table lines -/

section
variable {s : State} {p : Nat}

theorem codeField_of_comma {left len v : Nat} (hpeek : peekByte s p = .ok chComma) (hlen : 1 ≤ len) :
    codeField s left len v p = .ok (len, v, p + 1) := by
  cases left with
  | zero => rw [codeField_zero, hpeek, bind_ok, if_pos ⟨rfl, hlen⟩]
  | succ left => rw [codeField_succ, hpeek, bind_ok, if_pos ⟨rfl, hlen⟩]

theorem codeField_of_bit {left len v : Nat} {b : Bool} (hpeek : peekByte s p = .ok (bitChar b)) :
    codeField s (left + 1) len v p = codeField s left (len + 1) (pushBit v b) (p + 1) := by
  have hchar : bitChar b ≠ chComma ∧ (bitChar b = chZero ∨ bitChar b = chOne) ∧ (bitChar b == chOne) = b := by
    cases b <;> decide
  obtain ⟨hcomma, hbit, hvalue⟩ := hchar
  rw [codeField_succ, hpeek, bind_ok, if_neg fun h => hcomma h.1, if_pos hbit, hvalue]

theorem codeField_of_bits {c : BitStr} {left len v : Nat} (h : InputAt s p (c.map bitChar ++ [chComma]))
    (hmax : c.length ≤ left) (hpos : 1 ≤ len + c.length) :
    codeField s left len v p = .ok (len + c.length, c.foldl pushBit v, p + (c.map bitChar ++ [chComma]).length) := by
  induction c generalizing left len v p with
  | nil => exact codeField_of_comma h.peek hpos
  | cons b c ih =>
    rw [List.length_cons] at hmax hpos
    obtain ⟨left, rfl⟩ := Nat.exists_eq_add_of_le' (Nat.le_of_add_left_le hmax)
    rw [codeField_of_bit (InputAt.peek h), ih (InputAt.tail h) (by omega) (by omega), List.map_cons, List.cons_append,
      List.length_cons, List.length_cons, List.foldl_cons, Nat.add_assoc, Nat.add_assoc, Nat.add_comm 1, Nat.add_comm 1]

/-- `parseline` reads back a table line (46_container_codec.md R249). -/
theorem parseLine_of_tableLine {c : BitStr} {sym : Symbol} (h : InputAt s p (tableLine c sym))
    (hlen : 1 ≤ c.length ∧ c.length ≤ 255) :
    parseLine s p = .ok ⟨sym, c.length, bitsVal c, p + (tableLine c sym).length⟩ := by
  obtain ⟨hpos, hmax⟩ := hlen
  obtain ⟨b, hb, hpeek⟩ : ∃ b, b ≠ chH ∧ peekByte s p = .ok b := by
    obtain ⟨b, c, rfl⟩ := List.exists_cons_of_length_pos hpos
    exact ⟨bitChar b, by cases b <;> decide, InputAt.peek h⟩
  have hsplit : tableLine c sym = c.map bitChar ++ [chComma] ++ [sym, chLF] := by
    rw [tableLine, List.append_assoc]
    rfl
  rw [hsplit] at h ⊢
  have hend := h.right
  rw [parseLine, hpeek, bind_ok, if_neg hb, codeField_of_bits h.left hmax (by rwa [Nat.zero_add]), bind_ok]
  dsimp only
  rw [hend.peek, bind_ok, InputAt.expect hend.tail, bind_ok, Nat.zero_add,
    List.length_append (bs := [sym, chLF])]
  rfl

/-! ## The table of a list of lines -/

/-- The table HDRP makes of lines it accepts (46_container_codec.md R252). -/
def lineTable (lines : List (BitStr × Symbol)) : Vector CodeEntry 256 := writeCodes emptyCodeTable (lines.map Prod.swap)

theorem ofBits_inj {c d : BitStr} (hc : c.length ≤ 255) (hd : d.length ≤ 255) (h : CodeEntry.ofBits c = .ofBits d) :
    c = d := by
  rw [← ofBits_effective hc, h, ofBits_effective hd]

/-- The lines repeat no symbol and no code, neither of one another nor of the table (46_container_codec.md R255). -/
structure NewLines (table : Vector CodeEntry 256) (lines : List (BitStr × Symbol)) : Prop where
  length : ∀ x ∈ lines, 1 ≤ x.1.length ∧ x.1.length ≤ 255
  symbols : (lines.map Prod.snd).Nodup
  codes : (lines.map Prod.fst).Nodup
  freshSymbol : ∀ x ∈ lines, (tableGet table x.2).valid = false
  freshCode : ∀ x ∈ lines, CodeEntry.ofBits x.1 ∉ table.toList

theorem newLines_of_goodLines {lines : List (BitStr × Symbol)} (h : GoodLines lines) :
    NewLines emptyCodeTable lines := by
  obtain ⟨-, hlength, hsymbols, hcodes⟩ := h
  refine ⟨hlength, hsymbols, hcodes, fun x _ => by rw [tableGet_empty]; rfl, fun x _ hx => ?_⟩
  rw [emptyCodeTable, Vector.toList_replicate] at hx
  exact Bool.noConfusion (congrArg CodeEntry.valid (List.eq_of_mem_replicate hx))

theorem NewLines.tail {table : Vector CodeEntry 256} {x : BitStr × Symbol} {lines : List (BitStr × Symbol)}
    (h : NewLines table (x :: lines)) : NewLines (tableSet table x.2 (.ofBits x.1)) lines := by
  obtain ⟨hx, hlength⟩ := List.forall_mem_cons.1 h.length
  obtain ⟨-, hfreshSymbol⟩ := List.forall_mem_cons.1 h.freshSymbol
  obtain ⟨-, hfreshCode⟩ := List.forall_mem_cons.1 h.freshCode
  obtain ⟨hsymbol, hsymbols⟩ := List.nodup_cons.1 h.symbols
  obtain ⟨hcode, hcodes⟩ := List.nodup_cons.1 h.codes
  refine ⟨hlength, hsymbols, hcodes, fun y hy => ?_, fun y hy hmem => ?_⟩
  · have hother : y.2 ≠ x.2 := fun heq => hsymbol (List.mem_map.2 ⟨y, hy, heq⟩)
    rw [tableGet_set_other _ _ hother]
    exact hfreshSymbol y hy
  · rw [tableSet, Vector.toList_set] at hmem
    obtain hold | heq := List.mem_or_eq_of_mem_set hmem
    · exact hfreshCode y hy hold
    · exact hcode (List.mem_map.2 ⟨y, hy, ofBits_inj (hlength y hy).2 hx.2 heq⟩)

/-- The parser enters lines that repeat nothing into the table one after another. -/
theorem parseLines_of_newLines {lines : List (BitStr × Symbol)} {table : Vector CodeEntry 256} (n : Nat)
    (hnew : NewLines table lines) (h : InputAt s p (lines.flatMap fun x => tableLine x.1 x.2)) :
    parseLines s (lines.length + n) table p = parseLines s n (writeCodes table (lines.map Prod.swap))
      (p + (lines.flatMap fun x => tableLine x.1 x.2).length) := by
  induction lines generalizing table p with
  | nil => rw [List.length_nil, Nat.zero_add]; rfl
  | cons x lines ih =>
    rw [List.flatMap_cons] at h
    obtain ⟨hx, -⟩ := List.forall_mem_cons.1 hnew.length
    obtain ⟨hsymbol, -⟩ := List.forall_mem_cons.1 hnew.freshSymbol
    obtain ⟨hcode, -⟩ := List.forall_mem_cons.1 hnew.freshCode
    have hrepeats (next : Nat) : ParsedLine.repeats table ⟨x.2, x.1.length, bitsVal x.1, next⟩ = false := by
      rw [ParsedLine.repeats, hsymbol, Bool.false_or, ← Bool.not_eq_true, List.contains_iff_mem]
      exact hcode
    rw [List.length_cons, Nat.add_right_comm, parseLines, parseLine_of_tableLine h.left hx, bind_ok,
      if_neg (by rw [hrepeats]; decide)]
    refine (ih hnew.tail h.right).trans ?_
    rw [List.flatMap_cons, List.length_append, Nat.add_assoc]
    rfl

end

/-! ## The header -/

/-- What is left of HDRP's parse at a table line, with `n` lines to come (46_container_codec.md R252). -/
def parseRest (f : Format) (s : State) (n : Nat) (table : Vector CodeEntry 256) (q : Nat) :
    Except Stop ParsedHeader := do
  let (table, p) ← parseLines s n table q
  let (B, p') ← parseBitCount s p f
  let hl ← parseEnd s f p'
  let bits ← parsedPayBits s B hl f
  .ok ⟨table, hl, bits⟩

section
variable {s : State} {p : Nat}

theorem parseBitCount_of_line {bits : Nat} (hbits : bits < 2 ^ 32) (h : InputAt s p (bitCountLine bits)) :
    parseBitCount s p .extended = .ok (bits, p + (bitCountLine bits).length) := by
  have hfield : decField s .hdrBits 10 p = .ok (bits, p + (bitCountLine bits).length) :=
    decField_of_dec h (dec_length_le (hbits.trans (by decide)))
  rw [parseBitCount, hfield, bind_ok]
  exact if_neg (Nat.le_pred_of_lt hbits).not_gt

theorem parseEnd_of_mark (f : Format) (h : InputAt s p [chH, chE, chLF]) :
    parseEnd s f p = .ok (p + [chH, chE, chLF].length) := by
  rw [parseEnd, h.peek, bind_ok, if_neg (not_not.2 rfl), InputAt.expect h.tail, bind_ok, InputAt.expect h.tail.tail]
  rfl

end

section
variable {s : State} {lines : List (BitStr × Symbol)} (hin : s.inLen.toNat ≤ s.params.ibufBytes)
  (hgood : GoodLines lines)
include hin hgood

/-- After "HS", a count of at most 256 and good lines the parse goes on with their table. -/
theorem parseHeader_after_lines (f : Format) {n : Nat} (hcount : lines.length + n ≤ 256)
    (h : InputAt s 0 (headerStart (lines.length + n) lines)) :
    parseHeader f s = parseRest f s n (lineTable lines) (headerStart (lines.length + n) lines).length := by
  have hstart : headerStart (lines.length + n) lines =
      [chH, chS, chLF] ++ (dec (lines.length + n) ++ [chLF]) ++ lines.flatMap fun x => tableLine x.1 x.2 := by
    rw [headerStart, List.append_assoc [chH, chS, chLF]]
  rw [hstart] at h ⊢
  have hmark : InputAt s 0 [chH, chS, chLF] := h.left.left
  have hH : expectByte s chH .hdrStart 0 = .ok 1 := InputAt.expect hmark _
  have hS : expectByte s chS .hdrStart 1 = .ok 2 := InputAt.expect hmark.tail _
  have hLF : expectByte s chLF .hdrStart 2 = .ok 3 := InputAt.expect hmark.tail.tail _
  have hN : decField s .hdrCount 3 3 = .ok (lines.length + n, 3 + (dec (lines.length + n) ++ [chLF]).length) :=
    decField_of_dec h.left.right (dec_length_le (by omega))
  have hat := h.right
  rw [List.length_append, Nat.zero_add] at hat
  have hlines := parseLines_of_newLines n (newLines_of_goodLines hgood) hat
  rw [← List.length_append, ← List.length_append, List.length_append (as := [chH, chS, chLF])] at hlines
  rw [parseHeader, if_neg hin.not_gt, hH, bind_ok, hS, bind_ok, hLF, bind_ok, hN, bind_ok]
  dsimp only
  rw [if_neg hcount.not_gt]
  exact congrArg (· >>= _) hlines

/-- HDRP accepts an extended header of good lines with its exact payload length (46_container_codec.md R252, R256). -/
theorem hdrpBody_of_header {bits : Nat} {payload : List Byte} (hbits : bits < 2 ^ 32)
    (hpayload : payload.length = ceil8 bits) (h : IbufHolds s (headerOf lines (some bits) ++ payload)) :
    hdrpBody .extended s =
      .done (hdrpSuccess .extended ⟨lineTable lines, (headerOf lines (some bits)).length, bits⟩ s) := by
  have hlen := h.1
  have hheader := (inputAt_of_ibufHolds h).left
  rw [List.length_append, hpayload] at hlen
  rw [headerOf_some] at hheader hlen ⊢
  have hcount := parseBitCount_of_line hbits hheader.left.right
  have hend := parseEnd_of_mark .extended hheader.right
  rw [Nat.zero_add] at hcount hend
  rw [hdrpBody, parseHeader_after_lines hin hgood .extended (n := 0) hgood.1 hheader.left.left, parseRest, parseLines,
    bind_ok]
  dsimp only
  rw [Nat.add_zero, hcount, bind_ok]
  dsimp only
  rw [← List.length_append, hend, bind_ok, ← List.length_append, parsedPayBits, if_neg (by omega)]
  rfl

end

end Sys2Proof.Machine
end

section
/-! PROOFS. HDRW: the header of a code table with the bit count of FREQ, and when a table's lines are good
(46_container_codec.md R241 to R244). -/

namespace Sys2Proof.Machine

/-! ## The bit count -/

theorem countedCodes_eq_map (s : State) :
    countedCodes s = allSymbols.map fun sym => ((sym, freqAt s sym), codeAt s sym) := by
  rw [countedCodes, tableEntries_eq_map, toList_eq_map_tableGet, List.zip_map']
  rfl

/-- The sum over symbols each of which has a code where it is present; an absent one adds 0 (46_container_codec.md
R242). -/
theorem sumBitCount_of_coded {s : State} {symbols : List Symbol}
    (hcoded : ∀ sym ∈ symbols, freqAt s sym ≠ 0#32 → (codeAt s sym).valid = true) :
    sumBitCount (symbols.map fun sym => ((sym, freqAt s sym), codeAt s sym)) =
      .ok (symbols.map fun sym => (freqAt s sym).toNat * (codeAt s sym).len.toNat).sum := by
  induction symbols with
  | nil => rfl
  | cons sym symbols ih =>
    obtain ⟨hsym, hsymbols⟩ := List.forall_mem_cons.1 hcoded
    rw [List.map_cons, sumBitCount, ih hsymbols, List.map_cons, List.sum_cons]
    split
    · next habsent => rw [habsent, BitVec.toNat_zero, Nat.zero_mul, Nat.zero_add]
    · next hpresent =>
      rw [if_pos (hsym hpresent)]
      rfl

/-- The bit-count line of a header of the format, if it has one (30_encoding.md R141, R142). -/
def formatLine : Format → Nat → List Byte
  | .extended, bits => bitCountLine bits
  | .legacy, _ => []

theorem headerBitLine_of_coded {s : State} (f : Format)
    (hcoded : ∀ sym, freqAt s sym ≠ 0#32 → (codeAt s sym).valid = true) (hbits : bitCount s.freq s.code ≤ 2 ^ 32 - 1) :
    headerBitLine s f = .ok (formatLine f (bitCount s.freq s.code)) := by
  cases f with
  | legacy => rfl
  | extended =>
    have hsum : sumBitCount (countedCodes s) = .ok (bitCount s.freq s.code) := by
      rw [countedCodes_eq_map]
      exact sumBitCount_of_coded fun sym _ => hcoded sym
    rw [headerBitLine, hsum, bind_ok]
    exact if_neg hbits.not_gt

/-! ## The table lines -/

theorem codeLines_eq_map (code : Vector CodeEntry 256) :
    codeLines code = (allSymbols.filter fun sym => (tableGet code sym).valid).map
      fun sym => ((tableGet code sym).effective, sym) := by
  rw [codeLines, tableEntries_eq_map, List.filter_map, List.map_map]
  rfl

theorem codeLines_length (code : Vector CodeEntry 256) : (codeLines code).length = nsym code := by
  rw [codeLines_eq_map, List.length_map, nsym_eq]

theorem mem_codeLines {code : Vector CodeEntry 256} {x : BitStr × Symbol} :
    x ∈ codeLines code ↔ HasCode code x.2 x.1 := by
  rw [codeLines_eq_map, List.mem_map]
  constructor
  · rintro ⟨sym, hsym, rfl⟩
    exact ⟨(List.mem_filter.1 hsym).2, rfl⟩
  · rintro ⟨hvalid, hcode⟩
    exact ⟨x.2, List.mem_filter.2 ⟨mem_allSymbols x.2, hvalid⟩, Prod.ext hcode rfl⟩

theorem codeLines_symbols_nodup (code : Vector CodeEntry 256) : ((codeLines code).map Prod.snd).Nodup := by
  rw [codeLines_eq_map, List.map_map]
  exact (List.map_id _).symm ▸ allSymbols_nodup.filter _

theorem renderHeader_codeLines (f : Format) (code : Vector CodeEntry 256) (bits : Nat) :
    renderHeader (nsym code) (codeLines code) (formatLine f bits) = headerOf (codeLines code) (formatBits f bits) := by
  rw [← codeLines_length]
  cases f <;> rfl

/-! ## The body -/

/-- What HDRW writes before it completes, where `H` is the header (46_container_codec.md R244). -/
def hdrwWork (s : State) (H : List Byte) : State :=
  { s with
    obuf := s.obuf.writeBytes 0 H
    outLen := BitVec.ofNat 32 H.length
    hdrLen := BitVec.ofNat 32 H.length }

/-- With every present symbol coded and room for the header, HDRW writes it in either format. -/
theorem hdrwBody_of_fits {s : State} (f : Format) (hcoded : ∀ sym, freqAt s sym ≠ 0#32 → (codeAt s sym).valid = true)
    (hbits : bitCount s.freq s.code ≤ 2 ^ 32 - 1)
    (hroom : (headerOf (codeLines s.code) (formatBits f (bitCount s.freq s.code))).length ≤ s.params.obufBytes) :
    hdrwBody f s = .done (hdrwWork s (headerOf (codeLines s.code) (formatBits f (bitCount s.freq s.code)))) := by
  rw [hdrwBody, headerBitLine_of_coded f hcoded hbits]
  dsimp only
  rw [renderHeader_codeLines, if_neg hroom.not_gt]
  rfl

/-! ## Lines of a prefix-free table -/

/-- The lines of a prefix code are good. -/
theorem goodLines_of_prefixCode {lines : List (BitStr × Symbol)} (h : PrefixCode (lines.map Prod.swap)) :
    GoodLines lines := by
  have hsymbols : (lines.map Prod.snd).Nodup := by
    have hnodup := h.nodup
    rwa [List.map_map] at hnodup
  have hsame : ∀ x ∈ lines, ∀ y ∈ lines, x.1 = y.1 → x = y := fun x hx y hy heq =>
    have hprefix : x.1 <+: y.1 := heq ▸ List.prefix_rfl
    Prod.swap_injective (h.prefixFree _ (List.mem_map_of_mem hx) _ (List.mem_map_of_mem hy) hprefix)
  refine ⟨?_, fun x hx => h.length _ (List.mem_map_of_mem hx), hsymbols, hsymbols.of_map.map_on hsame⟩
  have hle := (List.subperm_of_subset hsymbols fun sym _ => mem_allSymbols sym).length_le
  rwa [List.length_map, allSymbols_length] at hle

/-- A prefix-free table without empty codes is written as a prefix code (10_state.md R58, 43_code_assigner.md R204). -/
theorem codeLines_prefixCode {code : Vector CodeEntry 256} (hnonempty : NoEmptyCode code) (hfree : PrefixFree code) :
    PrefixCode ((codeLines code).map Prod.swap) := by
  have hmem {x : Symbol × BitStr} (hx : x ∈ (codeLines code).map Prod.swap) : HasCode code x.1 x.2 := by
    obtain ⟨y, hy, rfl⟩ := List.mem_map.1 hx
    exact mem_codeLines.1 hy
  refine ⟨?_, fun x hx => ⟨?_, hasCode_length_le (hmem hx)⟩, fun x hx y hy hprefix => ?_⟩
  · rw [List.map_map]
    exact codeLines_symbols_nodup code
  · obtain ⟨hvalid, hcode⟩ := hmem hx
    rw [← hcode, effective_length]
    exact Nat.pos_of_ne_zero fun hzero => noEmptyCode_iff.1 hnonempty _ hvalid (BitVec.eq_of_toNat_eq hzero)
  · obtain ⟨hx, hxcode⟩ := hmem hx
    obtain ⟨hy, hycode⟩ := hmem hy
    have hsym : x.1 = y.1 := of_not_not fun hne => hfree _ _ hx hy hne (by rwa [hxcode, hycode])
    exact Prod.ext hsym (by rw [← hxcode, hsym, hycode])

/-- The lines of a table give its codes back (46_container_codec.md R258). -/
theorem tableGet_lineTable_codeLines (code : Vector CodeEntry 256) (sym : Symbol) :
    tableGet (lineTable (codeLines code)) sym =
      if (tableGet code sym).valid then .ofBits (tableGet code sym).effective else .empty := by
  have hsymbols : ((codeLines code).map Prod.swap).map Prod.fst = (codeLines code).map Prod.snd := List.map_map ..
  split
  · next hvalid =>
    exact tableGet_writeCodes_of_mem (x := (sym, _)) (hsymbols ▸ codeLines_symbols_nodup code)
      (List.mem_map.2 ⟨(_, sym), mem_codeLines.2 ⟨hvalid, rfl⟩, rfl⟩) _
  · next hinvalid =>
    refine (tableGet_writeCodes_of_not_mem (fun hsym => ?_) _).trans (tableGet_empty sym)
    rw [hsymbols] at hsym
    obtain ⟨x, hx, rfl⟩ := List.mem_map.1 hsym
    exact hinvalid (mem_codeLines.1 hx).1

end Sys2Proof.Machine
end

section
/-! PROOFS. The container of a message: its code table is a prefix code of its bytes, COMPRESS writes it, and DECOMPRESS
reads it back (45_bit_decoder.md R233, 47_composite.md R270, R271; O57). -/

namespace Sys2Proof.Machine

/-! ## The codes of a message -/

/-- The state BUILD leaves of a machine just reset but for the counts of a message. -/
def messageTree (bs : List Byte) : State :=
  complete (buildWork { State.resetWith Params.default with freq := countBytes bs })

theorem messageTree_inv (bs : List Byte) : (messageTree bs).Inv := by
  have hreset := dataInv_of_inv (resetWith_inv (p := Params.default) (by decide))
  exact inv_complete (buildWork_dataInv { hreset with treeCurrent := nofun })

theorem huffmanCodes_eq (bs : List Byte) : huffmanCodes bs = assignedTable (messageTree bs) := by
  have hroot := buildWork_root { State.resetWith Params.default with freq := countBytes bs }
  rw [assignedTable, currentCodes, messageTree, complete_root, hroot, complete_rootValid, complete_node, huffmanCodes,
    buildWork]
  dsimp only
  cases (buildTree (countBytes bs)).1.isEmpty <;> rfl

/-- ASSIGN on the tree of a message writes its codes, whatever the arena held before (10_state.md R62). -/
theorem assignedTable_buildWork {s : State} {bs : List Byte} (hfreq : s.freq = countBytes bs) :
    assignedTable (buildWork s) = huffmanCodes bs := by
  have hroot : (buildWork s).root = (messageTree bs).root := by rw [messageTree, complete, buildWork, buildWork, hfreq]
  have hvalid : (buildWork s).rootValid = (messageTree bs).rootValid := by
    rw [messageTree, complete, buildWork, buildWork, hfreq]
  have hnode : SameBelow (buildWork s).node (messageTree bs).node (messageTree bs).nodeCnt.toNat := by
    intro n hn
    rw [messageTree, complete_nodeCnt, buildWork_nodeCnt] at hn
    have hbuilt := buildWork_node s (n := n) (hfreq ▸ hn)
    rw [hfreq] at hbuilt
    exact Option.some_inj.1 (hbuilt.symm.trans (buildWork_node _ hn))
  rw [huffmanCodes_eq, assignedTable, assignedTable, currentCodes, currentCodes, hroot, hvalid]
  split
  · next htree => rw [treeCodes_of_sameBelow (dataInv_of_inv (messageTree_inv bs)) rfl htree hnode]
  · rfl

theorem messageTree_prefixCode (bs : List Byte) : PrefixCode (currentCodes (messageTree bs)) :=
  currentCodes_prefixCode (messageTree_inv bs) rfl

theorem huffmanCodes_prefixFree (bs : List Byte) : PrefixFree (huffmanCodes bs) :=
  huffmanCodes_eq bs ▸ (messageTree_prefixCode bs).table_prefixFree

theorem huffmanCodes_noEmptyCode (bs : List Byte) : NoEmptyCode (huffmanCodes bs) :=
  huffmanCodes_eq bs ▸ writeCodes_noEmptyCode noEmptyCode_empty (messageTree_prefixCode bs).length

/-- Exactly the bytes of a message have a code (43_code_assigner.md R204). -/
theorem huffmanCodes_valid_iff {bs : List Byte} (h : bs.length < 2 ^ 32) (sym : Symbol) :
    (tableGet (huffmanCodes bs) sym).valid = true ↔ sym ∈ bs := by
  have hcount := toNat_tableGet_countBytes h sym
  rw [huffmanCodes_eq]
  refine (assignedTable_valid_iff (messageTree_inv bs) rfl sym).trans ?_
  rw [← List.count_pos_iff, ← hcount, Nat.pos_iff_ne_zero]
  exact (BitVec.toNat_inj (y := 0#32)).not.symm

theorem table_ext {α : Type} {t u : Vector α 256} (h : ∀ sym, tableGet t sym = tableGet u sym) : t = u := by
  refine Vector.ext fun n hn => ?_
  simpa [tableGet, Nat.mod_eq_of_lt hn] using h (BitVec.ofNat 8 n)

/-- The header of a message gives its code table back. -/
theorem lineTable_huffmanCodes (bs : List Byte) : lineTable (codeLines (huffmanCodes bs)) = huffmanCodes bs := by
  refine table_ext fun sym => ?_
  rw [tableGet_lineTable_codeLines, huffmanCodes_eq]
  obtain ⟨c, hc, hentry⟩ | ⟨-, hentry⟩ := (messageTree_prefixCode bs).entry sym
  · rw [assignedTable, hentry, ofBits_effective ((messageTree_prefixCode bs).length _ hc).2]
    rfl
  · rw [assignedTable, hentry]
    rfl

/-! ## The bit count of a message -/

/-- Summed over the symbols, each with its count, or over the bytes: the same. -/
theorem sum_count_mul (bs : List Byte) (g : Symbol → Nat) :
    (allSymbols.map fun sym => bs.count sym * g sym).sum = (bs.map g).sum := by
  rw [← List.sum_toFinset _ allSymbols_nodup, Finset.sum_list_map_count]
  refine (Finset.sum_subset (fun sym _ => List.mem_toFinset.2 (mem_allSymbols sym)) fun sym _ hsym => ?_).symm
  rw [List.count_eq_zero_of_not_mem (fun hmem => hsym (List.mem_toFinset.2 hmem))]
  exact Nat.zero_mul _

theorem codeBits_length (code : Vector CodeEntry 256) (bs : List Byte) :
    (codeBits code bs).length = (bs.map fun b => (tableGet code b).len.toNat).sum := by
  simp only [codeBits, List.length_flatMap, effective_length]

/-- The header declares the bits the payload has (46_container_codec.md R242). -/
theorem bitCount_countBytes {bs : List Byte} (h : bs.length < 2 ^ 32) (code : Vector CodeEntry 256) :
    bitCount (countBytes bs) code = (codeBits code bs).length := by
  simp only [bitCount, toNat_tableGet_countBytes h, sum_count_mul bs fun sym => (tableGet code sym).len.toNat,
    codeBits_length]

/-- No code has more than 255 bits. -/
theorem codeBits_length_le (code : Vector CodeEntry 256) (bs : List Byte) :
    (codeBits code bs).length ≤ bs.length * 255 := by
  rw [codeBits_length, ← List.length_map fun b => (tableGet code b).len.toNat]
  refine List.sum_le_card_nsmul _ _ fun len hlen => ?_
  obtain ⟨b, -, rfl⟩ := List.mem_map.1 hlen
  exact Nat.le_of_lt_succ (tableGet code b).len.isLt

/-! ## COMPRESS -/

theorem writeBytes_append (m : Memory) (i : Nat) (bs cs : List Byte) :
    m.writeBytes i (bs ++ cs) = (m.writeBytes i bs).writeBytes (i + bs.length) cs := by
  induction bs generalizing m i with
  | nil => rfl
  | cons b bs ih =>
    rw [List.cons_append, Memory.writeBytes, ih, List.length_cons, Nat.add_assoc, Nat.add_comm 1]
    rfl

theorem assignBody_current {s : State} (hbuilt : s.treeBuilt = true) :
    assignBody s = .done { s with code := assignedTable s } := by
  rw [assignBody, hbuilt, assignedTable, currentCodes]
  cases s.rootValid <;> rfl

/-- The state in which HDRW finds the machine in a COMPRESS of a message: counted, with its tree and its codes. -/
def messageReady (s : State) (bs : List Byte) : State :=
  { buildWork { s with freq := countBytes bs, treeBuilt := false } with code := huffmanCodes bs }

/-- The state in which ENCODE finds the machine in a COMPRESS of a message: the header is written. -/
def messageHeaded (f : Format) (s : State) (bs : List Byte) : State :=
  hdrwWork (messageReady s bs) (messageHeader f bs)

/-- What COMPRESS writes for a message before it completes (47_composite.md R270). -/
def compressWork (f : Format) (s : State) (bs : List Byte) : State :=
  encodeWork (messageHeaded f s bs) (codeBits (huffmanCodes bs) bs)

theorem containerOf_length (f : Format) (bs : List Byte) :
    (containerOf f bs).length = (messageHeader f bs).length + ceil8 (codeBits (huffmanCodes bs) bs).length := by
  rw [containerOf, List.length_append, pack_length]

theorem assignBody_message (s : State) (bs : List Byte) :
    assignBody (buildWork { s with freq := countBytes bs, treeBuilt := false }) = .done (messageReady s bs) := by
  rw [assignBody_current rfl, assignedTable_buildWork rfl]
  rfl

section
variable {s : State} {bs : List Byte} {f : Format} (hsizes : s.params.wf)
  (hroom : (containerOf f bs).length ≤ s.params.obufBytes)
include hsizes hroom

theorem messageHeaded_outLen : (messageHeaded f s bs).outLen.toNat = (messageHeader f bs).length := by
  obtain ⟨-, -, hsize⟩ := hsizes
  rw [containerOf_length] at hroom
  exact Nat.mod_eq_of_lt (by omega)

theorem compressWork_outLen : (compressWork f s bs).outLen.toNat = (containerOf f bs).length := by
  have hout := messageHeaded_outLen hsizes hroom
  obtain ⟨-, -, hsize⟩ := hsizes
  rw [compressWork, encodeWork, hout, ← containerOf_length]
  exact Nat.mod_eq_of_lt (by omega)

/-- OBUF then begins with the container. -/
theorem compressWork_obuf : (compressWork f s bs).obuf = s.obuf.writeBytes 0 (containerOf f bs) := by
  rw [compressWork, encodeWork, messageHeaded_outLen hsizes hroom, containerOf, writeBytes_append, Nat.zero_add]
  rfl

variable (hin : bs.length ≤ s.params.ibufBytes)
include hin

/-- The counts of a message and its codes pass HDRW's checks (46_container_codec.md R242, R243). -/
theorem hdrwBody_message : hdrwBody f (messageReady s bs) = .done (messageHeaded f s bs) := by
  obtain ⟨⟨-, hsize⟩, -⟩ := hsizes
  have hshort : bs.length < 2 ^ 32 := by omega
  have hbits := codeBits_length_le (huffmanCodes bs) bs
  have hcount : bitCount (messageReady s bs).freq (messageReady s bs).code = (codeBits (huffmanCodes bs) bs).length :=
    bitCount_countBytes hshort _
  have hcoded : ∀ sym, freqAt (messageReady s bs) sym ≠ 0#32 → (codeAt (messageReady s bs) sym).valid = true := by
    intro sym hpresent
    refine (huffmanCodes_valid_iff hshort sym).2 (of_not_not fun habsent => hpresent ?_)
    exact (tableGet_countBytes bs sym).trans (by rw [List.count_eq_zero_of_not_mem habsent])
  have hbody := hdrwBody_of_fits (s := messageReady s bs) f hcoded (by omega)
  rw [hcount] at hbody
  rw [containerOf_length] at hroom
  exact hbody (le_of_add_le_left hroom)

variable (hbuf : IbufHolds s bs)
include hbuf

theorem encodeBody_message : encodeBody (messageHeaded f s bs) = .done (compressWork f s bs) := by
  have hout := messageHeaded_outLen hsizes hroom
  obtain ⟨⟨-, hsize⟩, -⟩ := hsizes
  have hcovers : Covers (messageHeaded f s bs).code bs := fun b => (huffmanCodes_valid_iff (by omega) b).2
  have hscan := encodeScan_of_ibufHolds (s := messageHeaded f s bs) hbuf hcovers
  rw [containerOf_length, ← hout] at hroom
  have hbody := encodeBody_of_scan_ok (s := messageHeaded f s bs) (hbuf.1.trans_le hin) (le_of_add_le_left hroom) hscan
  exact hbody.trans (if_neg hroom.not_gt)

/-- COMPRESS of a message whose container fits writes it, in either format. -/
theorem compressBody_message : compressBody f s = .done (compressWork f s bs) := by
  rw [compressBody_eq]
  dsimp only
  rw [freqBody_counts hbuf hin, andThen_done, buildBody_eq, andThen_done, assignBody_message, andThen_done,
    hdrwBody_message hsizes hroom hin, andThen_done, encodeBody_message hsizes hroom hin hbuf]

end

/-! ## DECOMPRESS -/

section
variable {s : State} {payload : List Byte} (hin : s.inLen.toNat ≤ s.params.ibufBytes)
include hin

/-- What HDRP leaves of a container is what DECODE needs to consume exactly its bits (45_bit_decoder.md R232). -/
theorem decodeInput_of_container {S : BitStr} {hl : Nat} (code : Vector CodeEntry 256)
    (hlen : s.inLen.toNat = hl + payload.length) (hbytes : BytesAt s.ibuf hl payload) (hsize : S.length < 2 ^ 32)
    (hlength : payload.length = ceil8 S.length)
    (hpayload : ∀ k < S.length, (payload[k / 8]?).map (payloadBit · k) = S[k]?) :
    DecodeInput (hdrpSuccess .extended ⟨code, hl, S.length⟩ s) S := by
  have hword := s.inLen.isLt
  have hfits := length_le_ceil8 S.length
  have hoff : (hdrpSuccess .extended ⟨code, hl, S.length⟩ s).payOff.toNat = hl :=
    Nat.mod_eq_of_lt (show hl < 2 ^ 32 by omega)
  have hbits : (hdrpSuccess .extended ⟨code, hl, S.length⟩ s).payBits.toNat = S.length := Nat.mod_eq_of_lt hsize
  have hinLen : (hdrpSuccess .extended ⟨code, hl, S.length⟩ s).inLen.toNat = hl + payload.length := hlen
  refine ⟨hin, by omega, by omega, hbits.symm, fun k hk => ?_⟩
  rw [← hpayload k hk, ← hbytes (k / 8) (by omega), hoff]
  rfl

/-- DECOMPRESS of a prefix code's header and the codes of a message recovers the message (47_composite.md R271). -/
theorem decompressBody_of_container {lines : List (BitStr × Symbol)} {code : Vector CodeEntry 256}
    {M : List Byte} (hsizes : s.params.wf) (hprefix : PrefixCode (lines.map Prod.swap))
    (htable : lineTable lines = code) (hcovers : Covers code M) (hroom : M.length ≤ s.params.obufBytes)
    (hlength : payload.length = ceil8 (codeBits code M).length)
    (hpayload : ∀ k < (codeBits code M).length, (payload[k / 8]?).map (payloadBit · k) = (codeBits code M)[k]?)
    (h : IbufHolds s (headerOf lines (some (codeBits code M).length) ++ payload)) :
    decompressBody .extended s = .done (decodeWork (hdrpSuccess .extended
      ⟨code, (headerOf lines (some (codeBits code M).length)).length, (codeBits code M).length⟩ s) M) := by
  subst htable
  have hsize : (codeBits (lineTable lines) M).length < 2 ^ 32 := by
    have hle := codeBits_length_le (lineTable lines) M
    obtain ⟨-, -, hobuf⟩ := hsizes
    omega
  have hbytes := (inputAt_of_ibufHolds h).right.2
  rw [Nat.zero_add] at hbytes
  have hdecode := decodeInput_of_container hin (lineTable lines) (h.1.trans List.length_append) hbytes hsize hlength
    hpayload
  have hnonempty : NoEmptyCode (lineTable lines) := writeCodes_noEmptyCode noEmptyCode_empty hprefix.length
  rw [decompressBody, hdrpBody_of_header hin (goodLines_of_prefixCode hprefix) hsize hlength h, andThen_done]
  exact decodeBody_of_message hsizes hprefix.table_prefixFree (noEmptyCode_iff.1 hnonempty) hcovers hroom hdecode

end

/-! ## The round trip -/

theorem ibufHolds_copy {u t : State} {bs : List Byte} (hbytes : BytesAt t.obuf 0 bs) (hlen : t.outLen.toNat = bs.length)
    (hulen : u.inLen = t.outLen) (hcopy : ∀ j < t.outLen.toNat, u.ibuf.read j = t.obuf.read j) : IbufHolds u bs := by
  refine ⟨hulen ▸ hlen, fun j hj => ?_⟩
  rw [hcopy j (hlen ▸ hj), ← hbytes j hj, Nat.zero_add]

/-- Settles O57: the container holds the message's codes as a header and its bits as a payload, which DECOMPRESS reads
back in any machine that holds a copy. -/
theorem containerRoundTrip : Obligations.ContainerRoundTrip := by
  intro s bs hsizes hbuf hin hroom
  refine ⟨_, congrArg CmdResult.finish (compressBody_message hsizes hroom hin hbuf), rfl,
    fun u husizes hulen hcopy huin huroom => ?_⟩
  have hshort : bs.length < 2 ^ 32 := hbuf.1 ▸ s.inLen.isLt
  have hbytes : BytesAt (compressWork .extended s bs).obuf 0 (containerOf .extended bs) := fun j hj => by
    rw [compressWork_obuf hsizes hroom, read_writeBytes_inside _ _ _ hj]
  have hholds := ibufHolds_copy hbytes (compressWork_outLen hsizes hroom) hulen hcopy
  have hpayload : ∀ k < (codeBits (huffmanCodes bs) bs).length,
      ((pack (codeBits (huffmanCodes bs) bs))[k / 8]?).map (payloadBit · k) = (codeBits (huffmanCodes bs) bs)[k]? :=
    (packIsMostSignificantFirst _).2.1
  have hbody := decompressBody_of_container (hulen ▸ huin) husizes
    (codeLines_prefixCode (huffmanCodes_noEmptyCode bs) (huffmanCodes_prefixFree bs)) (lineTable_huffmanCodes bs)
    (fun b => (huffmanCodes_valid_iff hshort b).2) huroom (pack_length _) hpayload hholds
  exact ⟨_, congrArg CmdResult.finish hbody, rfl, Nat.mod_eq_of_lt hshort, (decodeWork_frame _ bs).1⟩

end Sys2Proof.Machine
end

section
/-! PROOFS. HDRP on a header of good lines, in either format and whatever payload bytes follow it: the table it gives and
the registers it sets (46_container_codec.md R252, R256; O50). -/

namespace Sys2Proof.Machine

/-! ## The table of good lines -/

theorem map_fst_swap_lines (lines : List (BitStr × Symbol)) :
    (lines.map Prod.swap).map Prod.fst = lines.map Prod.snd := List.map_map ..

theorem tableGet_lineTable_of_mem {lines : List (BitStr × Symbol)} (hsymbols : (lines.map Prod.snd).Nodup)
    {x : BitStr × Symbol} (hx : x ∈ lines) : tableGet (lineTable lines) x.2 = .ofBits x.1 :=
  tableGet_writeCodes_of_mem (x := x.swap) ((map_fst_swap_lines lines).symm ▸ hsymbols) (List.mem_map_of_mem hx) _

theorem tableGet_lineTable_of_not_mem {lines : List (BitStr × Symbol)} {sym : Symbol}
    (hsym : sym ∉ lines.map Prod.snd) : tableGet (lineTable lines) sym = .empty :=
  (tableGet_writeCodes_of_not_mem (by rwa [map_fst_swap_lines]) _).trans (tableGet_empty sym)

/-- A symbol's entry is its line's code, or empty where it has no line (46_container_codec.md R252). -/
theorem tableGet_lineTable {lines : List (BitStr × Symbol)} (hgood : GoodLines lines) (sym : Symbol) :
    tableGet (lineTable lines) sym = lineEntry lines sym := by
  obtain ⟨-, -, hsymbols, -⟩ := hgood
  rw [lineEntry, lineCode]
  cases hfind : lines.find? fun x => x.2 == sym with
  | some x =>
    obtain rfl : x.2 = sym := by simpa using List.find?_some hfind
    exact tableGet_lineTable_of_mem hsymbols (List.mem_of_find?_eq_some hfind)
  | none =>
    refine tableGet_lineTable_of_not_mem fun hmem => ?_
    obtain ⟨x, hx, hsym⟩ := List.mem_map.1 hmem
    exact List.find?_eq_none.1 hfind x hx (beq_iff_eq.2 hsym)

/-! ## The parts of a header -/

/-- A header of either format: its beginning, its bit-count line if it has one, "HE" (30_encoding.md R141, R142). -/
theorem headerOf_formatBits (f : Format) (lines : List (BitStr × Symbol)) (bits : Nat) :
    headerOf lines (formatBits f bits) =
      headerStart lines.length lines ++ formatLine f bits ++ [chH, chE, chLF] := by
  cases f with
  | extended => exact headerOf_some lines bits
  | legacy => exact (headerOf_none lines).trans (by rw [formatLine, List.append_nil])

section
variable {s : State} {p : Nat}

/-- The bit-count line is read where the format has one. -/
theorem parseBitCount_of_formatLine (f : Format) {bits : Nat} (hbits : bits < 2 ^ 32)
    (h : InputAt s p (formatLine f bits)) :
    parseBitCount s p f = .ok ((formatBits f bits).getD 0, p + (formatLine f bits).length) := by
  cases f with
  | extended => exact parseBitCount_of_line hbits h
  | legacy => rfl

theorem parsedPayBits_formatBits (f : Format) (bits hl : Nat) :
    parsedPayBits s ((formatBits f bits).getD 0) hl f = parsedPayBits s bits hl f := by
  cases f <;> rfl

/-- After the last line a bit count and "HE" leave the check of the payload length (46_container_codec.md R252). -/
theorem parseRest_of_mark (f : Format) {table : Vector CodeEntry 256} {bits : Nat} (hbits : bits < 2 ^ 32)
    (h : InputAt s p (formatLine f bits ++ [chH, chE, chLF])) :
    parseRest f s 0 table p = (parsedPayBits s bits (p + (formatLine f bits ++ [chH, chE, chLF]).length) f >>=
      fun payBits => .ok ⟨table, p + (formatLine f bits ++ [chH, chE, chLF]).length, payBits⟩) := by
  rw [parseRest, parseLines, bind_ok]
  dsimp only
  rw [parseBitCount_of_formatLine f hbits h.left, bind_ok]
  dsimp only
  rw [parseEnd_of_mark f h.right, bind_ok, parsedPayBits_formatBits, List.length_append, Nat.add_assoc]

end

section
variable {s : State} {lines : List (BitStr × Symbol)} (hin : s.inLen.toNat ≤ s.params.ibufBytes)
  (hgood : GoodLines lines)
include hin hgood

/-- The parse of a header of good lines comes down to the check of the payload length. -/
theorem parseHeader_of_header (f : Format) {bits : Nat} (hbits : bits < 2 ^ 32)
    (h : InputAt s 0 (headerOf lines (formatBits f bits))) :
    parseHeader f s = (parsedPayBits s bits (headerOf lines (formatBits f bits)).length f >>=
      fun payBits => .ok ⟨lineTable lines, (headerOf lines (formatBits f bits)).length, payBits⟩) := by
  rw [headerOf_formatBits, List.append_assoc] at h ⊢
  have hmark := h.right
  rw [Nat.zero_add] at hmark
  rw [parseHeader_after_lines hin hgood f (n := 0) hgood.1 h.left, List.length_append]
  exact parseRest_of_mark f hbits hmark

/-- HDRP accepts a header of good lines whose payload length passes the format's check. -/
theorem hdrpBody_of_payBits (f : Format) {bits payBits : Nat} (hbits : bits < 2 ^ 32)
    (h : InputAt s 0 (headerOf lines (formatBits f bits)))
    (hpay : parsedPayBits s bits (headerOf lines (formatBits f bits)).length f = .ok payBits) :
    hdrpBody f s =
      .done (hdrpSuccess f ⟨lineTable lines, (headerOf lines (formatBits f bits)).length, payBits⟩ s) := by
  rw [hdrpBody, parseHeader_of_header hin hgood f hbits h, hpay, bind_ok]

end

/-- Settles O50: the header's lines are its table, and the payload length passes the check of the format. -/
theorem hdrpReadsHeader : Obligations.HdrpReadsHeader := by
  refine ⟨fun s lines bits payload hgood hbits hpayload h hin => ?_, fun s lines payload hgood h hin => ?_⟩
  · exact ⟨lineTable lines, congrArg CmdResult.finish (hdrpBody_of_header hin hgood hbits hpayload h),
      tableGet_lineTable hgood⟩
  · have hrest : s.inLen.toNat - (headerOf lines none).length = payload.length := by
      rw [h.1, List.length_append, Nat.add_sub_cancel_left]
    have hpay : parsedPayBits s 0 (headerOf lines none).length .legacy = .ok (8 * payload.length) := by
      rw [parsedPayBits, hrest]
    exact ⟨lineTable lines, congrArg CmdResult.finish
      (hdrpBody_of_payBits hin hgood .legacy (Nat.two_pow_pos 32) (inputAt_of_ibufHolds h).left hpay),
      tableGet_lineTable hgood⟩

end Sys2Proof.Machine
end

section
/-! PROOFS. HDRP on an input that ends inside a header: a parser that meets the end of the input says so, and until then reads
what it would read of the whole header (46_container_codec.md R248; part of O52). -/

namespace Sys2Proof.Machine

/-! ## Scans of a cut input -/

/-- The input of `s` is a beginning of the input of `t`. -/
structure CutInput (s t : State) : Prop where
  inLen : s.inLen.toNat ≤ t.inLen.toNat
  ibuf : ∀ i < s.inLen.toNat, s.ibuf.read i = t.ibuf.read i

/-- The end of the input (46_container_codec.md R248). -/
def truncation (s : State) : Stop := .raise .hdrTrunc s.inLen.toNat

/-- A scan of the cut input `s` meets its end, or does what the scan of the whole input does. -/
def CutScan {α : Type} (s : State) (cut whole : Except Stop α) : Prop := cut = .error (truncation s) ∨ cut = whole

section
variable {s t : State} {α β : Type}

theorem cutScan_refl (x : Except Stop α) : CutScan s x x := .inr rfl

theorem cutScan_bind {x y : Except Stop α} {k l : α → Except Stop β} (h : CutScan s x y)
    (hnext : ∀ a, CutScan s (k a) (l a)) : CutScan s (x >>= k) (y >>= l) := by
  obtain rfl | rfl := h
  · exact .inl rfl
  · cases x with
    | ok a => exact hnext a
    | error e => exact .inr rfl

theorem cutScan_ite {c : Prop} [Decidable c] {x x' y y' : Except Stop α} (hx : CutScan s x x') (hy : CutScan s y y') :
    CutScan s (if c then x else y) (if c then x' else y') := by
  split
  · exact hx
  · exact hy

/-- Behind a part that answers on the whole input a truncated rest makes the cut scan truncated. -/
theorem truncated_bind {x y : Except Stop α} {a : α} {k : α → Except Stop β} (h : CutScan s x y) (hwhole : y = .ok a)
    (hnext : k a = .error (truncation s)) : (x >>= k) = .error (truncation s) := by
  subst hwhole
  obtain rfl | rfl := h
  · rfl
  · exact hnext

variable (h : CutInput s t)
include h

theorem cutScan_peekByte (p : Nat) : CutScan s (peekByte s p) (peekByte t p) := by
  obtain hp | hend := Nat.lt_or_ge p s.inLen.toNat
  · refine .inr ?_
    rw [peekByte, if_neg hp.not_ge, peekByte, if_neg (hp.trans_le h.inLen).not_ge, inputByte, inputByte, h.ibuf p hp]
  · exact .inl (if_pos hend)

theorem cutScan_expectByte (ch : Byte) (err : ErrCode) (p : Nat) :
    CutScan s (expectByte s ch err p) (expectByte t ch err p) :=
  cutScan_bind (cutScan_peekByte h p) fun _ => cutScan_refl _

theorem cutScan_decLoop (err : ErrCode) (start : Nat) (first : Byte) (left n v p : Nat) :
    CutScan s (decLoop s err start first left n v p) (decLoop t err start first left n v p) := by
  induction left generalizing n v p with
  | zero =>
    rw [decLoop_zero, decLoop_zero]
    exact cutScan_bind (cutScan_peekByte h p) fun _ => cutScan_refl _
  | succ left ih =>
    rw [decLoop_succ, decLoop_succ]
    exact cutScan_bind (cutScan_peekByte h p) fun _ =>
      cutScan_ite (cutScan_refl _) (cutScan_ite (cutScan_refl _) (ih ..))

theorem cutScan_decField (err : ErrCode) (maxDigits p : Nat) :
    CutScan s (decField s err maxDigits p) (decField t err maxDigits p) :=
  cutScan_bind (cutScan_peekByte h p) fun _ => cutScan_ite (cutScan_refl _) (cutScan_decLoop h ..)

theorem cutScan_codeField (left len v p : Nat) : CutScan s (codeField s left len v p) (codeField t left len v p) := by
  induction left generalizing len v p with
  | zero =>
    rw [codeField_zero, codeField_zero]
    exact cutScan_bind (cutScan_peekByte h p) fun _ => cutScan_refl _
  | succ left ih =>
    rw [codeField_succ, codeField_succ]
    exact cutScan_bind (cutScan_peekByte h p) fun _ =>
      cutScan_ite (cutScan_refl _) (cutScan_ite (ih ..) (cutScan_refl _))

theorem cutScan_parseLine (q : Nat) : CutScan s (parseLine s q) (parseLine t q) :=
  cutScan_bind (cutScan_peekByte h q) fun _ => cutScan_ite (cutScan_refl _) <|
    cutScan_bind (cutScan_codeField h ..) fun _ => cutScan_bind (cutScan_peekByte h _) fun _ =>
      cutScan_bind (cutScan_expectByte h ..) fun _ => cutScan_refl _

theorem cutScan_parseLines (n : Nat) (table : Vector CodeEntry 256) (q : Nat) :
    CutScan s (parseLines s n table q) (parseLines t n table q) := by
  induction n generalizing table q with
  | zero => exact cutScan_refl _
  | succ n ih => exact cutScan_bind (cutScan_parseLine h q) fun _ => cutScan_ite (cutScan_refl _) (ih ..)

theorem cutScan_parseBitCount (p : Nat) (f : Format) : CutScan s (parseBitCount s p f) (parseBitCount t p f) := by
  cases f with
  | legacy => exact cutScan_refl _
  | extended => exact cutScan_bind (cutScan_decField h ..) fun _ => cutScan_refl _

theorem cutScan_parseEnd (f : Format) (q : Nat) : CutScan s (parseEnd s f q) (parseEnd t f q) :=
  cutScan_bind (cutScan_peekByte h q) fun _ => cutScan_ite (cutScan_refl _) <|
    cutScan_bind (cutScan_expectByte h ..) fun _ => cutScan_expectByte h ..

end

/-! ## A cut header -/

section
variable {s t : State} {f : Format}

/-- The "HE" line lies inside the input. -/
theorem parseEnd_le {q hl : Nat} (h : parseEnd s f q = .ok hl) : hl ≤ s.inLen.toNat := by
  obtain ⟨b, -, h⟩ := bind_eq_ok.1 h
  split at h
  · split at h <;> cases h
  · obtain ⟨p, -, h⟩ := bind_eq_ok.1 h
    obtain ⟨c, hpeek, h⟩ := bind_eq_ok.1 h
    obtain ⟨hp, -⟩ := peekByte_eq_ok.1 hpeek
    split at h <;> cases h
    exact hp

/-- An input cut before the end of a header that parses is truncated (46_container_codec.md R248). -/
theorem parseHeader_truncated (h : CutInput s t) (hin : s.inLen.toNat ≤ s.params.ibufBytes) {header : ParsedHeader}
    (hparse : parseHeader f t = .ok header) (hcut : s.inLen.toNat < header.length) :
    parseHeader f s = .error (truncation s) := by
  rw [parseHeader] at hparse
  split at hparse
  · cases hparse
  obtain ⟨p1, hH, hparse⟩ := bind_eq_ok.1 hparse
  obtain ⟨p2, hS, hparse⟩ := bind_eq_ok.1 hparse
  obtain ⟨nstart, hLF, hparse⟩ := bind_eq_ok.1 hparse
  obtain ⟨⟨N, p3⟩, hN, hparse⟩ := bind_eq_ok.1 hparse
  dsimp only at hparse
  split at hparse
  · cases hparse
  next hcount =>
  obtain ⟨⟨table, p4⟩, hlines, hparse⟩ := bind_eq_ok.1 hparse
  obtain ⟨⟨B, p5⟩, hB, hparse⟩ := bind_eq_ok.1 hparse
  obtain ⟨hl, hend, hparse⟩ := bind_eq_ok.1 hparse
  obtain ⟨bits, -, hparse⟩ := bind_eq_ok.1 hparse
  cases hparse
  have hcutEnd : parseEnd s f p5 = .error (truncation s) :=
    (cutScan_parseEnd h f p5).resolve_right fun heq => (parseEnd_le (heq.trans hend)).not_gt hcut
  rw [parseHeader, if_neg hin.not_gt]
  refine truncated_bind (cutScan_expectByte h ..) hH ?_
  refine truncated_bind (cutScan_expectByte h ..) hS ?_
  refine truncated_bind (cutScan_expectByte h ..) hLF ?_
  refine truncated_bind (cutScan_decField h ..) hN ?_
  refine (if_neg hcount).trans ?_
  refine truncated_bind (cutScan_parseLines h ..) hlines ?_
  refine truncated_bind (cutScan_parseBitCount h ..) hB ?_
  exact congrArg (· >>= _) hcutEnd

end

/-! ## A machine that holds a header -/

/-- The machine with the bytes `bs` as its input, in a buffer of their size. -/
def withInput (s : State) (bs : List Byte) : State :=
  { s with
    params := ⟨bs.length, s.params.obufBytes⟩
    inLen := BitVec.ofNat 32 bs.length
    ibuf := Memory.writeBytes [] 0 bs }

theorem ibufHolds_withInput (s : State) {bs : List Byte} (h : bs.length < 2 ^ 32) : IbufHolds (withInput s bs) bs := by
  refine ⟨Nat.mod_eq_of_lt h, fun i hi => ?_⟩
  have hread := read_writeBytes_inside [] 0 bs hi
  rwa [Nat.zero_add] at hread

theorem cutInput_withInput {s : State} {bs whole : List Byte} (h : IbufHolds s bs) (hprefix : bs <+: whole)
    (hsize : whole.length < 2 ^ 32) : CutInput s (withInput s whole) := by
  obtain ⟨hlen, hbytes⟩ := h
  obtain ⟨hwhole, hread⟩ := ibufHolds_withInput s hsize
  have hle := hprefix.length_le
  refine ⟨by omega, fun i hi => ?_⟩
  rw [hbytes i (hlen ▸ hi), hread i (by omega), List.getElem?_eq_getElem (hlen ▸ hi)]
  exact (List.prefix_iff_getElem?.1 hprefix i (hlen ▸ hi)).symm

/-- A header of good lines is short (30_encoding.md R144). -/
theorem headerOf_length_le (f : Format) {lines : List (BitStr × Symbol)} (hgood : GoodLines lines) {bits : Nat}
    (hbits : bits < 2 ^ 32) : (headerOf lines (formatBits f bits)).length ≤ 2 ^ 17 := by
  obtain ⟨hcount, hlength, -, -⟩ := hgood
  have hdec : (dec lines.length).length ≤ 3 := dec_length_le (by omega)
  have hbitLine : (formatLine f bits).length ≤ 11 := by
    cases f with
    | extended =>
      have hdigits : (dec bits).length ≤ 10 := dec_length_le (hbits.trans (by decide))
      rw [formatLine, bitCountLine_length]
      omega
    | legacy => exact Nat.zero_le _
  have hlines : (lines.map fun x => x.1.length + 3).sum ≤ lines.length * 258 := by
    rw [← List.length_map fun x : BitStr × Symbol => x.1.length + 3]
    refine List.sum_le_card_nsmul _ _ fun n hn => ?_
    obtain ⟨x, hx, rfl⟩ := List.mem_map.1 hn
    exact Nat.add_le_add_right (hlength x hx).2 3
  rw [headerOf_formatBits, List.length_append, List.length_append, headerStart_length]
  simp only [List.length_cons, List.length_nil]
  omega

/-- A header with as many payload bytes as its bit count asks for. -/
def withPayload (header : List Byte) (bits : Nat) : List Byte := header ++ List.replicate (ceil8 bits) 0#8

theorem withPayload_length {header : List Byte} {bits : Nat} :
    (withPayload header bits).length = header.length + ceil8 bits := by
  rw [withPayload, List.length_append, List.length_replicate]

theorem parsedPayBits_withPayload {s : State} (f : Format) {bits hl : Nat} (h : s.inLen.toNat = hl + ceil8 bits) :
    ∃ payBits, parsedPayBits s bits hl f = .ok payBits := by
  cases f with
  | extended => exact ⟨bits, if_neg (by omega)⟩
  | legacy => exact ⟨_, rfl⟩

/-- An input that is a proper beginning of a header of good lines is truncated. -/
theorem parseHeader_of_beginning {s : State} (f : Format) {lines : List (BitStr × Symbol)} {bits : Nat} {bs : List Byte}
    (hin : s.inLen.toNat ≤ s.params.ibufBytes) (hgood : GoodLines lines) (hbits : bits < 2 ^ 32) (h : IbufHolds s bs)
    (hprefix : bs <+: headerOf lines (formatBits f bits)) (hproper : bs ≠ headerOf lines (formatBits f bits)) :
    parseHeader f s = .error (truncation s) := by
  have hlength := headerOf_length_le f hgood hbits
  have hshort : bs.length < (headerOf lines (formatBits f bits)).length :=
    lt_of_le_of_ne hprefix.length_le fun heq => hproper (hprefix.eq_of_length heq)
  have hsize : (withPayload (headerOf lines (formatBits f bits)) bits).length < 2 ^ 32 := by
    rw [withPayload_length, ceil8]
    omega
  have hholds := ibufHolds_withInput s hsize
  obtain ⟨payBits, hpay⟩ := parsedPayBits_withPayload f (hholds.1.trans withPayload_length)
  have hparse := parseHeader_of_header hholds.1.le hgood f hbits (inputAt_of_ibufHolds hholds).left
  rw [hpay, bind_ok] at hparse
  have hcut := cutInput_withInput h (hprefix.trans (List.prefix_append ..)) hsize
  exact parseHeader_truncated hcut hin hparse (h.1 ▸ hshort)

end Sys2Proof.Machine
end

section
/-! PROOFS. HDRP on malformed input: each byte at fault, the error it raises and where (46_container_codec.md R248 to R257;
O52). -/

namespace Sys2Proof.Machine

/-! ## The bytes read before an error -/

theorem bind_error {α β : Type} (e : Stop) (k : α → Except Stop β) : ((Except.error e : Except Stop α) >>= k) = .error e :=
  rfl

theorem isDigit_iff {b : Byte} : isDigit b = true ↔ AsciiDigit b := by
  rw [isDigit, Bool.and_eq_true, decide_eq_true_iff, decide_eq_true_iff]
  rfl

section
variable {s : State} {p : Nat} {b : Byte}

theorem inputAt_of_inputStarts {bs : List Byte} (h : InputStarts s bs) : InputAt s 0 bs :=
  ⟨by rw [Nat.zero_add]; exact h.1, h.2⟩

theorem InputAt.expect_other {ch : Byte} (h : InputAt s p [b]) (hb : b ≠ ch) (err : ErrCode) :
    expectByte s ch err p = .error (.raise err p) := by
  rw [expectByte, h.peek, bind_ok, if_neg hb]

/-! ## Decimal fields -/

section
variable {err : ErrCode} {start left n v : Nat} {first : Byte}

/-- Digits that are allowed are read. -/
theorem decLoop_skip_digits {ds : List Byte} (h : InputAt s p ds) (hdigits : ∀ d ∈ ds, AsciiDigit d) :
    decLoop s err start first (left + ds.length) n v p =
      decLoop s err start first left (n + ds.length) (ds.foldl (fun v d => 10 * v + digitVal d) v) (p + ds.length) := by
  induction ds generalizing n v p with
  | nil => rfl
  | cons d ds ih =>
    obtain ⟨hd, hds⟩ := List.forall_mem_cons.1 hdigits
    rw [List.length_cons, ← Nat.add_assoc left, decLoop_of_digit h.peek (isDigit_iff.2 hd), ih h.tail hds,
      List.foldl_cons, Nat.add_assoc, Nat.add_assoc, Nat.add_comm 1]

/-- A byte that is neither a digit nor LF, or a digit too many, is at fault itself. -/
theorem decLoop_of_bad_byte (h : InputAt s p [b]) (hline : b ≠ chLF) (hbad : AsciiDigit b → left = 0) :
    decLoop s err start first left n v p = .error (.raise err p) := by
  cases left with
  | zero => rw [decLoop_zero, h.peek, bind_ok, if_neg hline, ite_self]
  | succ left =>
    have hdigit : isDigit b = false := Bool.not_eq_true _ ▸ fun hb => Nat.succ_ne_zero _ (hbad (isDigit_iff.1 hb))
    rw [decLoop_succ, h.peek, bind_ok, if_neg hline, hdigit]
    rfl

/-- A leading zero is at fault at the field's start. -/
theorem decLoop_of_leading_zero (h : InputAt s p [chLF]) (hn : 1 < n) :
    decLoop s err start chZero left n v p = .error (.raise err start) := by
  cases left with
  | zero => rw [decLoop_zero, h.peek, bind_ok, if_pos rfl, if_pos ⟨hn, rfl⟩]
  | succ left => rw [decLoop_succ, h.peek, bind_ok, if_pos rfl, if_pos ⟨hn, rfl⟩]

/-- After the allowed digits of a field the loop goes on with what follows them. -/
theorem decField_skip_digits {d : Byte} {ds : List Byte} (h : InputAt s p (d :: ds))
    (hdigits : ∀ e ∈ d :: ds, AsciiDigit e) :
    decField s err (left + (d :: ds).length) p = decLoop s err p d left (1 + ds.length)
      (ds.foldl (fun v d => 10 * v + digitVal d) (digitVal d)) (p + (d :: ds).length) := by
  obtain ⟨hd, hds⟩ := List.forall_mem_cons.1 hdigits
  rw [decField, h.peek, bind_ok, if_neg (by rw [isDigit_iff.2 hd]; decide), List.length_cons, ← Nat.add_assoc left,
    Nat.add_sub_cancel, decLoop_skip_digits h.tail hds, Nat.add_assoc, Nat.add_comm 1 ds.length]

/-- `decfield` finds the byte at fault (46_container_codec.md R248, R257). -/
theorem decField_of_badDecimal {max off : Nat} {x : List Byte} (hmax : 0 < max) (hbad : BadDecimal max x off)
    (h : InputAt s p x) : decField s err max p = .error (.raise err (p + off)) := by
  obtain ⟨ds, b, rfl, hdigits, hle, rfl, hb⟩ | ⟨ds, rfl, hdigits, hlong, hle, hzero, rfl⟩ := hbad
  · cases ds with
    | nil =>
      have hnot : isDigit b = false := by
        rw [← Bool.not_eq_true, isDigit_iff]
        exact hb.elim And.left fun hfull => absurd hfull.2 hmax.ne
      rw [decField, InputAt.peek h, bind_ok, hnot]
      rfl
    | cons d ds =>
      obtain ⟨left, rfl⟩ := Nat.exists_eq_add_of_le' hle
      have hline : b ≠ chLF := by
        rintro rfl
        obtain ⟨-, hne | hnil⟩ | ⟨hdigit, -⟩ := hb
        · exact hne rfl
        · cases hnil
        · exact absurd hdigit (by decide)
      rw [decField_skip_digits h.left hdigits]
      exact decLoop_of_bad_byte h.right hline fun hdigit => by
        obtain ⟨hnot, -⟩ | ⟨-, hfull⟩ := hb
        · exact absurd hdigit hnot
        · omega
  · obtain ⟨d, ds, rfl⟩ := List.exists_cons_of_length_pos (Nat.zero_lt_of_lt hlong)
    obtain rfl : d = chZero := Option.some.inj hzero
    obtain ⟨left, rfl⟩ := Nat.exists_eq_add_of_le' hle
    rw [decField_skip_digits h.left hdigits]
    exact decLoop_of_leading_zero h.right (by rwa [Nat.add_comm])

end

/-! ## Table lines -/

/-- Code characters that are allowed are read. -/
theorem codeField_skip_bits {c : BitStr} {left len v : Nat} (h : InputAt s p (c.map bitChar)) :
    codeField s (left + c.length) len v p =
      codeField s left (len + c.length) (c.foldl pushBit v) (p + (c.map bitChar).length) := by
  induction c generalizing len v p with
  | nil => rfl
  | cons b c ih =>
    rw [List.length_cons, ← Nat.add_assoc left, codeField_of_bit (InputAt.peek h), ih (InputAt.tail h), List.map_cons,
      List.length_cons, List.foldl_cons, Nat.add_assoc, Nat.add_assoc, Nat.add_comm 1, Nat.add_comm 1]

/-- A byte that does not belong in a code field is at fault. -/
theorem codeField_of_bad_byte {left len v : Nat} (h : InputAt s p [b]) (hcomma : len ≠ 0 → b ≠ chComma)
    (hbit : left ≠ 0 → b ≠ chZero ∧ b ≠ chOne) : codeField s left len v p = .error (.raise .hdrLine p) := by
  have hnoComma : ¬(b = chComma ∧ 1 ≤ len) := fun ⟨hb, hlen⟩ => hcomma (Nat.ne_of_gt hlen) hb
  cases left with
  | zero => rw [codeField_zero, h.peek, bind_ok, if_neg hnoComma, ite_self]
  | succ left =>
    rw [codeField_succ, h.peek, bind_ok, if_neg hnoComma, if_neg (not_or.2 (hbit (Nat.succ_ne_zero _)))]

theorem parseLine_of_H (h : InputAt s p [chH]) : parseLine s p = .error (.raise .hdrNlines p) := by
  rw [parseLine, h.peek, bind_ok, if_pos rfl]

/-- A line that does not begin with H stops where its code field does. -/
theorem parseLine_of_codeField_error {e : Stop} (hpeek : peekByte s p = .ok b) (hb : b ≠ chH)
    (hfield : codeField s 255 0 0 p = .error e) : parseLine s p = .error e := by
  rw [parseLine, hpeek, bind_ok, if_neg hb, hfield, bind_error]

theorem parseLine_of_bad_code {c : BitStr} (hlen : c.length ≤ 255) (hH : c = [] → b ≠ chH)
    (hcomma : c ≠ [] → b ≠ chComma) (hbit : c.length < 255 → b ≠ chZero ∧ b ≠ chOne)
    (h : InputAt s p (c.map bitChar ++ [b])) : parseLine s p = .error (.raise .hdrLine (p + c.length)) := by
  have hfield : codeField s 255 0 0 p = .error (.raise .hdrLine (p + c.length)) := by
    have hskip := codeField_skip_bits (left := 255 - c.length) (len := 0) (v := 0) h.left
    rw [Nat.sub_add_cancel hlen, Nat.zero_add] at hskip
    rw [hskip, List.length_map]
    have hbad := h.right
    rw [List.length_map] at hbad
    exact codeField_of_bad_byte hbad (fun hne => hcomma fun hnil => hne (hnil ▸ rfl)) fun hne => hbit (by omega)
  cases c with
  | nil => exact parseLine_of_codeField_error (InputAt.peek h) (hH rfl) hfield
  | cons d c => exact parseLine_of_codeField_error (InputAt.peek h) (by cases d <;> decide) hfield

theorem parseLine_of_no_lineFeed {c : BitStr} {sym : Symbol} (hpos : 1 ≤ c.length) (hlen : c.length ≤ 255) (hb : b ≠ chLF)
    (h : InputAt s p (c.map bitChar ++ [chComma, sym, b])) :
    parseLine s p = .error (.raise .hdrLine (p + c.length + 2)) := by
  have hsplit : c.map bitChar ++ [chComma, sym, b] = c.map bitChar ++ [chComma] ++ [sym, b] := by
    rw [List.append_assoc]
    rfl
  rw [hsplit] at h
  obtain ⟨d, hd, hpeek⟩ : ∃ d, d ≠ chH ∧ peekByte s p = .ok d := by
    obtain ⟨d, c, rfl⟩ := List.exists_cons_of_length_pos hpos
    exact ⟨bitChar d, by cases d <;> decide, InputAt.peek h⟩
  have hend := h.right
  rw [parseLine, hpeek, bind_ok, if_neg hd, codeField_of_bits h.left hlen (by rwa [Nat.zero_add]), bind_ok]
  dsimp only
  rw [hend.peek, bind_ok, InputAt.expect_other hend.tail hb, bind_error, List.length_append, List.length_map]
  rfl

/-! ## What follows the last line -/

theorem parseBitCount_of_bad (hfield : decField s .hdrBits 10 p = .error (.raise .hdrBits n)) :
    parseBitCount s p .extended = .error (.raise .hdrBits n) := by
  rw [parseBitCount, hfield, bind_error]

theorem parseBitCount_of_large {bits : Nat} (hlow : 2 ^ 32 ≤ bits) (hhigh : bits < 10 ^ 10)
    (h : InputAt s p (bitCountLine bits)) : parseBitCount s p .extended = .error (.raise .hdrBits p) := by
  rw [parseBitCount, decField_of_dec h (dec_length_le hhigh), bind_ok]
  exact if_pos (by omega)

/-- The error of a byte that is not the H of "HE": in the legacy format a code character is a further line. -/
def markError (f : Format) (b : Byte) : ErrCode :=
  if f = .legacy ∧ (b = chZero ∨ b = chOne) then .hdrNlines else .hdrEnd

theorem parseEnd_of_first {f : Format} (h : InputAt s p [b]) (hb : b ≠ chH) :
    parseEnd s f p = .error (.raise (markError f b) p) := by
  rw [parseEnd, h.peek, bind_ok, if_pos hb, markError]
  split <;> rfl

theorem parseEnd_of_second {f : Format} (h : InputAt s p [chH, b]) (hb : b ≠ chE) :
    parseEnd s f p = .error (.raise .hdrEnd (p + 1)) := by
  rw [parseEnd, InputAt.peek h, bind_ok, if_neg (not_not.2 rfl), InputAt.expect_other h.tail hb, bind_error]

theorem parseEnd_of_third {f : Format} (h : InputAt s p [chH, chE, b]) (hb : b ≠ chLF) :
    parseEnd s f p = .error (.raise .hdrEnd (p + 2)) := by
  rw [parseEnd, InputAt.peek h, bind_ok, if_neg (not_not.2 rfl), InputAt.expect h.tail, bind_ok]
  exact InputAt.expect_other h.tail.tail hb _

end

/-! ## The header -/

theorem hdrpEnds_of_parse {f : Format} {s : State} {e : ErrCode} {info : Nat}
    (h : parseHeader f s = .error (.raise e info)) : HdrpEnds f s e.code info := by
  have hbody : hdrpBody f s = .raise (hdrpFailure s) e info := by rw [hdrpBody, h]; rfl
  cases f <;> exact congrArg CmdResult.finish hbody

section
variable {f : Format} {s : State} (hin : s.inLen.toNat ≤ s.params.ibufBytes)
include hin

/-- A wrong byte in "HS" LF (46_container_codec.md R252). -/
theorem parseHeader_of_bad_start {p : List Byte} {b : Byte} (hp : p <+: [chH, chS, chLF]) (hproper : p ≠ [chH, chS, chLF])
    (hbad : ¬(p ++ [b]) <+: [chH, chS, chLF]) (h : InputAt s 0 (p ++ [b])) :
    parseHeader f s = .error (.raise .hdrStart p.length) := by
  have hother {ch : Byte} (hch : p ++ [ch] <+: [chH, chS, chLF]) : b ≠ ch := fun heq => hbad (heq ▸ hch)
  have hcases : p ∈ [chH, chS, chLF].inits := (List.mem_inits ..).2 hp
  have hinits : [chH, chS, chLF].inits = [[], [chH], [chH, chS], [chH, chS, chLF]] := rfl
  rw [hinits] at hcases
  rw [parseHeader, if_neg hin.not_gt]
  simp only [List.mem_cons, List.not_mem_nil, or_false] at hcases
  obtain rfl | rfl | rfl | rfl := hcases
  · rw [InputAt.expect_other h (hother ⟨[chS, chLF], rfl⟩), bind_error]
    rfl
  · rw [InputAt.expect h, bind_ok, InputAt.expect_other h.tail (hother ⟨[chLF], rfl⟩), bind_error]
    rfl
  · rw [InputAt.expect h, bind_ok, InputAt.expect h.tail, bind_ok,
      InputAt.expect_other h.tail.tail (hother ⟨[], rfl⟩), bind_error]
    rfl
  · exact absurd rfl hproper

/-- After "HS" a malformed count, or one over 256, ends the parse (46_container_codec.md R252). -/
theorem parseHeader_at_count {x : List Byte} (h : InputAt s 0 ([chH, chS, chLF] ++ x)) {e : Stop}
    (hcount : decField s .hdrCount 3 3 = .error e ∨ ∃ N p, decField s .hdrCount 3 3 = .ok (N, p) ∧ 256 < N ∧
      e = .raise .hdrCount 3) : parseHeader f s = .error e := by
  have hmark : InputAt s 0 [chH, chS, chLF] := h.left
  rw [parseHeader, if_neg hin.not_gt, hmark.expect, bind_ok, hmark.tail.expect, bind_ok, hmark.tail.tail.expect, bind_ok]
  obtain herror | ⟨N, p, hok, hN, rfl⟩ := hcount
  · exact congrArg (· >>= _) herror
  · refine (congrArg (· >>= _) hok).trans ?_
    exact if_pos hN

variable {N : Nat} {lines : List (BitStr × Symbol)} (hN : N ≤ 256) (hgood : GoodLines lines)
include hN hgood

/-- After good lines an error of what follows them ends the parse. -/
theorem hdrpEnds_of_parseRest (hle : lines.length ≤ N) {x : List Byte} {e : ErrCode} {info : Nat}
    (h : InputStarts s (headerStart N lines ++ x))
    (hrest : InputAt s (headerStart N lines).length x →
      parseRest f s (N - lines.length) (lineTable lines) (headerStart N lines).length = .error (.raise e info)) :
    HdrpEnds f s e.code info := by
  obtain ⟨n, rfl⟩ := Nat.exists_eq_add_of_le hle
  have hat := inputAt_of_inputStarts h
  have hx := hat.right
  rw [Nat.zero_add] at hx
  have hrest := hrest hx
  rw [Nat.add_sub_cancel_left] at hrest
  exact hdrpEnds_of_parse ((parseHeader_after_lines hin hgood f hN hat.left).trans hrest)

/-- After fewer good lines than the count an error of the next line ends the parse. -/
theorem hdrpEnds_at_line (hlt : lines.length < N) {x : List Byte} {e : ErrCode} {info : Nat}
    (h : InputStarts s (headerStart N lines ++ x))
    (hline : InputAt s (headerStart N lines).length x →
      parseLine s (headerStart N lines).length = .error (.raise e info)) : HdrpEnds f s e.code info := by
  refine hdrpEnds_of_parseRest hin hN hgood hlt.le h fun hx => ?_
  obtain ⟨n, hn⟩ := Nat.exists_eq_add_one_of_ne_zero (Nat.sub_ne_zero_of_lt hlt)
  rw [hn, parseRest, parseLines, hline hx, bind_error, bind_error]

/-- A line that repeats a symbol or a code of those before it is at fault at its start (46_container_codec.md R255). -/
theorem hdrpEnds_of_repeat (hlt : lines.length < N) {c : BitStr} {sym : Symbol} (hlen : 1 ≤ c.length ∧ c.length ≤ 255)
    (hrepeat : sym ∈ lines.map Prod.snd ∨ c ∈ lines.map Prod.fst)
    (h : InputStarts s (headerStart N lines ++ tableLine c sym)) :
    HdrpEnds f s ErrCode.hdrDup.code (headerStart N lines).length := by
  refine hdrpEnds_of_parseRest hin hN hgood hlt.le h fun hx => ?_
  obtain ⟨n, hn⟩ := Nat.exists_eq_add_one_of_ne_zero (Nat.sub_ne_zero_of_lt hlt)
  rw [hn, parseRest, parseLines, parseLine_of_tableLine hx hlen, bind_ok, if_pos, bind_error]
  obtain ⟨-, -, hsymbols, -⟩ := hgood
  rw [ParsedLine.repeats, Bool.or_eq_true, List.contains_iff_mem]
  refine hrepeat.imp (fun hsym => ?_) fun hcode => ?_
  · obtain ⟨y, hy, rfl⟩ := List.mem_map.1 hsym
    exact congrArg CodeEntry.valid (tableGet_lineTable_of_mem hsymbols hy)
  · obtain ⟨y, hy, rfl⟩ := List.mem_map.1 hcode
    rw [toList_eq_map_tableGet]
    exact List.mem_map.2 ⟨y.2, mem_allSymbols y.2, tableGet_lineTable_of_mem hsymbols hy⟩

/-- Every error of the line after fewer good lines than the count (46_container_codec.md R249, R252, R255). -/
theorem hdrpLineErrors (hlt : lines.length < N) : HdrpLineErrors f s N lines := by
  refine ⟨fun h => ?_, fun c sym hpos hlen hrepeat h => ?_, fun c b hlen hH hcomma hbit h => ?_,
    fun c sym b hpos hlen hb h => ?_⟩
  · exact hdrpEnds_at_line hin hN hgood hlt h parseLine_of_H
  · exact hdrpEnds_of_repeat hin hN hgood hlt ⟨hpos, hlen⟩ hrepeat h
  · rw [List.append_assoc] at h
    exact hdrpEnds_at_line hin hN hgood hlt h (parseLine_of_bad_code hlen hH hcomma hbit)
  · rw [List.append_assoc] at h
    exact hdrpEnds_at_line hin hN hgood hlt h (parseLine_of_no_lineFeed hpos hlen hb)

omit hN

/-- After the last line an error of the bit count ends the parse. -/
theorem hdrpEnds_at_bitCount {x : List Byte} {e : ErrCode} {info : Nat}
    (h : InputStarts s (headerStart lines.length lines ++ x))
    (hcount : InputAt s (headerStart lines.length lines).length x →
      parseBitCount s (headerStart lines.length lines).length f = .error (.raise e info)) : HdrpEnds f s e.code info := by
  refine hdrpEnds_of_parseRest hin hgood.1 hgood le_rfl h fun hx => ?_
  rw [Nat.sub_self, parseRest, parseLines, bind_ok]
  dsimp only
  rw [hcount hx, bind_error]

/-- After the bit count, where the format has one, an error of the "HE" line ends the parse. -/
theorem hdrpEnds_at_mark {bits : Nat} (hbits : bits < 2 ^ 32) {x : List Byte} {e : ErrCode} {info : Nat}
    (h : InputStarts s (headerStart lines.length lines ++ formatLine f bits ++ x))
    (hmark : InputAt s (headerStart lines.length lines ++ formatLine f bits).length x →
      parseEnd s f (headerStart lines.length lines ++ formatLine f bits).length = .error (.raise e info)) :
    HdrpEnds f s e.code info := by
  rw [List.append_assoc] at h
  refine hdrpEnds_of_parseRest hin hgood.1 hgood le_rfl h fun hx => ?_
  have hend := hx.right
  rw [← List.length_append] at hend
  rw [Nat.sub_self, parseRest, parseLines, bind_ok]
  dsimp only
  rw [parseBitCount_of_formatLine f hbits hx.left, bind_ok]
  dsimp only
  rw [← List.length_append, hmark hend, bind_error]

/-- Every error of what follows the last line (46_container_codec.md R252, R256, R257). -/
theorem hdrpEndErrors : HdrpEndErrors f s lines.length lines := by
  refine ⟨?_, ?_⟩
  · rintro rfl
    refine ⟨fun x off hbad h => ?_, fun B hlow hhigh h => ?_, fun B hB _ => ⟨fun b hb h => ?_, fun b hb h => ?_,
      fun b hb h => ?_, fun h hlen => ?_⟩⟩
    · exact hdrpEnds_at_bitCount hin hgood h fun hx =>
        parseBitCount_of_bad (decField_of_badDecimal (by decide) hbad hx)
    · exact hdrpEnds_at_bitCount hin hgood h (parseBitCount_of_large hlow hhigh)
    · exact hdrpEnds_at_mark (f := .extended) hin hgood hB h fun hx => parseEnd_of_first hx hb
    · exact hdrpEnds_at_mark (f := .extended) hin hgood hB h fun hx => parseEnd_of_second hx hb
    · exact hdrpEnds_at_mark (f := .extended) hin hgood hB h fun hx => parseEnd_of_third hx hb
    · have hparse := parseHeader_of_header hin hgood .extended hB (inputAt_of_inputStarts h)
      rw [formatBits_extended, parsedPayBits, if_pos hlen, bind_error] at hparse
      exact hdrpEnds_of_parse hparse
  · rintro rfl
    have hmark {x : List Byte} {e : ErrCode} {info : Nat} := hdrpEnds_at_mark (f := .legacy) (bits := 0) (x := x) (e := e)
      (info := info) hin hgood (Nat.two_pow_pos 32)
    rw [formatLine, List.append_nil] at hmark
    refine ⟨fun b hb h => ?_, fun b hH hzero hone h => ?_, fun b hb h => ?_, fun b hb h => ?_⟩
    · have herror : markError .legacy b = .hdrNlines := if_pos ⟨rfl, hb⟩
      have hH : b ≠ chH := by obtain rfl | rfl := hb <;> decide
      exact hmark h fun hx => herror ▸ parseEnd_of_first hx hH
    · have herror : markError .legacy b = .hdrEnd := if_neg fun hcode => not_or.2 ⟨hzero, hone⟩ hcode.2
      exact hmark h fun hx => herror ▸ parseEnd_of_first hx hH
    · exact hmark h fun hx => parseEnd_of_second hx hb
    · exact hmark h fun hx => parseEnd_of_third hx hb

end

/-- Settles O52: each error is that of the parser's part at fault, which the parse reaches through the parts before it; a
cut header by comparison with the whole one. -/
theorem hdrpReportsTruncation : Obligations.HdrpReportsTruncation := by
  refine fun f s => ⟨fun hover => hdrpEnds_of_parse (if_pos hover), fun hin => ⟨?truncation, ?start, ?badCount, ?largeCount,
    fun N lines hN hgood => ⟨hdrpLineErrors hin hN hgood, fun heq => heq ▸ hdrpEndErrors hin hgood⟩⟩⟩
  case truncation =>
    exact fun lines bits bs hgood hbits h hprefix hproper =>
      hdrpEnds_of_parse (parseHeader_of_beginning f hin hgood hbits h hprefix hproper)
  case start =>
    exact fun p b hp hproper hbad h => hdrpEnds_of_parse (parseHeader_of_bad_start hin hp hproper hbad
      (inputAt_of_inputStarts h))
  case badCount =>
    intro x off hbad h
    have hat := inputAt_of_inputStarts h
    exact hdrpEnds_of_parse (parseHeader_at_count hin hat (.inl (decField_of_badDecimal (by decide) hbad hat.right)))
  case largeCount =>
    intro N hlow hhigh h
    have hat := inputAt_of_inputStarts h
    rw [List.append_assoc] at hat
    have hfield := decField_of_dec (err := .hdrCount) hat.right (dec_length_le (k := 2) (by omega))
    exact hdrpEnds_of_parse (parseHeader_at_count hin hat (.inr ⟨N, _, hfield, hlow, rfl⟩))

end Sys2Proof.Machine
end

section
/-! PROOFS. HDRW: each end of the command in either format, and that HDRP reads a written header back (46_container_codec.md
R242 to R247, R258; O46, O47, O53). -/

namespace Sys2Proof.Machine

/-! ## The sum of the bit count -/

section
variable {s : State}

/-- Where every present symbol has a code the loop answers the bit count of FREQ and CODE (46_container_codec.md R242). -/
theorem sumBitCount_countedCodes (hcoded : ∀ sym, freqAt s sym ≠ 0#32 → (codeAt s sym).valid = true) :
    sumBitCount (countedCodes s) = .ok (bitCount s.freq s.code) := by
  rw [countedCodes_eq_map]
  exact sumBitCount_of_coded fun sym _ => hcoded sym

theorem allSymbols_sorted : allSymbols.Pairwise fun a b => a.toNat < b.toNat := by
  refine List.pairwise_map.2 (List.pairwise_lt_range.imp_of_mem fun {a b} ha hb hlt => ?_)
  rw [List.mem_range] at ha hb
  rwa [BitVec.toNat_ofNat, BitVec.toNat_ofNat, Nat.mod_eq_of_lt ha, Nat.mod_eq_of_lt hb]

/-- The loop ends at the first present symbol without a code (46_container_codec.md R243). -/
theorem sumBitCount_of_uncoded {symbols : List Symbol} {sym : Symbol}
    (hsorted : symbols.Pairwise fun a b => a.toNat < b.toNat) (hmem : sym ∈ symbols) (hpresent : freqAt s sym ≠ 0#32)
    (huncoded : (codeAt s sym).valid = false)
    (hleast : ∀ r : Symbol, r.toNat < sym.toNat → freqAt s r ≠ 0#32 → (codeAt s r).valid = true) :
    sumBitCount (symbols.map fun r => ((r, freqAt s r), codeAt s r)) = .error (.raise .noCode sym.toNat) := by
  induction symbols with
  | nil => cases hmem
  | cons r symbols ih =>
    obtain ⟨hr, hsorted⟩ := List.pairwise_cons.1 hsorted
    rw [List.map_cons, sumBitCount]
    obtain rfl | hmem := List.mem_cons.1 hmem
    · rw [if_neg hpresent, if_neg (Bool.not_eq_true _ ▸ huncoded)]
    · rw [ih hsorted hmem]
      split
      · rfl
      · next hpresent => exact if_pos (hleast r (hr sym hmem) hpresent)

/-- A loop that answers met no present symbol without a code. -/
theorem coded_of_sumBitCount {symbols : List Symbol} {B : Nat}
    (h : sumBitCount (symbols.map fun sym => ((sym, freqAt s sym), codeAt s sym)) = .ok B) :
    ∀ sym ∈ symbols, freqAt s sym ≠ 0#32 → (codeAt s sym).valid = true := by
  induction symbols generalizing B with
  | nil => exact fun _ hmem => nomatch hmem
  | cons r symbols ih =>
    rw [List.map_cons, sumBitCount] at h
    split at h
    · next habsent => exact List.forall_mem_cons.2 ⟨fun hpresent => absurd habsent hpresent, ih h⟩
    · split at h
      · next hvalid =>
        obtain ⟨B', hrest, -⟩ := bind_eq_ok.1 h
        exact List.forall_mem_cons.2 ⟨fun _ => hvalid, ih hrest⟩
      · cases h

/-! ## The ends of HDRW -/

/-- The bit-count line HDRW writes is that of FREQ and CODE in the extended format (46_container_codec.md R242). -/
theorem headerBitLine_eq_ok {f : Format} {line : List Byte} (h : headerBitLine s f = .ok line) :
    ∃ bits < 2 ^ 32, (f = .extended → bits = bitCount s.freq s.code) ∧ line = formatLine f bits := by
  cases f with
  | legacy =>
    cases h
    exact ⟨0, Nat.two_pow_pos 32, nofun, rfl⟩
  | extended =>
    obtain ⟨B, hsum, h⟩ := bind_eq_ok.1 h
    have hsum' := hsum
    rw [countedCodes_eq_map] at hsum'
    have hcoded := coded_of_sumBitCount hsum'
    have hcount := sumBitCount_countedCodes fun sym => hcoded sym (mem_allSymbols sym)
    rw [hsum, Except.ok.injEq] at hcount
    split at h
    · cases h
    · next hsmall =>
      cases h
      exact ⟨B, by omega, fun _ => hcount, rfl⟩

/-- With its bit-count line settled HDRW writes the header where there is room for it (46_container_codec.md R244). -/
theorem hdrwBody_of_bitLine (f : Format) {bits : Nat} (h : headerBitLine s f = .ok (formatLine f bits)) :
    hdrwBody f s =
      if s.params.obufBytes < (headerOf (codeLines s.code) (formatBits f bits)).length then
        .raise s .obufOvf (headerOf (codeLines s.code) (formatBits f bits)).length
      else .done (hdrwWork s (headerOf (codeLines s.code) (formatBits f bits))) := by
  rw [hdrwBody, h]
  dsimp only
  rw [renderHeader_codeLines]
  rfl

/-- An HDRW that completes has written the header of its table. -/
theorem hdrwBody_eq_done {f : Format} {t : State} (h : hdrwBody f s = .done t) :
    ∃ bits < 2 ^ 32, (f = .extended → bits = bitCount s.freq s.code) ∧
      (headerOf (codeLines s.code) (formatBits f bits)).length ≤ s.params.obufBytes ∧
      t = hdrwWork s (headerOf (codeLines s.code) (formatBits f bits)) := by
  cases hline : headerBitLine s f with
  | error stop =>
    rw [hdrwBody, hline] at h
    cases stop <;> cases h
  | ok line =>
    obtain ⟨bits, hbits, hcount, rfl⟩ := headerBitLine_eq_ok hline
    rw [hdrwBody_of_bitLine f hline] at h
    split at h
    · cases h
    · next hroom =>
      cases h
      exact ⟨bits, hbits, hcount, Nat.le_of_not_lt hroom, rfl⟩

section
variable {H : List Byte} (hsizes : s.params.wf) (hroom : H.length ≤ s.params.obufBytes)
include hsizes hroom

theorem hdrwWork_outLen : (hdrwWork s H).outLen.toNat = H.length := by
  obtain ⟨-, -, hsize⟩ := hsizes
  exact Nat.mod_eq_of_lt (by omega)

omit hsizes hroom in
theorem hdrwWork_bytesAt : BytesAt (hdrwWork s H).obuf 0 H := fun _ hi => read_writeBytes_inside _ _ _ hi

/-- A command that writes the header `H` at OBUF[0] and its length, and nothing else (46_container_codec.md R244, R246). -/
theorem exec_of_hdrwWork {i : Instr} (hbody : commandBody i s = .done (hdrwWork s H)) : ∃ t, exec i s = .next t ∧
    t = { s with
      obuf := t.obuf, outLen := t.outLen, hdrLen := t.hdrLen,
      errcode := 0#8, errInfo := 0#32, pending := none, done := true } ∧
    t.outLen.toNat = H.length ∧ t.hdrLen = t.outLen ∧ BytesAt t.obuf 0 H ∧
    SameOutside s.obuf t.obuf 0 t.outLen.toNat := by
  have hlen := hdrwWork_outLen hsizes hroom
  refine ⟨complete (hdrwWork s H), by rw [exec_eq_finish, hbody, finish_done], rfl, hlen, rfl, hdrwWork_bytesAt,
    fun a ha => ?_⟩
  rw [complete_outLen, hlen] at ha
  exact read_writeBytes_outside _ _ _ ha

end

/-- A body that raises in the state it was given changes nothing but the completion state (60_exceptions.md R284). -/
theorem raisesOnly_of_body {i : Instr} {e : ErrCode} {info : Nat} (hbody : commandBody i s = .raise s e info) :
    RaisesOnly (exec i s) s e info := by
  rw [RaisesOnly, exec_eq_finish, hbody]
  rfl

end

/-- Settles O46: with every present symbol coded and room for the header HDRW writes it; HDRW.L needs the room only. -/
theorem hdrwWritesHeader : Obligations.HdrwWritesHeader := by
  refine ⟨fun s hsizes hcoded hbits hroom => ?_, fun s hsizes hroom => ?_⟩
  · exact exec_of_hdrwWork hsizes hroom (hdrwBody_of_fits .extended hcoded hbits hroom)
  · exact exec_of_hdrwWork hsizes hroom ((hdrwBody_of_bitLine .legacy (bits := 0) rfl).trans (if_neg hroom.not_gt))

/-- Settles O47: the loop over the symbols stops at the least uncoded one; then the sum and the length are checked. -/
theorem hdrwChecksInOrder : Obligations.HdrwChecksInOrder := by
  refine fun s => ⟨fun sym hpresent huncoded hleast => ?_, fun hcoded => ⟨fun hlarge => ?_, fun hbits hlong => ?_⟩,
    fun hlong => ?_⟩
  · have hline : headerBitLine s .extended = .error (.raise .noCode sym.toNat) := by
      rw [headerBitLine, countedCodes_eq_map,
        sumBitCount_of_uncoded allSymbols_sorted (mem_allSymbols sym) hpresent huncoded hleast, bind_error]
    exact raisesOnly_of_body (show hdrwBody .extended s = _ by rw [hdrwBody, hline]; rfl)
  · have hline : headerBitLine s .extended = .error (.raise .range 0) := by
      rw [headerBitLine, sumBitCount_countedCodes hcoded, bind_ok]
      exact if_pos hlarge
    exact raisesOnly_of_body (show hdrwBody .extended s = _ by rw [hdrwBody, hline]; rfl)
  · exact raisesOnly_of_body
      ((hdrwBody_of_bitLine .extended (headerBitLine_of_coded .extended hcoded hbits)).trans (if_pos hlong))
  · exact raisesOnly_of_body ((hdrwBody_of_bitLine .legacy (bits := 0) rfl).trans (if_pos hlong))

/-! ## The round trip of a header -/

/-- The lines of a table without empty or repeated codes are good (46_container_codec.md R255). -/
theorem goodLines_codeLines {code : Vector CodeEntry 256}
    (hnonempty : ∀ sym, (tableGet code sym).valid = true → (tableGet code sym).len ≠ 0#8)
    (hdistinct : ∀ a b, (tableGet code a).valid = true → (tableGet code b).valid = true → a ≠ b →
      (tableGet code a).effective ≠ (tableGet code b).effective) : GoodLines (codeLines code) := by
  have hsymbols := codeLines_symbols_nodup code
  refine ⟨?_, fun x hx => ?_, hsymbols, hsymbols.of_map.map_on fun x hx y hy heq => ?_⟩
  · rw [codeLines_length, nsym]
    exact List.countP_le_length.trans_eq (Vector.length_toList ..)
  · obtain ⟨hvalid, hcode⟩ := mem_codeLines.1 hx
    refine ⟨?_, hasCode_length_le (mem_codeLines.1 hx)⟩
    rw [← hcode, effective_length]
    exact Nat.pos_of_ne_zero fun hzero => hnonempty _ hvalid (BitVec.eq_of_toNat_eq hzero)
  · obtain ⟨hxvalid, hxcode⟩ := mem_codeLines.1 hx
    obtain ⟨hyvalid, hycode⟩ := mem_codeLines.1 hy
    exact Prod.ext heq (of_not_not fun hne => hdistinct _ _ hxvalid hyvalid hne (by rw [hxcode, hycode, heq]))

/-- The valid entries of the table are restored with their effective codes (46_container_codec.md R258). -/
theorem lineTable_codeLines_restores (code : Vector CodeEntry 256) (sym : Symbol) :
    (tableGet (lineTable (codeLines code)) sym).valid = (tableGet code sym).valid ∧
      ((tableGet code sym).valid = true →
        (tableGet (lineTable (codeLines code)) sym).effective = (tableGet code sym).effective) := by
  rw [tableGet_lineTable_codeLines]
  have hlen : (tableGet code sym).effective.length ≤ 255 := by
    rw [effective_length]
    exact Nat.le_of_lt_succ (tableGet code sym).len.isLt
  split
  · next hvalid => exact ⟨hvalid.symm, fun _ => ofBits_effective hlen⟩
  · next hinvalid => exact ⟨(Bool.not_eq_true _ ▸ hinvalid).symm, fun hvalid => absurd hvalid hinvalid⟩

section
variable {s t u : State} {f : Format} (hsizes : s.params.wf)
  (hnonempty : ∀ sym, (codeAt s sym).valid = true → (codeAt s sym).len ≠ 0#8)
  (hdistinct : ∀ a b, (codeAt s a).valid = true → (codeAt s b).valid = true → a ≠ b →
    (codeAt s a).effective ≠ (codeAt s b).effective)
include hsizes hnonempty hdistinct

/-- A header HDRW wrote is read back wherever its bytes and the payload length it declares are found. -/
theorem hdrp_restores_codes {i j : Instr} (hi : commandBody i = hdrwBody f) (hj : commandBody j = hdrpBody f)
    (hexec : exec i s = .next t) (hok : t.errcode = 0#8) (hcopy : ∀ k < t.outLen.toNat, u.ibuf.read k = t.obuf.read k)
    (huin : u.inLen.toNat ≤ u.params.ibufBytes) (hlen : t.outLen.toNat ≤ u.inLen.toNat)
    (hpay : f = .extended → u.inLen.toNat = t.outLen.toNat + ceil8 (bitCount s.freq s.code)) :
    ∃ v, exec j u = .next v ∧ Completed v ∧ ∀ sym, (codeAt v sym).valid = (codeAt s sym).valid ∧
      ((codeAt s sym).valid = true → (codeAt v sym).effective = (codeAt s sym).effective) := by
  rw [exec_eq_finish, hi] at hexec
  obtain ⟨w, hbody, rfl⟩ | ⟨w, e, n, -, rfl⟩ := finish_eq_next hexec
  · obtain ⟨bits, hbits, hcount, hroom, rfl⟩ := hdrwBody_eq_done hbody
    have hout : (complete (hdrwWork s (headerOf (codeLines s.code) (formatBits f bits)))).outLen.toNat = _ :=
      hdrwWork_outLen hsizes hroom
    rw [hout] at hcopy hlen hpay
    have hat : InputAt u 0 (headerOf (codeLines s.code) (formatBits f bits)) := by
      refine ⟨by omega, fun k hk => ?_⟩
      rw [Nat.zero_add, hcopy k hk, ← hdrwWork_bytesAt (s := s) k hk, Nat.zero_add]
      rfl
    obtain ⟨payBits, hpayBits⟩ : ∃ payBits, parsedPayBits u bits
        (headerOf (codeLines s.code) (formatBits f bits)).length f = .ok payBits := by
      cases f with
      | extended => exact parsedPayBits_withPayload .extended (by rw [hpay rfl, hcount rfl])
      | legacy => exact ⟨_, rfl⟩
    have hread := hdrpBody_of_payBits huin (goodLines_codeLines hnonempty hdistinct) f hbits hat hpayBits
    exact ⟨complete (hdrpSuccess f ⟨lineTable (codeLines s.code), _, payBits⟩ u),
      by rw [exec_eq_finish, hj, hread, finish_done], ⟨rfl, rfl, rfl, rfl⟩, lineTable_codeLines_restores s.code⟩
  · exact absurd hok (errCode_ne_zero e)

end

/-- Settles O53: HDRW wrote the header of the table's lines, which are good, and HDRP gives their table back. -/
theorem headerRoundTrip : Obligations.HeaderRoundTrip := by
  refine ⟨by decide, fun s t u hsizes _ hnonempty hdistinct hok hcopy huin => ⟨fun hexec hlen => ?_, fun hexec hlen => ?_⟩⟩
  · exact hdrp_restores_codes (f := .extended) hsizes hnonempty hdistinct rfl rfl hexec hok hcopy huin
      (hlen ▸ Nat.le_add_right ..) fun _ => hlen
  · exact hdrp_restores_codes (f := .legacy) hsizes hnonempty hdistinct rfl rfl hexec hok hcopy huin hlen.ge nofun

end Sys2Proof.Machine
end

section
/-! PROOFS. HDRP's failure rule (46_container_codec.md R251; O51). -/

namespace Sys2Proof.Machine

/-- HDRP stops with its failure rule applied, or completes with what a header gave. -/
theorem hdrpBody_cases (f : Format) (s : State) :
    (∃ stop : Stop, hdrpBody f s = stop.result (hdrpFailure s)) ∨ ∃ h, hdrpBody f s = .done (hdrpSuccess f h s) := by
  rw [hdrpBody]
  split
  · exact .inl ⟨_, rfl⟩
  · exact .inr ⟨_, rfl⟩

/-- An HDRP that records an error has applied the failure rule (46_container_codec.md R251). -/
theorem hdrp_next_of_error {f : Format} {s t : State} (hnext : (hdrpBody f s).finish = .next t) (herr : t.errcode ≠ 0#8) :
    ∃ e info, t = raiseError e info (hdrpFailure s) := by
  obtain ⟨stop, hbody⟩ | ⟨h, hbody⟩ := hdrpBody_cases f s <;> rw [hbody] at hnext
  · cases stop with
    | raise e info => exact ⟨e, info, (Host.Outcome.next.inj hnext).symm⟩
    | fault r => cases hnext
  · cases hnext
    exact absurd rfl herr

/-- Settles O51: an error of HDRP leaves the state its failure rule gives. -/
theorem hdrpErrorsLeaveNoTable : Obligations.HdrpErrorsLeaveNoTable := by
  intro i s t hi hexec herr
  obtain ⟨e, info, rfl⟩ : ∃ e info, t = raiseError e info (hdrpFailure s) := by
    obtain rfl | rfl := hi
    · exact hdrp_next_of_error (f := .extended) hexec herr
    · exact hdrp_next_of_error (f := .legacy) hexec herr
  exact ⟨tableGet_empty, rfl⟩

end Sys2Proof.Machine
end

section
/-! PROOFS. The composite commands and their steps (47_composite.md R270 to R272; O54, O55, O56): what one step leaves in
the completion state does not matter to the next, COMPRESS writes the container of a message, and DECOMPRESS reads a message
under any prefix-free header of either format. -/

namespace Sys2Proof.Machine

/-! ## Steps issued one after the other -/

/-- The two results end the command alike. -/
def SameEnd (r r' : CmdResult) : Prop := r.finish = r'.finish

/-- The command ends alike whether or not another one has just completed: its body does not read the completion state, and
its end overwrites it (60_exceptions.md R282, R283). -/
def IgnoresCompletion (body : State → CmdResult) : Prop := ∀ s, SameEnd (body (complete s)) (body s)

theorem sameEnd_stop (s : State) (stop : Stop) : SameEnd (stop.result (complete s)) (stop.result s) := by
  cases stop <;> rfl

theorem sameEnd_ite {c : Prop} [Decidable c] {a a' b b' : CmdResult} (ha : SameEnd a a') (hb : SameEnd b b') :
    SameEnd (if c then a else b) (if c then a' else b') := by
  split
  · exact ha
  · exact hb

theorem sameInput_complete (s : State) : SameInput (complete s) s := ⟨rfl, rfl, rfl⟩

theorem buildBody_ignoresCompletion : IgnoresCompletion buildBody := fun _ => rfl

theorem assignBody_ignoresCompletion : IgnoresCompletion assignBody := fun _ => sameEnd_ite rfl (sameEnd_ite rfl rfl)

theorem hdrwBody_ignoresCompletion (f : Format) : IgnoresCompletion (hdrwBody f) := by
  intro s
  have hline : headerBitLine (complete s) f = headerBitLine s f := by cases f <;> rfl
  rw [hdrwBody, hdrwBody, hline]
  cases headerBitLine s f with
  | error stop => exact sameEnd_stop s stop
  | ok line => exact sameEnd_ite rfl rfl

theorem encodeBody_ignoresCompletion : IgnoresCompletion encodeBody := by
  intro s
  rw [encodeBody, encodeBody, encodeScan_congr (sameInput_complete s) rfl, complete_inLen]
  refine sameEnd_ite rfl (sameEnd_ite rfl ?_)
  cases encodeScan s s.inLen.toNat 0 with
  | error stop => exact sameEnd_stop s stop
  | ok S => exact sameEnd_ite rfl rfl

theorem decodeLoop_ignoresCompletion (n k : Nat) (acc : BitStr) : IgnoresCompletion (decodeLoop n k acc) := by
  intro s
  induction n generalizing k acc s with
  | zero => exact sameEnd_ite rfl rfl
  | succ n ih =>
    rw [decodeLoop, decodeLoop, inputByte_congr (sameInput_complete s), complete_payOff, complete_code]
    refine sameEnd_ite rfl ?_
    cases inputByte s (s.payOff.toNat + k / 8) with
    | error stop => exact sameEnd_stop s stop
    | ok b =>
      dsimp only
      cases lookup s.code (acc ++ [payloadBit b k]) with
      | none => exact ih _ _ s
      | some m => exact sameEnd_ite rfl (ih _ _ (emitSymbol m s))

theorem decodeBody_ignoresCompletion : IgnoresCompletion decodeBody := fun s =>
  sameEnd_ite rfl (sameEnd_ite rfl (sameEnd_ite rfl (decodeLoop_ignoresCompletion _ _ _ { s with outLen := 0#32 })))

section
variable {r : CmdResult} {next : State → CmdResult} {t : State}

/-- A composed body stops where its first step does. -/
theorem finish_andThen_of_fault {f : Fault} (hr : r.finish = .fault f) : (r.andThen next).finish = .fault f := by
  rw [finish_eq_fault.1 hr]
  rfl

/-- A composed body ends with its first step where that raises. -/
theorem finish_andThen_of_error (hr : r.finish = .next t) (herr : t.errcode ≠ 0#8) :
    (r.andThen next).finish = .next t := by
  obtain ⟨u, -, rfl⟩ | ⟨u, e, info, rfl, rfl⟩ := finish_eq_next hr
  · exact absurd rfl herr
  · rfl

/-- A composed body goes on from a step that completed as the next command would. -/
theorem finish_andThen_of_completed (hnext : IgnoresCompletion next) (hr : r.finish = .next t) (hok : t.errcode = 0#8) :
    (r.andThen next).finish = (next t).finish := by
  obtain ⟨u, rfl, rfl⟩ | ⟨u, e, info, -, rfl⟩ := finish_eq_next hr
  · exact (hnext u).symm
  · exact absurd hok (errCode_ne_zero e)

theorem finish_andThen (hnext : IgnoresCompletion next) (hr : r.finish = .next t) :
    (r.andThen next).finish = if t.errcode = 0#8 then (next t).finish else .next t := by
  split
  · next hok => exact finish_andThen_of_completed hnext hr hok
  · next herr => exact finish_andThen_of_error hr herr

end

/-! ## The commands of a format -/

theorem exec_hdrw_format (f : Format) (s : State) :
    exec (match f with | .extended => .hdrw | .legacy => .hdrwL) s = (hdrwBody f s).finish := by
  cases f <;> rfl

theorem exec_hdrp_format (f : Format) (s : State) :
    exec (match f with | .extended => .hdrp | .legacy => .hdrpL) s = (hdrpBody f s).finish := by
  cases f <;> rfl

theorem exec_compress_format (f : Format) (s : State) :
    exec (match f with | .extended => .compress | .legacy => .compressL) s = (compressBody f s).finish := by
  cases f <;> rfl

theorem exec_decompress_format (f : Format) (s : State) :
    exec (match f with | .extended => .decompress | .legacy => .decompressL) s = (decompressBody f s).finish := by
  cases f <;> rfl

/-! ## COMPRESS and DECOMPRESS as their steps -/

/-- After a FREQ without an error BUILD and ASSIGN cannot fail, and HDRW decides whether ENCODE follows. -/
theorem compressBody_finish {f : Format} {s t1 t2 t3 t4 : State} (hfreq : (freqBody s).finish = .next t1)
    (hcounted : t1.errcode = 0#8) (hbuild : (buildBody t1).finish = .next t2) (hassign : (assignBody t2).finish = .next t3)
    (hhdrw : (hdrwBody f t3).finish = .next t4) :
    (compressBody f s).finish = if t4.errcode = 0#8 then (encodeBody t4).finish else .next t4 := by
  have hbuilt := (finish_andThen_of_completed buildBody_ignoresCompletion hfreq hcounted).trans hbuild
  obtain rfl : complete (buildWork t1) = t2 := Host.Outcome.next.inj hbuild
  have hassigned := (finish_andThen_of_completed assignBody_ignoresCompletion hbuilt rfl).trans hassign
  rw [assignBody_current rfl] at hassign
  obtain rfl := Host.Outcome.next.inj hassign
  have hheaded := (finish_andThen_of_completed (hdrwBody_ignoresCompletion f) hassigned rfl).trans hhdrw
  exact finish_andThen encodeBody_ignoresCompletion hheaded

/-- Settles O55: no step reads what the completion of the one before wrote, so that it goes on from the completed command
as it does within the composite. -/
theorem compositesEqualTheirSteps : Obligations.CompositesEqualTheirSteps := by
  refine ⟨fun f s t1 t2 t3 t4 => ⟨fun r hfault => ?_, fun hfreq herr => ?_,
    fun hfreq hcounted hbuild hassign hhdrw => ?_⟩, fun f s t => ⟨fun r hfault => ?_, fun hparse => ?_⟩⟩
  · refine (exec_compress_format f s).trans ?_
    rw [compressBody_eq]
    exact finish_andThen_of_fault hfault
  · refine (exec_compress_format f s).trans ?_
    rw [compressBody_eq]
    exact finish_andThen_of_error hfreq herr
  · exact (exec_compress_format f s).trans
      (compressBody_finish hfreq hcounted hbuild hassign ((exec_hdrw_format f t3).symm.trans hhdrw))
  · exact (exec_decompress_format f s).trans (finish_andThen_of_fault ((exec_hdrp_format f s).symm.trans hfault))
  · exact (exec_decompress_format f s).trans
      (finish_andThen decodeBody_ignoresCompletion ((exec_hdrp_format f s).symm.trans hparse))

/-! ## The container of a message -/

/-- A message has no present symbol exactly when it is empty. -/
theorem presentCount_countBytes_eq_zero {bs : List Byte} (h : bs.length < 2 ^ 32) :
    presentCount (countBytes bs) = 0 ↔ bs = [] := by
  have habsent (sym : Symbol) : tableGet (countBytes bs) sym = 0#32 ↔ sym ∉ bs := by
    rw [← List.count_eq_zero, ← toNat_tableGet_countBytes h, ← BitVec.toNat_inj]
    rfl
  simp only [presentCount, List.countP_eq_zero, toList_eq_map_tableGet, List.forall_mem_map, bne_iff_ne, not_not, habsent,
    mem_allSymbols, true_imp_iff, List.eq_nil_iff_forall_not_mem]

/-- After COMPRESS there is a root unless the message is empty (42_tree_builder.md R188). -/
theorem compressWork_rootValid {s : State} {f : Format} {bs : List Byte} (h : bs.length < 2 ^ 32) :
    (compressWork f s bs).rootValid = !bs.isEmpty := by
  have hroot := buildWork_rootValid_iff { s with freq := countBytes bs, treeBuilt := false }
  rw [Ne, presentCount_countBytes_eq_zero h] at hroot
  exact Bool.eq_iff_iff.2 (hroot.trans (by simp))

/-- Settles O54: the steps of COMPRESS on a message write its header and, behind it, its payload. -/
theorem compressWritesContainer : Obligations.CompressWritesContainer := by
  intro s bs f hsizes hbuf hin hroom
  have hshort : bs.length < 2 ^ 32 := hbuf.1 ▸ s.inLen.isLt
  have hbits : (codeBits (huffmanCodes bs) bs).length < 2 ^ 32 := by
    have hle := codeBits_length_le (huffmanCodes bs) bs
    obtain ⟨⟨-, hsize⟩, -⟩ := hsizes
    omega
  have hobuf := compressWork_obuf hsizes hroom
  refine ⟨complete (compressWork f s bs), ?_, ⟨rfl, rfl, rfl, rfl⟩, fun i hi => ?_, fun a ha => ?_,
    compressWork_outLen hsizes hroom, messageHeaded_outLen hsizes hroom, Nat.mod_eq_of_lt hbits, rfl, rfl, rfl,
    compressWork_rootValid (f := f) hshort⟩
  · exact (exec_compress_format f s).trans (congrArg CmdResult.finish (compressBody_message hsizes hroom hin hbuf))
  · rw [complete_obuf, hobuf, read_writeBytes_inside _ _ _ hi]
  · rw [complete_obuf, hobuf, read_writeBytes_outside _ _ _ ha]

/-! ## Prefix-free lines -/

section
variable {lines : List (BitStr × Symbol)} (hgood : GoodLines lines)
include hgood

/-- Good, prefix-free lines are a prefix code (43_code_assigner.md R204). -/
theorem prefixCode_of_goodLines (hfree : PrefixFreeLines lines) : PrefixCode (lines.map Prod.swap) := by
  obtain ⟨-, hlength, hsymbols, -⟩ := hgood
  have hsymm : Std.Symm fun x y : BitStr × Symbol => ¬x.1 <+: y.1 ∧ ¬y.1 <+: x.1 := ⟨fun _ _ => And.symm⟩
  have hsame : ∀ x ∈ lines, ∀ y ∈ lines, x.1 <+: y.1 → x = y := fun x hx y hy hprefix =>
    of_not_not fun hne => (hfree.forall hx hy hne).1 hprefix
  exact ⟨(map_fst_swap_lines lines).symm ▸ hsymbols, List.forall_mem_map.2 hlength, List.forall_mem_map.2 fun x hx =>
    List.forall_mem_map.2 fun y hy hprefix => congrArg Prod.swap (hsame x hx y hy hprefix)⟩

/-- A symbol with a line has a valid entry with the line's code. -/
theorem hasCode_lineTable {sym : Symbol} {c : BitStr} (hline : lineCode lines sym = some c) :
    HasCode (lineTable lines) sym c := by
  have hc : c.length ≤ 255 := by
    obtain ⟨x, hfind, rfl⟩ := Option.map_eq_some_iff.1 hline
    exact (hgood.2.1 x (List.mem_of_find?_eq_some hfind)).2
  rw [HasCode, tableGet_lineTable hgood, lineEntry, hline]
  exact ⟨rfl, ofBits_effective hc⟩

variable {M : List Byte} (hcoded : ∀ b ∈ M, (lineCode lines b).isSome = true)
include hcoded

theorem covers_lineTable : Covers (lineTable lines) M := fun b hb => by
  obtain ⟨c, hc⟩ := Option.isSome_iff_exists.1 (hcoded b hb)
  exact (hasCode_lineTable hgood hc).1

/-- The bits of a message under the lines are its bits under their table. -/
theorem codeBits_lineTable : codeBits (lineTable lines) M = lineBits lines M := by
  refine List.flatMap_congr fun b hb => ?_
  obtain ⟨c, hc⟩ := Option.isSome_iff_exists.1 (hcoded b hb)
  rw [(hasCode_lineTable hgood hc).2, hc, Option.getD_some]

end

/-! ## DECOMPRESS of either format -/

section
variable {s : State} {payload : List Byte} (hin : s.inLen.toNat ≤ s.params.ibufBytes)
include hin

/-- A legacy payload without a bit left over is what DECODE consumes with BV = 0 (45_bit_decoder.md R231). -/
theorem decodeInput_of_legacy {S : BitStr} {hl : Nat} (code : Vector CodeEntry 256)
    (hlen : s.inLen.toNat = hl + payload.length) (hbytes : BytesAt s.ibuf hl payload) (hsize : S.length < 2 ^ 32)
    (hlength : 8 * payload.length = S.length)
    (hpayload : ∀ k < S.length, (payload[k / 8]?).map (payloadBit · k) = S[k]?) :
    DecodeInput (hdrpSuccess .legacy ⟨code, hl, S.length⟩ s) S := by
  have hceil : payload.length = ceil8 S.length := by
    rw [ceil8]
    omega
  have hinput := decodeInput_of_container hin code hlen hbytes hsize hceil hpayload
  have hword := s.inLen.isLt
  have hoff : (hdrpSuccess .legacy ⟨code, hl, S.length⟩ s).payOff.toNat = hl :=
    Nat.mod_eq_of_lt (show hl < 2 ^ 32 by omega)
  refine { hinput with total := ?_ }
  rw [hoff, hdrpSuccess_inLen, hlen, Nat.add_sub_cancel_left, hlength]
  rfl

/-- DECOMPRESS.L of a prefix code's header and the codes of a message recovers the message (47_composite.md R271). -/
theorem decompressBody_of_legacy {lines : List (BitStr × Symbol)} {M : List Byte} (hsizes : s.params.wf)
    (hprefix : PrefixCode (lines.map Prod.swap)) (hcovers : Covers (lineTable lines) M)
    (hroom : M.length ≤ s.params.obufBytes) (hlength : 8 * payload.length = (codeBits (lineTable lines) M).length)
    (hsize : (codeBits (lineTable lines) M).length < 2 ^ 32)
    (hpayload : ∀ k < (codeBits (lineTable lines) M).length,
      (payload[k / 8]?).map (payloadBit · k) = (codeBits (lineTable lines) M)[k]?)
    (h : IbufHolds s (headerOf lines none ++ payload)) :
    decompressBody .legacy s = .done (decodeWork (hdrpSuccess .legacy
      ⟨lineTable lines, (headerOf lines none).length, (codeBits (lineTable lines) M).length⟩ s) M) := by
  have hlen : s.inLen.toNat = (headerOf lines none).length + payload.length := h.1.trans List.length_append
  have hheader := inputAt_of_ibufHolds h
  have hbytes := hheader.right.2
  rw [Nat.zero_add] at hbytes
  have hpay : parsedPayBits s 0 (headerOf lines none).length .legacy = .ok (codeBits (lineTable lines) M).length := by
    rw [parsedPayBits, hlen, Nat.add_sub_cancel_left, hlength]
  have hparsed := hdrpBody_of_payBits hin (goodLines_of_prefixCode hprefix) .legacy (Nat.two_pow_pos 32) hheader.left hpay
  have hnonempty : NoEmptyCode (lineTable lines) := writeCodes_noEmptyCode noEmptyCode_empty hprefix.length
  rw [decompressBody, hparsed, andThen_done]
  exact decodeBody_of_message hsizes hprefix.table_prefixFree (noEmptyCode_iff.1 hnonempty) hcovers hroom
    (decodeInput_of_legacy hin _ hlen hbytes hsize hlength hpayload)

end

/-- What a DECOMPRESS of either format leaves where HDRP accepted a header and DECODE recovered a message. -/
theorem exec_of_decompressed {s : State} {f : Format} {i : Instr} {code : Vector CodeEntry 256} {hl bits : Nat}
    {M : List Byte} (hM : M.length < 2 ^ 32) (hbits : bits < 2 ^ 32)
    (hbody : commandBody i s = .done (decodeWork (hdrpSuccess f ⟨code, hl, bits⟩ s) M)) :
    ∃ t, exec i s = .next t ∧ Completed t ∧ BytesAt t.obuf 0 M ∧ SameOutside s.obuf t.obuf 0 M.length ∧
      t.outLen.toNat = M.length ∧ t.payBits.toNat = bits ∧ t.decBV = (f == .extended) := by
  obtain ⟨hbytes, hsame⟩ := decodeWork_frame (hdrpSuccess f ⟨code, hl, bits⟩ s) M
  exact ⟨_, (exec_eq_finish i s).trans (congrArg CmdResult.finish hbody), ⟨rfl, rfl, rfl, rfl⟩, hbytes, hsame,
    Nat.mod_eq_of_lt hM, Nat.mod_eq_of_lt hbits, rfl⟩

/-- Settles O56: the table of good, prefix-free lines is that of a prefix code, under which DECODE recovers the message from
the payload HDRP found, with its bit count or with every bit of it. -/
theorem decompressRecoversMessage : Obligations.DecompressRecoversMessage := by
  intro s lines payload M hsizes hgood hfree hcoded hroom hin hpayload
  have hprefix := prefixCode_of_goodLines hgood hfree
  have hcovers := covers_lineTable hgood hcoded
  have hM : M.length < 2 ^ 32 ∧ (codeBits (lineTable lines) M).length < 2 ^ 32 := by
    have hle := codeBits_length_le (lineTable lines) M
    obtain ⟨-, -, hsize⟩ := hsizes
    omega
  obtain ⟨hM, hbits⟩ := hM
  rw [← codeBits_lineTable hgood hcoded] at hpayload ⊢
  refine ⟨fun hlength h => ?_, fun hlength h => ?_⟩
  · exact exec_of_decompressed (f := .extended) hM hbits
      (decompressBody_of_container hin hsizes hprefix rfl hcovers hroom hlength hpayload h)
  · exact exec_of_decompressed (f := .legacy) hM hbits
      (decompressBody_of_legacy hin hsizes hprefix hcovers hroom hlength hbits hpayload h)

end Sys2Proof.Machine
end

section
/-! PROOFS. The errors of the all-or-nothing commands (60_exceptions.md R284, R285; O58). -/

namespace Sys2Proof.Machine

/-- The body stops in the state it was given, or reaches its `complete()`. -/
def AllOrNothing (s : State) (r : CmdResult) : Prop := (∃ stop : Stop, r = stop.result s) ∨ ∃ t, r = .done t

theorem freqBody_allOrNothing (s : State) : AllOrNothing s (freqBody s) := by
  rw [freqBody]
  split
  · exact .inl ⟨.raise .., rfl⟩
  · split
    · exact .inl ⟨_, rfl⟩
    · exact .inr ⟨_, rfl⟩

theorem assignBody_allOrNothing (s : State) : AllOrNothing s (assignBody s) := by
  rw [assignBody]
  split
  · exact .inl ⟨.raise .., rfl⟩
  · split <;> exact .inr ⟨_, rfl⟩

theorem encodeBody_allOrNothing (s : State) : AllOrNothing s (encodeBody s) :=
  (encodeBody_cases s).imp_right fun ⟨_, _, hdone⟩ => ⟨_, hdone⟩

theorem hdrwBody_allOrNothing (f : Format) (s : State) : AllOrNothing s (hdrwBody f s) :=
  (hdrwBody_cases s f).imp_right fun ⟨_, _, hdone⟩ => ⟨_, hdone⟩

theorem commandBody_allOrNothing {i : Instr}
    (hi : i ∈ [Instr.nop, .clear, .freq, .build, .assign, .encode, .hdrw, .hdrwL]) (s : State) :
    AllOrNothing s (commandBody i s) := by
  simp only [List.mem_cons, List.not_mem_nil, or_false] at hi
  obtain rfl | rfl | rfl | rfl | rfl | rfl | rfl | rfl := hi
  · exact .inr ⟨_, rfl⟩
  · exact .inr ⟨_, rfl⟩
  · exact freqBody_allOrNothing s
  · exact .inr ⟨_, rfl⟩
  · exact assignBody_allOrNothing s
  · exact encodeBody_allOrNothing s
  · exact hdrwBody_allOrNothing .extended s
  · exact hdrwBody_allOrNothing .legacy s

/-- Settles O58: these bodies raise in the state they were given, and a completion records no error. -/
theorem allOrNothingErrors : Obligations.AllOrNothingErrors := by
  intro i s t hi hexec herr
  rw [exec_eq_finish] at hexec
  obtain ⟨stop, hbody⟩ | ⟨u, hbody⟩ := commandBody_allOrNothing hi s <;> rw [hbody] at hexec
  · cases stop with
    | raise e info =>
      cases hexec
      rfl
    | fault f => cases hexec
  · cases hexec
    exact absurd rfl herr

end Sys2Proof.Machine
end

section
/-! PROOFS. The interrupt output: what each step does to DONE and IE (60_exceptions.md R290; O20). -/

namespace Sys2Proof.Machine

/-- A register's word stands at its place in the register order (10_state.md R32). -/
theorem wordOffset_of_slotOf_reg {p : Params} {a : Offset} {r : Reg} (h : slotOf p a = .reg r) :
    wordOffset a = 4 * regOrder.idxOf r := by
  have hplace : ∀ k < 21, regOrder.idxOf (regOrder.getD k .id) = k := by decide
  rw [slotOf] at h
  obtain hlow | hhigh := Nat.lt_or_ge (wordOffset a) 0x054
  · rw [slotAt_reg p hlow] at h
    cases h
    rw [hplace _ (by omega), wordOffset]
    omega
  · exact absurd h (slotAt_ne_reg p hhigh r)

section
variable {s t : State}

theorem coreStep_irq {w : Word} (h : coreStep w s = .next t) :
    t.pending = none ∧ t.done = true ∧ t.irq = s.ctrlIE := by
  obtain ⟨i, -, hexec⟩ | ⟨e, -, hraise⟩ := coreStep_cases w s
  · rw [hexec] at h
    obtain ⟨hpending, hdone⟩ := exec_completes h
    obtain ⟨-, hie, -⟩ := exec_inputsKept h
    exact ⟨hpending, hdone, by rw [State.irq, hdone, hie, Bool.true_and]⟩
  · cases hraise.symm.trans h
    exact ⟨rfl, rfl, rfl⟩

/-- What a step can do to the interrupt: one case for each event of 60_exceptions.md R290 and the reset. -/
inductive IrqStep (s t : State) : Prop where
  | unchanged (hirq : t.irq = s.irq)
  | completed (hbusy : s.pending ≠ none) (hpending : t.pending = none) (hdone : t.done = true) (hirq : t.irq = s.ctrlIE)
  | ctrl {a : Offset} {v : Word} {rest : List Event} (hscript : s.script = .write a v :: rest)
      (ha : wordOffset a = 0x008) (hirq : t.irq = (s.done && v.getLsbD 0))
  | status {a : Offset} {v : Word} {rest : List Event} (hscript : s.script = .write a v :: rest)
      (ha : wordOffset a = 0x00C) (hirq : t.irq = (s.irq && !v.getLsbD 1))
  | accepted {a : Offset} {v : Word} {rest : List Event} (hscript : s.script = .write a v :: rest)
      (ha : wordOffset a = 0x010) (hidle : s.pending = none) (hpending : t.pending = some v) (hirq : t.irq = false)
  | reset {rest : List Event} (hscript : s.script = .reset :: rest) (hirq : t.irq = false)

section
variable {a : Offset} {v : Word} {rest : List Event} (hscript : s.script = .write a v :: rest)
include hscript

/-- Of the slots a write reaches, only CTRL, STATUS and an idle CMD bear on DONE and IE (20_memory.md R110). -/
theorem irqStep_of_writeSlot {slot : Slot} (hslot : slotOf s.params a = slot)
    (hreach : s.pending = none ∨ busyWritable slot = true) : IrqStep s (writeSlot slot v { s with script := rest }) := by
  cases slot with
  | reg r =>
    have hoffset := wordOffset_of_slotOf_reg hslot
    cases r with
    | ctrl => exact .ctrl hscript hoffset rfl
    | status => exact .status hscript hoffset (Bool.and_right_comm ..)
    | cmd =>
      obtain hidle | hbusy := hreach
      · exact .accepted hscript hoffset hidle rfl rfl
      · cases hbusy
    | _ => exact .unchanged rfl
  | _ => exact .unchanged rfl

theorem irqStep_of_write (hstep : step s = .next t) : IrqStep s t := by
  by_cases hreach : s.pending = none ∨ busyWritable (slotOf s.params a) = true
  · have hwrite : step s = .next (writeSlot (slotOf s.params a) v { s with script := rest }) :=
      hreach.elim (step_of_idle_write · hscript rfl) (step_of_busy_write hscript rfl ·)
    cases hwrite.symm.trans hstep
    exact irqStep_of_writeSlot hscript rfl hreach
  · obtain ⟨hbusy, hslot⟩ := not_or.1 hreach
    obtain ⟨w, hw⟩ := Option.ne_none_iff_exists'.1 hbusy
    cases (step_of_dropped_write hw hscript (Bool.eq_false_iff.2 hslot)).symm.trans hstep
    exact .unchanged rfl

end

theorem irqStep_of_coreStep {u : State} {w : Word} (hpending : s.pending = some w) (hie : u.ctrlIE = s.ctrlIE)
    (h : coreStep w u = .next t) : IrqStep s t := by
  obtain ⟨hdone, hcompleted, hirq⟩ := coreStep_irq h
  exact .completed (by rw [hpending]; exact nofun) hdone hcompleted (hirq.trans hie)

theorem irqStep_of_step (hstep : step s = .next t) : IrqStep s t := by
  obtain ⟨e, rest, hscript, hrun⟩ | ⟨w, -, hw, hcore⟩ | ⟨-, -, hstuck⟩ := step_cases s
  · cases e with
    | write a v => exact irqStep_of_write hscript hstep
    | read a =>
      obtain ⟨v, d, rfl⟩ := hostReadsChangeNothing s t a rest hscript hstep
      exact .unchanged rfl
    | core =>
      rw [hrun, runEvent, coreTurn] at hstep
      split at hstep
      · next w hw => exact irqStep_of_coreStep (s := s) (u := { s with script := rest }) hw rfl hstep
      · cases hstep
        exact .unchanged rfl
    | reset =>
      cases hrun.symm.trans hstep
      exact .reset hscript rfl
  · exact irqStep_of_coreStep hw rfl (hcore ▸ hstep)
  · cases hstuck.symm.trans hstep

theorem irq_eq_true_iff : s.irq = true ↔ s.done = true ∧ s.ctrlIE = true := Bool.and_eq_true_iff

end

/-- Settles O20: of all a step can do to the interrupt, a completion and a write to CTRL can raise it, and a write to CTRL,
STATUS or CMD and the reset can lower it. -/
theorem interruptFollowsDoneAndEnable : Obligations.InterruptFollowsDoneAndEnable := by
  intro s t hstep
  refine ⟨irq_eq_true_iff, fun hlow hhigh => ?_, fun hhigh hlow => ?_⟩
  · cases irqStep_of_step hstep with
    | unchanged hirq => simp [hirq, hlow] at hhigh
    | completed hbusy hpending hdone hirq => exact .inl ⟨hirq ▸ hhigh, hbusy, hpending, hdone⟩
    | ctrl hscript ha hirq =>
      obtain ⟨hdone, hset⟩ := Bool.and_eq_true_iff.1 (hirq ▸ hhigh)
      exact .inr ⟨_, _, _, hscript, ha, hset, hdone⟩
    | status _ _ hirq => simp [hirq, hlow] at hhigh
    | accepted _ _ _ _ hirq => simp [hirq] at hhigh
    | reset _ hirq => simp [hirq] at hhigh
  · obtain ⟨hdone, hie⟩ := irq_eq_true_iff.1 hhigh
    cases irqStep_of_step hstep with
    | unchanged hirq => simp [hirq, hhigh] at hlow
    | completed _ _ _ hirq => simp [hirq, hie] at hlow
    | ctrl hscript ha hirq => exact .inl ⟨_, _, _, hscript, .inr (.inl ⟨ha, by simpa [hirq, hdone] using hlow⟩)⟩
    | status hscript ha hirq => exact .inl ⟨_, _, _, hscript, .inl ⟨ha, by simpa [hirq, hhigh] using hlow⟩⟩
    | accepted hscript ha hidle hpending _ => exact .inl ⟨_, _, _, hscript, .inr (.inr ⟨ha, hidle, hpending⟩)⟩
    | reset hscript _ => exact .inr ⟨_, hscript⟩

end Sys2Proof.Machine
end

section
/-! PROOFS. The state after reset (70_reset_and_hazards.md R310, R312; O23, O24, O25). -/

namespace Sys2Proof.Machine

/-- Settles O25: the invariant was shown of every reset state. -/
theorem resetSatisfiesInvariant : Obligations.ResetSatisfiesInvariant := fun _ => resetWith_inv

/-- Settles O24: the reset event's own step, with the arena of the reset state. -/
theorem resetInputReplacesState : Obligations.ResetInputReplacesState := by
  intro s rest hscript
  refine ⟨⟨(State.resetWith s.params).node, ?_⟩, rfl, rfl⟩
  rw [step, nextEvent, hscript]
  rfl

theorem nsym_emptyCodeTable : nsym emptyCodeTable = 0 := by
  simp [nsym_eq, CodeEntry.empty]

/-- Settles O23: each piece of state by its definition, the tables entry by entry. -/
theorem resetHoldsItsValues : Obligations.ResetHoldsItsValues := by
  intro p
  refine ⟨rfl, rfl, rfl, rfl, rfl, rfl, rfl, rfl, rfl, rfl, rfl, rfl, rfl, rfl, rfl, rfl, rfl, rfl, rfl, rfl,
    congrArg (BitVec.ofNat 32) nsym_emptyCodeTable, rfl, rfl, rfl, rfl, fun _ => tableGet_replicate .., tableGet_empty,
    fun _ => rfl, fun _ => rfl, rfl, rfl⟩

end Sys2Proof.Machine
end
